-- ==== Sys2Proof/Word.lean ====
section
/-! DEFINITION. The word types of Selara SFE: a port word, a byte of a transport, and a value as its binary32 image
(rules R85, R107). -/

namespace Sys2Proof

/-- A 32-bit port word (R85). -/
abbrev Word := BitVec 32

/-- One byte of a byte-serial transport (R62). -/
abbrev Byte := BitVec 8

/-- A value of the data path, held as its IEEE 754 binary32 image: sign bit 31, biased exponent bits 30:23, fraction
bits 22:0 (R17, R107). -/
abbrev F32 := BitVec 32

end Sys2Proof
end

