-- ==== Sys2Proof/Syntax.lean ====
section
/-! DEFINITION. The commands of Selara SFE (R87), the two ports (R85), the ways a header can be
illegal (R102), and who can take a step (R19). -/

namespace Sys2Proof

/-- The two ports (R85). -/
inductive Port
  | src
  | con
  deriving DecidableEq, Repr

/-- One constructor per row of the opcode map (R87): what the header word says. The payload words of `CFG` (the rate, R89)
and of `BATCH` (the raw samples, R91) stay on the port and are read when the command runs. -/
inductive Instr
  /-- `CFG`: channel count and sample encoding tag (R88). -/
  | cfg (channels enc : Nat)
  /-- `BATCH`: the number of raw samples that follow (R90). -/
  | batch (n : Nat)
  /-- `CLOSE` (R130). -/
  | close
  /-- `LVL.POP` (R236). -/
  | lvlPop
  /-- `LVL.LATEST` (R237). -/
  | lvlLatest
  /-- `SPC.POP` (R238). -/
  | spcPop
  /-- `SPC.LATEST` (R239). -/
  | spcLatest
  /-- `RDREG`: the register number (R98). -/
  | rdreg (r : Nat)
  deriving DecidableEq, Repr

/-- Why a header is illegal (R102), and one way a byte sequence holds no header at all. -/
inductive Illegal
  /-- (a) the opcode is none of the eight. -/
  | unassignedOpcode
  /-- (b), (c) operand bits that must be 0 are not. -/
  | reservedOperand
  /-- (d) a legal header on the wrong port (R108). -/
  | wrongPort
  /-- Fewer than four bytes: no word has arrived (R62). -/
  | truncated
  deriving DecidableEq, Repr

/-- Who takes the next step: the four parties of R19, or the external reset event of R290. -/
inductive Move
  | src
  | cap
  | con
  | ana
  | reset
  deriving DecidableEq, Repr, Inhabited

end Sys2Proof
end

