-- ==== Sys2Proof/Config.lean ====
section
/-! DEFINITION. The interface constants and the defaults of the parameters (R9 to R13); the free values: what the spec leaves
open is a constant with no body, so that no proof can see what it is; and the parameters themselves, the arithmetic `NUM`,
the data path's and the machine's, which every step takes as an argument (R9, R11, R13, R17, R36, U13). -/

namespace Sys2Proof.Config

/-! ## Constants of the interface (R12) -/

/-- `NMAX`, the largest raw-sample count of one `BATCH` (R12, R90): its count field is 24 bits wide. -/
abbrev nmax : Nat := 16777215

/-! ## Defaults of the parameters (R9 to R11, R13) -/

/-- `F`, samples per analysis window (R9). -/
abbrev fftSize : Nat := 1024
/-- `B`, the band count (R9). -/
abbrev bands : Nat := 96
/-- `NBINS = F/2 + 1` (R10). -/
abbrev nbins : Nat := 513
/-- `CAP_LEVEL`, the capacity of the level FIFO, in messages (R11, R160). -/
abbrev capLevel : Nat := 32
/-- `CAP_FRAME`, the capacity of the frame FIFO (R11, R160). -/
abbrev capFrame : Nat := 16
/-- `CAP_SPEC`, the capacity of the spectrum FIFO (R11, R160). -/
abbrev capSpec : Nat := 8

/-- `F_LO` in hertz (R9). -/
abbrev fLoHz : Nat := 20
/-- `F_HI_MAX` in hertz (R9). -/
abbrev fHiMaxHz : Nat := 20000
/-- The smallest sample rate `CFG` accepts (R123 c). -/
abbrev minRate : Nat := 41

/-- `F_LO = 20.0` as a binary32 image (R33). -/
def fLo : F32 := 0x41A00000
/-- `F_HI_MAX = 20000.0` (R33). -/
def fHiMax : F32 := 0x469C4000
/-- `ALPHA = 0.6`, the binary32 number nearest it (R33, G3). -/
def alpha : F32 := 0x3F19999A
/-- `GAIN = 0.2` (R33, G3). -/
def gain : F32 := 0x3E4CCCCD
/-- `LIN_SCALE = 0.8` (R33, G3). -/
def linScale : F32 := 0x3F4CCCCD
/-- `DB_WINDOW = 60.0` (R33). -/
def dbWindow : F32 := 0x42700000

/-- `FFT_SCALE`, default 1 (R183, D10). -/
def fftScale : F32 := 0x3F800000

/-- `SMOOTH_INIT`, default 0 (R30, D12). -/
def smoothInit : F32 := 0x00000000

/-- The tie rule of `round` (R201, D11). -/
inductive RoundTie
  | away
  | even
  deriving DecidableEq, Repr

/-- `ROUND_TIE`, default away from zero (R201, D11). -/
def roundTie : RoundTie := .away

/-! ## Free values (no body: nothing evaluates them and nothing can be proved of the value) -/

/-! ### The schedule and the samples -/

/-- Which party moves when none is scheduled, one per draw (R36, U11; log 2). -/
opaque freeMove : Nat → Move

/-- The value a NaN or infinite `F32` sample is converted to, one per draw (R153 b, U3; log 7). -/
opaque freeSample : Nat → F32

/-- The same where the values are real numbers (R153 b, U3; log 7). -/
noncomputable opaque freeReal : Nat → ℝ

/-! ### The arithmetic -/

/-- The operations whose result is free where binary32 has no number for it. -/
inductive NumOp
  | add
  | mul
  | div
  | sqrt
  | log10
  | ln
  deriving DecidableEq, Repr

/-- What an operation gives of operands one of which is a NaN, and of the operand pairs binary32 calls invalid (`∞ − ∞`,
`0·∞`, `0/0`, `∞/∞`, the root and the logarithms of a negative number): any value, a NaN or not (U3, D29; log 6). -/
opaque nanValue : NumOp → F32 → F32 → F32

/-- `lt` of two operands one of which is a NaN (U3, D29; log 6). -/
opaque nanLt : F32 → F32 → Bool

/-- `max` of two operands one of which is a NaN (D29; log 6). -/
opaque nanMax : F32 → F32 → F32

/-- `min` of two operands one of which is a NaN (D29; log 6). -/
opaque nanMin : F32 → F32 → F32

/-- What crosses port CON in place of a NaN or an infinity while every sample taken has met R153: the image, without sign, of a
finite value. One per count of draws and place among the words sent (R107; log 27). -/
opaque outgoing : Nat → Nat → Fin 0x7F800000

/-- The two representations of a band's level (R224). -/
inductive Representation
  | db
  | linear
  deriving DecidableEq, Repr

/-- The new level of a band where the arithmetic gives a NaN, although no sample of the window is one: the image of a value
in [0, 1] (R227, R38 d, D29; log 20). -/
opaque outBand : List F32 → Nat → Representation → Fin (0x3F800000 + 1)

/-- `round` of a value that is not finite (R201; log 6). -/
opaque nanRound : F32 → Int

/-- What the arithmetic answers for `cos`, which no step evaluates: `WINDOW` is a table (R17, R180, U1; log 11). -/
opaque cosValue : F32 → F32

/-- How far below −3 the arithmetic of the reals puts the logarithm of a number that has none (R17 d, R207, G9; log 26). -/
opaque logFloor : Nat

/-- What the arithmetic answers for `log10` (R17, U1; log 8). -/
opaque log10Value : F32 → F32

/-- How far from the real logarithm that answer may lie, in units of 2^−24: a number nobody knows (R17; log 8). -/
opaque log10Accuracy : Nat

/-- What the transform answers for the real part of bin `k` (R17, R183, U1; log 9). -/
opaque dftReValue : List F32 → Nat → F32

/-- What the transform answers for the imaginary part of bin `k` (R17, R183, U1; log 9). -/
opaque dftImValue : List F32 → Nat → F32

/-- How far from the exact sum a bin may lie, in units of 2^−24 of the sum of the input's magnitudes: a number nobody
knows (R17, R183; log 9). -/
opaque dftAccuracy : Nat

end Sys2Proof.Config

namespace Sys2Proof

/-! ## The parameters -/

/-- `NUM`, the arithmetic performed: every field a total function of its operands (R17 b). -/
structure Num (α : Type) where
  add   : α → α → α
  sub   : α → α → α
  mul   : α → α → α
  div   : α → α → α
  sqrt  : α → α
  abs   : α → α
  max   : α → α → α
  min   : α → α → α
  lt    : α → α → Bool
  log10 : α → α
  ln    : α → α
  cos   : α → α
  ofInt : Int → α
  /-- The sums of R183 of `F` samples for the `F/2 + 1` bins, real and imaginary part, before `FFT_SCALE`. -/
  dft   : List α → List (α × α)

/-- What the data path takes as arguments (R9, R13): the sizes, the arithmetic, `round` under a tie rule (R201, the one
conversion from a value to an integer), the tables and the constants as values of that arithmetic, and what crosses a port. -/
structure DataPath (α : Type) where
  /-- `F` (R9). `H = F/2` and `NBINS = F/2 + 1` follow it (R10, U13). -/
  fftSize    : Nat
  /-- `B` (R9). -/
  bands      : Nat
  num        : Num α
  /-- `round` (R201). -/
  round      : Config.RoundTie → α → Int
  /-- `ROUND_TIE` (R201). -/
  roundTie   : Config.RoundTie
  /-- `CONV` of a raw sample's word under an encoding (R141); the last argument is the value used where the spec gives
  none (log 7, log 19). -/
  conv       : BitVec 8 → Word → α → α
  /-- That value, one per draw. -/
  freeSample : Nat → α
  /-- `WINDOW`, the `F` coefficients (R180). -/
  window     : List α
  /-- `FFT_SCALE` (R183). -/
  fftScale   : α
  /-- `SMOOTH_INIT` (R30). -/
  smoothInit : α
  /-- `F_LO` (R9). -/
  fLo        : α
  /-- `F_HI_MAX` (R9). -/
  fHiMax     : α
  /-- `ALPHA` (R9). -/
  alpha      : α
  /-- `GAIN` (R9). -/
  gain       : α
  /-- `LIN_SCALE` (R9). -/
  linScale   : α
  /-- `DB_WINDOW` (R9). -/
  dbWindow   : α
  /-- What becomes of the new level computed for a band from a window with these samples (R227; log 20). -/
  outBand    : List α → Nat → Config.Representation → α → α
  /-- The binary32 image of a value that crosses a port (R17 a, R107). -/
  image      : α → F32

/-- What a step of the machine takes as arguments (R9, R11, R13, R36): a data path, the smallest sample rate `CFG` accepts, and
the capacities of the three FIFOs, in messages. -/
structure Params (α : Type := F32) where
  data     : DataPath α
  /-- The smallest sample rate for which `F_HI > F_LO` (R123 c), an argument of its own (log 12). -/
  minRate  : Nat
  capLevel : Nat
  capFrame : Nat
  capSpec  : Nat

namespace DataPath

variable {α : Type} (d : DataPath α)

/-- `H = F/2`, samples removed after each analysis step (R9, U13). -/
def hop : Nat := d.fftSize / 2

/-- `NBINS = F/2 + 1` (R10). -/
def nbins : Nat := d.fftSize / 2 + 1

/-- `RB_CAP = F − 1 + NMAX`, the largest length the ring can reach (R12, R178). -/
def ringCap : Nat := d.fftSize - 1 + Config.nmax

end DataPath

end Sys2Proof
end

