-- ==== Sys2Proof/Machine/Num.lean ====
section
/-! DEFINITION. The arithmetic `NUM` at its default `NUM_F32` (R17): each elementary operation in binary32 with
round-to-nearest-even, computed exactly over integers and rounded once. A finite value is an integer number of quanta,
one quantum being 2^−149. A result beyond binary32 is an infinity; the result of an operation on a NaN, or of one binary32 has
no number for, is a free value (log 6). -/

namespace Sys2Proof.NumF32

/-! ## Reading an image (R107) -/

/-- Bit 31. -/
def sign (a : F32) : Bool := a.getLsbD 31
/-- Bits 30:23. -/
def expo (a : F32) : Nat := (a.extractLsb' 23 8).toNat
/-- Bits 22:0. -/
def frac (a : F32) : Nat := (a.extractLsb' 0 23).toNat

/-- Exponent all ones, fraction not 0. -/
def isNaN (a : F32) : Bool := expo a == 255 && frac a != 0
/-- Exponent all ones, fraction 0. -/
def isInf (a : F32) : Bool := expo a == 255 && frac a == 0
/-- Neither a NaN nor an infinity. -/
def isFinite (a : F32) : Bool := expo a != 255

/-- One in quanta. -/
abbrev one : Nat := 2 ^ 149

/-- The magnitude of a finite value, in quanta. -/
def mag (a : F32) : Nat :=
  if expo a = 0 then frac a else (2 ^ 23 + frac a) * 2 ^ (expo a - 1)

/-- A finite value in quanta. -/
def toInt (a : F32) : Int := if sign a then -(mag a : Int) else mag a

/-- A finite value is zero, of either sign. -/
def isZero (a : F32) : Bool := isFinite a && mag a == 0

/-! ## Rounding -/

/-- The integer nearest `num / den`, ties to even. -/
def roundEven (num den : Nat) : Nat :=
  let q := num / den
  let r := 2 * (num % den)
  if r < den then q else if den < r then q + 1 else q + q % 2

/-- The image without sign of an infinity, the first that no finite value has. -/
abbrev infImage : Nat := 0x7F800000

/-- The image, without sign, of the binary32 number nearest `num / den` quanta, ties to even; `infImage` from 2^128 on. -/
def roundMag (num den : Nat) : Nat :=
  let k := Nat.log2 (num / den) - 23
  min (k * 2 ^ 23 + roundEven num (den * 2 ^ k)) infImage

/-- An image from a sign and an unsigned image. -/
def pack (neg : Bool) (m : Nat) : F32 := BitVec.ofNat 32 (if neg then 2 ^ 31 + m else m)

/-- Infinity. -/
def inf (neg : Bool) : F32 := pack neg infImage

/-- The binary32 number nearest `± num / den`. -/
def ofRat (neg : Bool) (num den : Nat) : F32 := pack neg (roundMag (num * one) den)

/-! ## The elementary operations (R17 b, c) -/

/-- `NUM.ofInt`. -/
def ofInt (z : Int) : F32 := pack (decide (z < 0)) (roundMag (z.natAbs * one) 1)

/-- `NUM.ofInt` of a natural number. -/
abbrev ofNat (n : Nat) : F32 := ofInt n

/-- `NUM.abs`: exact. -/
def abs (a : F32) : F32 := a &&& 0x7FFFFFFF#32

/-- Negation, which `sub` needs. -/
def neg (a : F32) : F32 := a ^^^ 0x80000000#32

/-- `NUM.add`. -/
def add (a b : F32) : F32 :=
  if isNaN a || isNaN b then Config.nanValue .add a b
  else if isInf a then (if isInf b && sign a != sign b then Config.nanValue .add a b else a)
  else if isInf b then b
  else
    let z := toInt a + toInt b
    if z = 0 then pack (sign a && sign b) 0
    else pack (decide (z < 0)) (roundMag z.natAbs 1)

/-- `NUM.sub`. -/
def sub (a b : F32) : F32 := add a (neg b)

/-- `NUM.mul`. -/
def mul (a b : F32) : F32 :=
  let s := sign a != sign b
  if isNaN a || isNaN b then Config.nanValue .mul a b
  else if isInf a || isInf b then (if isZero a || isZero b then Config.nanValue .mul a b else inf s)
  else pack s (roundMag (mag a * mag b) one)

/-- `NUM.div`. -/
def div (a b : F32) : F32 :=
  let s := sign a != sign b
  if isNaN a || isNaN b then Config.nanValue .div a b
  else if isInf a then (if isInf b then Config.nanValue .div a b else inf s)
  else if isInf b then pack s 0
  else if isZero b then (if isZero a then Config.nanValue .div a b else inf s)
  else pack s (roundMag (mag a * one) (mag b))

/-- The integer square root by its binary digits, `bits` of them above the found part `r`. -/
def isqrtFrom (n : Nat) : Nat → Nat → Nat
  | 0, r => r
  | bits + 1, r => isqrtFrom n bits (if (r + 2 ^ bits) ^ 2 ≤ n then r + 2 ^ bits else r)

/-- `NUM.sqrt`: the integer root of the operand scaled by 2^298, with a sticky unit when it is not exact, rounded once. -/
def sqrt (a : F32) : F32 :=
  if isNaN a then Config.nanValue .sqrt a a
  else if isZero a then a
  else if sign a then Config.nanValue .sqrt a a
  else if isInf a then a
  else
    let n := mag a * one * 2 ^ 2
    let r := isqrtFrom n 215 0
    pack false (roundMag (2 * r + (if r * r = n then 0 else 1)) (2 ^ 2))

/-- A value's place in the order, an infinity standing beyond every finite value. -/
def rank (a : F32) : Int := if isInf a then (if sign a then -2 ^ 300 else 2 ^ 300) else toInt a

/-- `NUM.lt`: exact; of a NaN, free (D29). -/
def lt (a b : F32) : Bool := if isNaN a || isNaN b then Config.nanLt a b else decide (rank a < rank b)

/-- `NUM.max`: exact; of a NaN, free (D29). -/
def max (a b : F32) : F32 := if isNaN a || isNaN b then Config.nanMax a b else if lt a b then b else a

/-- `NUM.min`: exact; of a NaN, free (D29). -/
def min (a b : F32) : F32 := if isNaN a || isNaN b then Config.nanMin a b else if lt b a then b else a

/-! ## `round` (R201) -/

/-- The integer nearest a finite value, an exact half going as the tie rule says; free of any other value (log 6). -/
def round (tie : Config.RoundTie) (a : F32) : Int :=
  if isFinite a then
    let n : Nat :=
      match tie with
      | .away => (2 * mag a + one) / (2 * one)
      | .even => roundEven (mag a) one
    if sign a then -(n : Int) else n
  else Config.nanRound a

/-! ## The range of a band's level (R227; log 20) -/

/-- A value in [0, 1]: neither a NaN nor an infinity, between 0 and 1 inclusive. -/
def inUnit (a : F32) : Bool := isFinite a && decide (0 ≤ toInt a) && decide (toInt a ≤ one)

/-- The new level of a band: the value computed; where that is outside [0, 1], although no sample of the window is a NaN, a
free value in [0, 1]. -/
def outBand (x : List F32) (b : Nat) (which : Config.Representation) (v : F32) : F32 :=
  if inUnit v || x.any isNaN then v else pack false (Config.outBand x b which)

end Sys2Proof.NumF32
end

