-- ==== Sys2Proof/Machine/Conv.lean ====
section
/-! DEFINITION. The default `CONV`: the value of a raw sample's payload word (R96, R141, R153). -/

namespace Sys2Proof.Machine

/-- `z / 32768` exactly (R141). -/
def sampleOfInt (z : Int) : F32 := NumF32.ofRat (decide (z < 0)) z.natAbs 32768

/-- `CONV`: the value a payload word stands for under an encoding (R96, R141). `free` is the value used where the spec gives
none: a NaN or infinite `F32` word (R153 b), and an encoding that no configured state holds (log 7, log 19). -/
def conv (enc : BitVec 8) (w : Word) (free : F32) : F32 :=
  if enc = 0 then (if NumF32.isFinite w then w else free)
  else if enc = 1 then sampleOfInt (w.extractLsb' 0 16).toInt
  else if enc = 2 then sampleOfInt ((w.extractLsb' 0 16).toNat - 32768 : Int)
  else free

end Sys2Proof.Machine
end

