-- ==== Sys2Proof/Machine/Reference.lean ====
section
/-! DEFINITION. The transcendental fields of `NUM_F32`: `ln` for the band map, `log10`, `dft` and `cos`, and the table
`WINDOW` (R17, R180). Each is computed over integers, in fixed point with 160 fraction bits, and rounded once; where the spec
leaves the accuracy open (`log10`, `dft`, `cos`) the answer is a free value about what is computed. The band map is also computed
exactly, with integers only: what the reference semantics (R16) gives. -/

namespace Sys2Proof.NumF32

/-! ## Fixed point -/

/-- One in fixed point: 160 fraction bits. -/
abbrev fix : Nat := 2 ^ 160

/-- π in fixed point, rounded down. -/
def piFix : Nat := 0x3243f6a8885a308d313198a2e03707344a4093822

/-- The terms `θ^(2k)/(2k)!` of the cosine series from index `k` on, the next one being `t`, summed with alternating signs
into `even` and `odd`. -/
def cosSeries (sq : Nat) : Nat → Nat → Nat → Nat → Nat → Int
  | 0, _, _, even, odd => (even : Int) - odd
  | fuel + 1, k, t, even, odd =>
    cosSeries sq fuel (k + 1) (t * sq / fix / ((2 * k + 1) * (2 * k + 2)))
      (if k % 2 = 0 then even + t else even) (if k % 2 = 0 then odd else odd + t)

/-- `cos(2π·p/q)` in fixed point. -/
def cosTurn (p q : Nat) : Int :=
  let angle := 2 * piFix * (p % q) / q
  cosSeries (angle * angle / fix) 45 0 fix 0 0

/-- The terms `z^(2k+1)/(2k+1)` of the inverse hyperbolic tangent's series, `p` being `z^(2k+1)`, summed into `acc`. -/
def atanhSeries (sq : Nat) : Nat → Nat → Nat → Nat → Nat
  | 0, _, _, acc => acc
  | fuel + 1, k, p, acc => atanhSeries sq fuel (k + 1) (p * sq / fix) (acc + p / (2 * k + 1))

/-- `ln(a/b)` in fixed point for `b ≤ a ≤ 2·b`: twice the inverse hyperbolic tangent of `(a−b)/(a+b)`. -/
def lnRatio (a b : Nat) : Nat :=
  let z := (a - b) * fix / (a + b)
  2 * atanhSeries (z * z / fix) 60 0 z 0

/-- `ln 2` in fixed point. -/
def ln2 : Nat := lnRatio 2 1
/-- `ln 10 = 3·ln 2 + ln(5/4)` in fixed point. -/
def ln10 : Nat := 3 * ln2 + lnRatio 5 4

/-! ## `cos`: the Hann window (R180) -/

/-- `WINDOW[n] = 0.5·(1 − cos(2πn/(F−1)))`, the binary32 number nearest the real value (R180, D9): the cosine is taken at the
smaller of the two angles that have the same one, and `1 − cos` is at most 2. -/
def hann (fftSize n : Nat) : F32 :=
  let last := fftSize - 1
  let c := cosTurn (Nat.min n (last - n)) last
  pack false (roundMag (Nat.min ((fix : Int) - c).toNat (2 * fix) * one) (2 * fix))

/-- `WINDOW`, the table of `F` coefficients (R27, R180). -/
def window (fftSize : Nat) : List F32 := (List.range fftSize).map (hann fftSize)

/-! ## `ln` (R200) -/

/-- The natural logarithm of a finite positive value, in fixed point. -/
def lnRef (a : F32) : Int :=
  let m := mag a
  let e := Nat.log2 m
  (lnRatio m (2 ^ e) : Int) + ((e : Int) - 149) * ln2

/-- The binary32 number nearest a number in fixed point. -/
def ofFix (z : Int) : F32 := pack (decide (z < 0)) (roundMag z.natAbs (2 ^ 11))

/-- `NUM.ln`: rounded once (log 10); −∞ of 0, +∞ of +∞, free of a negative value or a NaN (log 6). -/
def ln (a : F32) : F32 :=
  if isNaN a then Config.nanValue .ln a a
  else if isZero a then inf true
  else if sign a then Config.nanValue .ln a a
  else if isInf a then a
  else ofFix (lnRef a)

/-! ## `cos` -/

/-- `NUM.cos`: no step evaluates it, since `WINDOW` is a table built into the block (R180), and its accuracy is open (R17). -/
def cos (a : F32) : F32 := Config.cosValue a

/-! ## The band map of the reference semantics, exactly (R16, R200, R201) -/

/-- Whether `t·(B−1)` reaches `k − 1/2` so that `round` answers at least `k`, where `t = ln(a/d)/ln(c/e)`, `c > e`: by
`(a/d)^(2(B−1)) ≥ (c/e)^(2k−1)`, cleared of denominators. An exact half goes as the tie rule says (R201). -/
def reaches (a d c e k : Nat) : Bool :=
  let lhs := a ^ (2 * (Config.bands - 1)) * e ^ (2 * k - 1)
  let rhs := c ^ (2 * k - 1) * d ^ (2 * (Config.bands - 1))
  decide (rhs < lhs) || (lhs == rhs && (Config.roundTie == .away || k % 2 == 0))

/-- `clamp(round(clamp(ln(a/d)/ln(c/e), 0, 1)·(B−1)), 0, B−1)`: how many of the bands 1 to `B−1` are reached. -/
def bandOfRatio (a d c e : Nat) : Nat :=
  ((List.range (Config.bands - 1)).filter fun j => reaches a d c e (j + 1)).length

/-- `F_HI = min(rate/2, F_HI_MAX)` as twice its value in hertz (R125). -/
def twiceFHi (rate : Nat) : Nat := Nat.min rate (2 * Config.fHiMaxHz)

/-- `band_of_bin(i)` of the reference semantics (R200): the frequency `max(i·rate/F, F_LO)` over `F_LO` is `max(i·rate, F·F_LO)/(F·F_LO)`. -/
def bandOfBin (rate i : Nat) : Nat :=
  bandOfRatio (Nat.max (i * rate) (Config.fftSize * Config.fLoHz)) (Config.fftSize * Config.fLoHz)
    (twiceFHi rate) (2 * Config.fLoHz)

/-- `band_of_freq(f0)` of the reference semantics for `f0 = num/den` hertz (R209). -/
def bandOfFreq (rate num den : Nat) : Nat :=
  bandOfRatio (Nat.max num (Config.fLoHz * den)) (Config.fLoHz * den) (twiceFHi rate) (2 * Config.fLoHz)

/-! ## `log10` (R206) -/

/-- `log10` of a finite positive value, in fixed point. -/
def log10Ref (a : F32) : Int := lnRef a * fix / ln10

/-- What the arithmetic may answer for `log10 a`: a finite value within the open accuracy of the logarithm. -/
def log10Admits (a v : F32) : Bool :=
  isFinite v && decide ((toInt v * 2 ^ 11 - log10Ref a).natAbs ≤ Config.log10Accuracy * 2 ^ 136)

/-- `log10` of a finite positive value: free within the open accuracy, else the binary32 number nearest the logarithm. -/
def log10Answer (a : F32) : F32 :=
  if log10Admits a (Config.log10Value a) then Config.log10Value a
  else ofFix (log10Ref a)

/-- −3.0 as a binary32 image. -/
def minusThree : F32 := 0xC0400000

/-- At most −3, as a finite value. -/
def atMostMinusThree (v : F32) : Bool := isFinite v && decide (toInt v ≤ toInt minusThree)

/-- `NUM.log10`: the arithmetic's answer, which is at most −3 where `a ≤ 0.001` (property `P_DBFLOOR` of R18); −∞ of 0 (G9), +∞
of +∞, free of a negative value or a NaN (log 6, log 8). -/
def log10 (a : F32) : F32 :=
  if isNaN a then Config.nanValue .log10 a a
  else if isZero a then inf true
  else if sign a then Config.nanValue .log10 a a
  else if isInf a then a
  else if decide (1000 * mag a ≤ one) && !atMostMinusThree (log10Answer a) then minusThree
  else log10Answer a

/-! ## `dft` (R183) -/

/-- `cos(2π·j/(4·F))` in fixed point, for `j` from 0 to `4·F − 1`. -/
def cosines (f : Nat) : Array Int := ((List.range (4 * f)).map fun j => cosTurn j (4 * f)).toArray

/-- `Σ XW[n]·cos(2π(k·n/F + quarter/4))` from index `n` on, in quanta times fixed point, by the table of the cosines. One
quarter turn gives `−sin`. -/
def dftSum (table : Array Int) (f k quarter : Nat) : Nat → List F32 → Int
  | _, [] => 0
  | n, x :: rest =>
    toInt x * table.getD ((4 * k * n + quarter * f) % (4 * f)) 0 + dftSum table f k quarter (n + 1) rest

/-- The sum of R183 for bin `k`, with `F` the number of samples. -/
def dftExact (xw : List F32) (k quarter : Nat) : Int := dftSum (cosines xw.length) xw.length k quarter 0 xw

/-- The sum of the magnitudes of the input, in quanta. -/
def dftNorm (xw : List F32) : Nat := (xw.map mag).sum

/-- No bound can be put on a transform's answer for finite inputs: its partial sums may pass the range of binary32. -/
def dftUnbounded (xw : List F32) : Bool := decide (2 ^ 276 ≤ dftNorm xw)

/-- What the arithmetic may answer for one component of a bin, `ref` being the exact sum: anything where an input is not
finite or no bound applies, else a finite value within the open accuracy of the sum. -/
def dftAdmits (xw : List F32) (ref : Int) (v : F32) : Bool :=
  !xw.all isFinite || dftUnbounded xw
    || (isFinite v && decide ((toInt v * (fix : Nat) - ref).natAbs * 2 ^ 24 ≤ Config.dftAccuracy * dftNorm xw * fix))

/-- One component of a bin: the arithmetic's own answer `v` when it may give that, else the binary32 number nearest the exact
sum (log 9). -/
def dftPart (xw : List F32) (ref : Int) (v : F32) : F32 :=
  if dftAdmits xw ref v then v else pack (decide (ref < 0)) (roundMag ref.natAbs fix)

/-- `NUM.dft`: the bins 0 to `F/2` of `F` samples, all zero for an all-zero input (property `P_ZERO` of R18). -/
def dft (xw : List F32) : List (F32 × F32) :=
  if xw.all isZero then List.replicate (xw.length / 2 + 1) (ofInt 0, ofInt 0)
  else
    let table := cosines xw.length
    (List.range (xw.length / 2 + 1)).map fun k =>
      (dftPart xw (dftSum table xw.length k 0 0 xw) (Config.dftReValue xw k),
       dftPart xw (dftSum table xw.length k 1 0 xw) (Config.dftImValue xw k))

end Sys2Proof.NumF32
end

