-- ==== Sys2Proof/Machine/Defaults.lean ====
section
/-! DEFINITION. The default instances of the parameters: `NUM_F32` (R17 c), the data path over it, and what the machine runs
with (R9, R11, R13). -/

namespace Sys2Proof

/-- `NUM_F32` (R17 c; log 5). -/
def numF32 : Num F32 where
  add   := NumF32.add
  sub   := NumF32.sub
  mul   := NumF32.mul
  div   := NumF32.div
  sqrt  := NumF32.sqrt
  abs   := NumF32.abs
  max   := NumF32.max
  min   := NumF32.min
  lt    := NumF32.lt
  log10 := NumF32.log10
  ln    := NumF32.ln
  cos   := NumF32.cos
  ofInt := NumF32.ofInt
  dft   := NumF32.dft

/-- The default data path: `NUM_F32` and the defaults of R9 and R13. -/
def dataF32 : DataPath F32 where
  fftSize    := Config.fftSize
  bands      := Config.bands
  num        := numF32
  round      := NumF32.round
  roundTie   := Config.roundTie
  conv       := Machine.conv
  freeSample := Config.freeSample
  window     := NumF32.window Config.fftSize
  fftScale   := Config.fftScale
  smoothInit := Config.smoothInit
  fLo        := Config.fLo
  fHiMax     := Config.fHiMax
  alpha      := Config.alpha
  gain       := Config.gain
  linScale   := Config.linScale
  dbWindow   := Config.dbWindow
  outBand    := NumF32.outBand
  image      := fun v => v

/-- The defaults of all parameters (R9, R11, R13). -/
def Params.default : Params where
  data     := dataF32
  minRate  := Config.minRate
  capLevel := Config.capLevel
  capFrame := Config.capFrame
  capSpec  := Config.capSpec

end Sys2Proof
end

