-- ==== Sys2Proof/WellFormed.lean ====
section
/-! DEFINITION. Which terms of `Instr` a header word can carry: every operand fits its field (R88, R90, R98). -/

namespace Sys2Proof

/-- Every operand fits the field of its header (R88: 16 and 8 bits; R90: 24 bits; R98: 8 bits). -/
def Instr.wellFormed : Instr → Bool
  | .cfg channels enc => decide (channels < 2 ^ 16) && decide (enc < 2 ^ 8)
  | .batch n => decide (n < 2 ^ 24)
  | .close => true
  | .lvlPop => true
  | .lvlLatest => true
  | .spcPop => true
  | .spcLatest => true
  | .rdreg r => decide (r < 2 ^ 8)

end Sys2Proof
end

