-- ==== Sys2Proof/Decode.lean ====
section
/-! DEFINITION. The decoder, total on every word and every byte sequence, and the encoder, both from the opcode map of R87. -/

namespace Sys2Proof

/-! ## Ports and payload lengths (R87, R104, R108) -/

/-- The port a command is legal on (R87, R108). -/
def Instr.port : Instr → Port
  | .cfg _ _ => .src
  | .batch _ => .src
  | .close => .src
  | .lvlPop => .con
  | .lvlLatest => .con
  | .spcPop => .con
  | .spcLatest => .con
  | .rdreg _ => .con

/-- The payload words that follow the header, which the header alone decides (R87, R104). -/
def Instr.payloadWords : Instr → Nat
  | .cfg _ _ => 1
  | .batch n => n
  | .close => 0
  | .lvlPop => 0
  | .lvlLatest => 0
  | .spcPop => 0
  | .spcLatest => 0
  | .rdreg _ => 0

/-! ## Decoding -/

/-- The field `w[lo+len−1 : lo]` read as an unsigned integer (R14). -/
def field (w : Word) (lo len : Nat) : Nat := (w.extractLsb' lo len).toNat

/-- A command without operand: `a` must be 0 (R92). -/
def bareCommand (w : Word) (i : Instr) : Except Illegal Instr :=
  if field w 0 24 = 0 then .ok i else .error .reservedOperand

/-- The command a header word stands for, whatever port it arrived on (R87, R102 a to c). -/
def decodeHeader (w : Word) : Except Illegal Instr :=
  match field w 24 8 with
  | 0x01 => .ok (.cfg (field w 8 16) (field w 0 8))
  | 0x02 => .ok (.batch (field w 0 24))
  | 0x03 => bareCommand w .close
  | 0x10 => bareCommand w .lvlPop
  | 0x11 => bareCommand w .lvlLatest
  | 0x12 => bareCommand w .spcPop
  | 0x13 => bareCommand w .spcLatest
  | 0x18 => if field w 8 16 = 0 then .ok (.rdreg (field w 0 8)) else .error .reservedOperand
  | _ => .error .unassignedOpcode

/-- The decoder: it reads nothing but the header word and its port (R109), and a legal header on the wrong port is illegal
(R102 d, R108). -/
def decode (p : Port) (w : Word) : Except Illegal Instr :=
  match decodeHeader w with
  | .error e => .error e
  | .ok i => if i.port = p then .ok i else .error .wrongPort

/-- A word as the transport carries it, least significant byte first (R62). -/
def bytesOfWord (w : Word) : List Byte :=
  [w.extractLsb' 0 8, w.extractLsb' 8 8, w.extractLsb' 16 8, w.extractLsb' 24 8]

/-- The word four bytes carry, least significant byte first (R62). -/
def wordOfBytes (b0 b1 b2 b3 : Byte) : Word := b3 ++ b2 ++ b1 ++ b0

/-- The decoder over bytes: the header's command and the bytes after it. -/
def decodeBytes (p : Port) : List Byte → Except Illegal (Instr × List Byte)
  | b0 :: b1 :: b2 :: b3 :: rest =>
    match decode p (wordOfBytes b0 b1 b2 b3) with
    | .ok i => .ok (i, rest)
    | .error e => .error e
  | _ => .error .truncated

/-! ## Encoding -/

/-- A format H header (R86). -/
def header (op a : Nat) : Word := BitVec.ofNat 32 (op * 2 ^ 24 + a)

/-- The header word of a command (R87). -/
def encode : Instr → Word
  | .cfg channels enc => header 0x01 (channels * 2 ^ 8 + enc)
  | .batch n => header 0x02 n
  | .close => header 0x03 0
  | .lvlPop => header 0x10 0
  | .lvlLatest => header 0x11 0
  | .spcPop => header 0x12 0
  | .spcLatest => header 0x13 0
  | .rdreg r => header 0x18 r

/-- The match column of R87's map, for the row of a command. -/
def Instr.rowMatch : Instr → Word
  | .cfg _ _ => 0x01000000
  | .batch _ => 0x02000000
  | .close => 0x03000000
  | .lvlPop => 0x10000000
  | .lvlLatest => 0x11000000
  | .spcPop => 0x12000000
  | .spcLatest => 0x13000000
  | .rdreg _ => 0x18000000

/-- The mask column of R87's map, for the row of a command. -/
def Instr.rowMask : Instr → Word
  | .cfg _ _ => 0xFF000000
  | .batch _ => 0xFF000000
  | .close => 0xFFFFFFFF
  | .lvlPop => 0xFFFFFFFF
  | .lvlLatest => 0xFFFFFFFF
  | .spcPop => 0xFFFFFFFF
  | .spcLatest => 0xFFFFFFFF
  | .rdreg _ => 0xFFFFFF00

/-! ## Pseudo-commands (R106): the words they expand to -/

/-- `silence k` under an encoding: a batch of `k` raw samples that all convert to 0. -/
def silenceWords (enc k : Nat) : List Word :=
  encode (.batch k) :: List.replicate k (if enc = 2 then 0x00008000 else 0x00000000)

/-- `poll`: the consumer's render tick. -/
def pollWords : List Word := [encode .lvlLatest, encode .spcLatest]

/-- `drain.lvl` of a level FIFO that holds `queued` messages: pops until a response is not valid. -/
def drainLvlWords (queued : Nat) : List Word := List.replicate (queued + 1) (encode .lvlPop)

/-- `drain.spc` of a spectrum FIFO that holds `queued` messages. -/
def drainSpcWords (queued : Nat) : List Word := List.replicate (queued + 1) (encode .spcPop)

/-! ## Words numbered as the opcode table numbers them -/

/-- The header word of a table word: its lowest 32 bits, bits from `nbits` up being 0. -/
def tableHeader (nbits w : Nat) : Word := BitVec.ofNat 32 (w % 2 ^ nbits)

/-- The next `count` words of a number, lowest first. -/
def wordsOfNat : Nat → Nat → List Word
  | 0, _ => []
  | count + 1, w => BitVec.ofNat 32 w :: wordsOfNat count (w >>> 32)

/-- The payload of a table word: the bits after its header word, as many words as the header asks for. -/
def tablePayload (nbits w count : Nat) : List Word := wordsOfNat count ((w % 2 ^ nbits) >>> 32)

/-- The command the decoder reads from a table word laid out in bytes, on the port that accepts it. -/
def decodeTableWord (nbits w : Nat) : Option Instr :=
  match decodeBytes .src (bytesOfWord (tableHeader nbits w)) with
  | .ok (i, _) => some i
  | .error _ =>
    match decodeBytes .con (bytesOfWord (tableHeader nbits w)) with
    | .ok (i, _) => some i
    | .error _ => none

end Sys2Proof
end

