-- ==== Sys2Proof/Machine/State.lean ====
section
/-! DEFINITION. The state of Selara SFE as plain data (R20, R31, R34), the exceptions (R256), the reasons a step could stop,
and the state after reset (R37). -/

namespace Sys2Proof.Machine

/-- `CAP.phase` (R24). -/
inductive CapPhase
  | ready
  | pubLevel
  | pubFrame
  deriving DecidableEq, Repr

/-- `ANA.phase` (R23). -/
inductive AnaPhase
  | idle
  | wait
  | loop
  | exited
  | aborted
  deriving DecidableEq, Repr

/-- What port SRC expects next (R34): a header; the payload of the command it holds; or payload words of a refused command,
which it discards as they arrive (R103). -/
inductive SrcRx
  | header
  | held (i : Instr)
  | discard (n : Nat)
  deriving DecidableEq, Repr

/-- A LevelSnapshot (R25, R31). -/
structure Level (α : Type := F32) where
  rms  : α
  peak : α
  deriving DecidableEq, Repr

/-- A SpectrumSnapshot: two arrays of `B` values (R31, R224). -/
structure Snapshot (α : Type := F32) where
  bands       : List α
  bandsLinear : List α
  deriving DecidableEq, Repr

/-- The exceptions of R256. -/
inductive Exc
  | cfgUnsupportedEncoding
  | cfgZeroChannels
  | cfgBadSampleRate
  | transformShapeMismatch
  | illegalCommand
  deriving DecidableEq, Repr

/-- The complete state: the tuple of R20, the receive state of port SRC (R34), and the model's own fields (what the two
external parties have sent and received, whether the samples taken were in the spec's domain, the schedule, and the counter free
values are drawn with). The values of the data
path are of the type the arithmetic computes with (R17 b): binary32 images where none is said. -/
structure State (α : Type := F32) where
  /-- `STATUS` (R32). -/
  status     : BitVec 32
  /-- `SAMPLE_RATE`, hertz (R21). -/
  sampleRate : BitVec 32
  /-- `CHANNELS` (R21). -/
  channels   : BitVec 16
  /-- `ENCODING` (R21). -/
  encoding   : BitVec 8
  /-- `F_HI` (R22). -/
  fHi        : α
  /-- `CAP.phase` (R24). -/
  capPhase   : CapPhase
  /-- `SUMSQ` (R25). -/
  sumsq      : α
  /-- `PEAK` (R25). -/
  peak       : α
  /-- `NFRAMES` (R25). -/
  nframes    : BitVec 24
  /-- `MONO` (R25). -/
  mono       : List α
  /-- `LEVEL` (R25). -/
  level      : Level α
  /-- `LQ`, oldest first (R31). -/
  lq         : List (Level α)
  /-- `FQ`, oldest first (R31). -/
  fq         : List (List α)
  /-- `SQ`, oldest first (R31). -/
  sq         : List (Snapshot α)
  /-- `ANA.phase` (R23). -/
  anaPhase   : AnaPhase
  /-- `RING`, oldest sample first (R26). -/
  ring       : List α
  /-- `BANDMAP`: `NBINS` entries from 0 to `B − 1` (R28), which the invariant says (`TableInv`). -/
  bandmap    : List Nat
  /-- `SM_DB`: `B` values (R30). -/
  smDb       : List α
  /-- `SM_LIN`: `B` values (R30). -/
  smLin      : List α
  /-- Whether a `BATCH` since reset has carried an `F32` sample that is a NaN or an infinity (model's own; R107, R153 b). -/
  strayed    : Bool
  /-- What port SRC expects (R34). Port CON always expects a header: none of its commands has payload. -/
  srcRx      : SrcRx
  /-- Words the capture source has sent and the block has not taken yet (model's own). -/
  srcIn      : List Word
  /-- Words the consumer has sent and the block has not taken yet (model's own). -/
  conIn      : List Word
  /-- Response words sent on port CON since reset, oldest first (model's own; R99 to R101). -/
  conOut     : List Word
  /-- The moves scheduled next (model's own; R36). -/
  turns      : List Move
  /-- How many free values have been drawn (model's own). -/
  fresh      : Nat
  deriving DecidableEq, Repr

/-- Reasons the machine stops with a fault: none. "The block does not stop" (R262), and the two fatal error kinds stop one
component by its phase, not the machine (R260, R185). -/
inductive Fault
  deriving DecidableEq, Repr

/-- Reasons an instruction has no meaning. -/
inductive Refusal
  /-- Raised by no arm of this model; the dispatch would raise it, by the table's mnemonic, for an instruction without a
  meaning. Safe: it stops. -/
  | notModelled (mnemonic : String)
  deriving DecidableEq, Repr

/-- The state after reset of a block whose arithmetic has this 0, with this `SMOOTH_INIT` and these sizes (R37; the model's
own fields: log 15). -/
def State.initial {α : Type} (zero smoothInit : α) (bands nbins : Nat) : State α where
  status     := 0x00000000
  sampleRate := 0
  channels   := 0
  encoding   := 0
  fHi        := zero
  capPhase   := .ready
  sumsq      := zero
  peak       := zero
  nframes    := 0
  mono       := []
  level      := ⟨zero, zero⟩
  lq         := []
  fq         := []
  sq         := []
  anaPhase   := .idle
  ring       := []
  bandmap    := List.replicate nbins 0
  smDb       := List.replicate bands smoothInit
  smLin      := List.replicate bands smoothInit
  strayed    := false
  srcRx      := .header
  srcIn      := []
  conIn      := []
  conOut     := []
  turns      := []
  fresh      := 0

/-- The state after reset (R37). -/
def State.reset : State := State.initial 0x00000000 Config.smoothInit Config.bands Config.nbins

end Sys2Proof.Machine
end

