-- ==== Sys2Proof/Machine/Flags.lean ====
section
/-! DEFINITION. The fields of `STATUS` (R32). No operation has arithmetic condition codes: these flags are all there are. -/

namespace Sys2Proof.Machine

variable {α : Type}

/-! ## Reading -/

/-- `CFG_OK`, bit 0. -/
def State.cfgOk (s : State α) : Bool := s.status.getLsbD 0
/-- `CFG_ERR`, bit 1. -/
def State.cfgErr (s : State α) : Bool := s.status.getLsbD 1
/-- `CLOSED`, bit 2. -/
def State.closed (s : State α) : Bool := s.status.getLsbD 2
/-- `ANA_EXITED`, bit 3. -/
def State.anaExited (s : State α) : Bool := s.status.getLsbD 3
/-- `ANA_ABORTED`, bit 4. -/
def State.anaAborted (s : State α) : Bool := s.status.getLsbD 4
/-- `ILL`, bit 5. -/
def State.ill (s : State α) : Bool := s.status.getLsbD 5
/-- `ERR_CAUSE`, bits 11:8. -/
def State.errCause (s : State α) : BitVec 4 := s.status.extractLsb' 8 4
/-- The reserved bits 7:6 and 31:12, which read as 0 (U7). -/
def State.statusReserved (s : State α) : BitVec 32 := s.status &&& 0xFFFFF0C0#32

/-! ## Writing: every event sets bits, only reset clears them (R32, R269) -/

/-- Set the bits of a mask in `STATUS`. -/
def State.setStatus (s : State α) (mask : BitVec 32) : State α := { s with status := s.status ||| mask }

/-- The masks of the flags. -/
def cfgOkMask : BitVec 32 := 0x00000001
/-- `CFG_ERR`. -/
def cfgErrMask : BitVec 32 := 0x00000002
/-- `CLOSED`. -/
def closedMask : BitVec 32 := 0x00000004
/-- `ANA_EXITED`. -/
def anaExitedMask : BitVec 32 := 0x00000008
/-- `ANA_ABORTED`. -/
def anaAbortedMask : BitVec 32 := 0x00000010
/-- `ILL`. -/
def illMask : BitVec 32 := 0x00000020

/-- Write `ERR_CAUSE` (R256, R260). -/
def State.writeErrCause (s : State α) (code : BitVec 4) : State α :=
  { s with status := (s.status &&& 0xFFFFF0FF#32) ||| (code.zeroExtend 32 <<< 8) }

end Sys2Proof.Machine
end

