-- ==== Sys2Proof/Machine/Ops.lean ====
section
/-! DEFINITION. The named operations over the storage spaces (R60): the FIFOs (R161 to R164) and the ring (R177, R179, R186);
the exceptions (R256, R260, R261, R262); and the receive side of port SRC (R34, R103, R120). -/

namespace Sys2Proof.Machine

variable {α : Type}

/-! ## FIFOs, oldest message first (R31) -/

/-- `fifo_try_push(Q, m)`: drop the new message when the FIFO is full (R161). -/
def fifoTryPush (cap : Nat) (q : List α) (m : α) : List α :=
  if q.length < cap then q ++ [m] else q

/-- `fifo_try_pop(Q)`: the oldest message, if any, and what is left (R163). -/
def fifoTryPop : List α → Option α × List α
  | [] => (none, [])
  | m :: rest => (some m, rest)

/-- `fifo_take_latest(Q)`: the newest message, if any; the FIFO is left empty (R164). -/
def fifoTakeLatest (q : List α) : Option α × List α := (q.getLast?, [])

/-! ## The ring (R26) -/

/-- `ring_append(s)` (R177). -/
def ringAppend (ring batch : List α) : List α := ring ++ batch

/-- `ring_peek(F)`: the oldest `F` samples, not removed (R179). -/
def ringPeek (fftSize : Nat) (ring : List α) : List α := ring.take fftSize

/-- `ring_drop(H)` (R186). -/
def ringDrop (hop : Nat) (ring : List α) : List α := ring.drop hop

/-- The loop test "while the ring holds at least `F`" (R187). -/
def loopTest (fftSize : Nat) (ring : List α) : AnaPhase := if fftSize ≤ ring.length then .loop else .wait

/-! ## Exceptions: entry (R256, R260, R261, R262, R268). There is no return (R269). -/

/-- The effect of raising an exception: a configuration error sets `CFG_ERR` and writes its code (R260); the transform
mismatch aborts the analyzer (R185); an illegal command sets `ILL` (R262). Nothing else changes. -/
def raise : Exc → State α → State α
  | .cfgUnsupportedEncoding, s => (s.setStatus cfgErrMask).writeErrCause 1
  | .cfgZeroChannels, s => (s.setStatus cfgErrMask).writeErrCause 2
  | .cfgBadSampleRate, s => (s.setStatus cfgErrMask).writeErrCause 3
  | .transformShapeMismatch, s => { s.setStatus anaAbortedMask with anaPhase := .aborted }
  | .illegalCommand, s => s.setStatus illMask

/-! ## The receive side of port SRC -/

/-- Keep a command whose payload has not all arrived, or that must wait for `CAP.phase = READY` (R34, R120; log 13). -/
def holdCommand (i : Instr) (s : State α) : State α := { s with srcRx := .held i }

/-- Consume and discard `n` payload words: those that have arrived now, the others as they arrive (R103; log 13). -/
def discardPayload (n : Nat) (s : State α) : State α :=
  { s with
    srcIn := s.srcIn.drop n
    srcRx := if n - s.srcIn.length = 0 then .header else .discard (n - s.srcIn.length) }

/-- Run one source command. It waits for `CAP.phase = READY`; refused by state (R120) it raises `IllegalCommand` and its
payload is discarded; otherwise, once its payload is there, `run` gets the payload and the state past it. -/
def runSource (i : Instr) (refused : Bool) (run : List Word → State α → State α) (s : State α) : State α :=
  if s.capPhase ≠ .ready then holdCommand i s
  else if refused then discardPayload i.payloadWords (raise .illegalCommand s)
  else if s.srcIn.length < i.payloadWords then holdCommand i s
  else run (s.srcIn.take i.payloadWords) { s with srcIn := s.srcIn.drop i.payloadWords, srcRx := .header }

/-! ## The response side of port CON -/

/-- Send response words on port CON (R99 to R101). -/
def respond (words : List Word) (s : State α) : State α := { s with conOut := s.conOut ++ words }

end Sys2Proof.Machine
end

