-- ==== Sys2Proof/Machine/Values.lean ====
section
/-! DEFINITION. The values the formulas of the data path share, over any arithmetic (R16). -/

namespace Sys2Proof.DataPath

variable {α : Type} (d : DataPath α)

/-- 0. -/
def zero : α := d.num.ofInt 0

/-- 1. -/
def one : α := d.num.ofInt 1

/-- `clamp(x, 0, 1) = min(max(x, 0), 1)` (R16). -/
def clamp01 (x : α) : α := d.num.min (d.num.max x d.zero) d.one

/-- A sum in the order of its terms, from 0 (R144, R203). -/
def sum (xs : List α) : α := xs.foldl d.num.add d.zero

end Sys2Proof.DataPath
end

