-- ==== Sys2Proof/Machine/Bands.lean ====
section
/-! DEFINITION. The logarithmic band mapper over any arithmetic: the frequency ceiling and the table `CFG` writes (R125, R126,
R200), accumulation by band (R203) and the two levels of a band (R204 to R206). -/

namespace Sys2Proof.Machine

/-- `clamp(b, 0, B − 1)`, the number of a band as an entry of `BANDMAP` (R28, R200). -/
def bandEntry (bands : Nat) (b : Int) : Nat := min b.toNat (bands - 1)

/-- The powers of the bins of band `b`, in ascending bin order (R203). -/
def bandPowers {α : Type} (bandmap : List Nat) (power : List α) (b : Nat) : List α :=
  ((bandmap.zip power).filter fun e => e.1 == b).map Prod.snd

end Sys2Proof.Machine

namespace Sys2Proof.DataPath

variable {α : Type} (d : DataPath α)

/-! ## The band map -/

/-- `F_HI = min(SAMPLE_RATE/2, F_HI_MAX)` (R125). -/
def fHi (rate : Nat) : α := d.num.min (d.num.div (d.num.ofInt rate) (d.num.ofInt 2)) d.fHiMax

/-- `band_of_freq(f0)` under a frequency ceiling (R209): the formula of R200 for `max(f0, F_LO)`. -/
def bandOfFreq (fHi f0 : α) : Nat :=
  let f := d.num.max f0 d.fLo
  let t := d.clamp01 (d.num.div (d.num.ln (d.num.div f d.fLo)) (d.num.ln (d.num.div fHi d.fLo)))
  Machine.bandEntry d.bands (d.round d.roundTie (d.num.mul t (d.num.ofInt (d.bands - 1 : Nat))))

/-- `band_of_bin(i)` (R200): the band of the bin's centre frequency `i·SAMPLE_RATE/F`. -/
def bandOfBin (rate i : Nat) : Nat :=
  d.bandOfFreq (d.fHi rate)
    (d.num.div (d.num.mul (d.num.ofInt i) (d.num.ofInt rate)) (d.num.ofInt d.fftSize))

/-! ## The two levels of a band -/

/-- `mean_power(b)`, `BCNT[b]` being how many bins the band has: 0 of an empty band (R204). -/
def meanPower (powers : List α) : α :=
  if powers.length = 0 then d.zero else d.num.div (d.sum powers) (d.num.ofInt powers.length)

/-- `magnitude(b)` (R204). -/
def magnitude (powers : List α) : α := d.num.sqrt (d.meanPower powers)

/-- `NEW_LIN[b]` of a magnitude (R205). -/
def linearLevel (m : α) : α := d.clamp01 (d.num.mul (d.num.mul m d.gain) d.linScale)

/-- The dB window applied to an amplitude: `clamp((20·log10(y) + DB_WINDOW)/DB_WINDOW, 0, 1)` (R206). -/
def dbOfAmplitude (y : α) : α :=
  d.clamp01 (d.num.div (d.num.add (d.num.mul (d.num.ofInt 20) (d.num.log10 y)) d.dbWindow) d.dbWindow)

/-- `NEW_DB[b]` of a magnitude: 0 unless the magnitude is above 0 (R206). -/
def dbLevel (m : α) : α :=
  if d.num.lt d.zero m then d.dbOfAmplitude (d.num.mul m d.gain) else d.zero

end Sys2Proof.DataPath

namespace Sys2Proof.Machine

/-- `BANDMAP` for a sample rate (R126). -/
def bandmapFor {α : Type} (p : Params α) (rate : Nat) : List Nat :=
  (List.range p.data.nbins).map fun i => p.data.bandOfBin rate i

end Sys2Proof.Machine
end

