-- ==== Sys2Proof/Machine/Smoothing.lean ====
section
/-! DEFINITION. The temporal smoothing filter over any arithmetic (R220, R221). -/

namespace Sys2Proof.DataPath

variable {α : Type} (d : DataPath α)

/-- `ALPHA·new + (1 − ALPHA)·previous`: two products and one sum, `1 − ALPHA` a difference of the arithmetic (R221, D8). -/
def smooth (new previous : α) : α :=
  d.num.add (d.num.mul d.alpha new) (d.num.mul (d.num.sub d.one d.alpha) previous)

/-- Every band's filter of one representation, advanced once (R220, R222). -/
def smoothAll (new : Nat → α) (previous : List α) : List α :=
  (List.range d.bands).map fun b => d.smooth (new b) (previous.getD b d.zero)

end Sys2Proof.DataPath
end

