-- ==== Sys2Proof/Machine/Analyzer.lean ====
section
/-! DEFINITION. The Spectrum Analyzer: the data path of an analysis step, over any arithmetic, and `ANA.RECV`, `ANA.STEP`,
`ANA.EXIT`, `ANA.ABORT` (R175 to R188). -/

namespace Sys2Proof.DataPath

/-! ## The data path of one analysis step -/

variable {α : Type} (d : DataPath α)

/-- Step 1, windowing (R182). -/
def windowed (x : List α) : List α := List.zipWith d.num.mul x d.window

/-- `BINS`: the transform's sums, each multiplied by `FFT_SCALE` (R183). -/
def bins (xw : List α) : List (α × α) :=
  (d.num.dft xw).map fun bin => (d.num.mul d.fftScale bin.1, d.num.mul d.fftScale bin.2)

/-- The power of one bin (R184). -/
def binPower (bin : α × α) : α := d.num.add (d.num.mul bin.1 bin.1) (d.num.mul bin.2 bin.2)

/-- Steps 1 to 3, first half: the power of every bin (R182, R183, R184). -/
def powers (x : List α) : List α := (d.bins (d.windowed x)).map d.binPower

/-- `magnitude(b)` from the power of every bin (R203, R204). -/
def bandMagnitude (bandmap : List Nat) (power : List α) (b : Nat) : α :=
  d.magnitude (Machine.bandPowers bandmap power b)

/-- `NEW_DB[b]` of a window with samples `x`, from the powers of its bins (R206, R227; log 20). -/
def newDb (bandmap : List Nat) (x power : List α) (b : Nat) : α :=
  d.outBand x b .db (d.dbLevel (d.bandMagnitude bandmap power b))

/-- `NEW_LIN[b]`, likewise (R205, R227; log 20). -/
def newLin (bandmap : List Nat) (x power : List α) (b : Nat) : α :=
  d.outBand x b .linear (d.linearLevel (d.bandMagnitude bandmap power b))

/-- `SM_DB` and `SM_LIN` after the step (R221). A function of the window's samples, the smoothing state and the band map
alone (R190). -/
def analysis (bandmap : List Nat) (x smDb smLin : List α) : List α × List α :=
  let power := d.powers x
  (d.smoothAll (d.newDb bandmap x power) smDb, d.smoothAll (d.newLin bandmap x power) smLin)

end Sys2Proof.DataPath

namespace Sys2Proof.Machine

variable {α : Type}

/-- The snapshot an analysis step publishes (R224). -/
def analysis (p : Params α) (bandmap : List Nat) (x smDb smLin : List α) : Snapshot α :=
  let next := p.data.analysis bandmap x smDb smLin
  ⟨next.1, next.2⟩

/-! ## The atomic steps -/

/-- `ANA.RECV` (R176). -/
def anaRecv (p : Params α) (batch : List α) (rest : List (List α)) (s : State α) : State α :=
  { s with
    fq := rest
    ring := ringAppend s.ring batch
    anaPhase := loopTest p.data.fftSize (ringAppend s.ring batch) }

/-- `ANA.EXIT` (R188). -/
def anaExit (s : State α) : State α := { s.setStatus anaExitedMask with anaPhase := .exited }

/-- `ANA.STEP` on the extracted samples `x`, once they are known to be `F` (R181). -/
def anaPass (p : Params α) (x : List α) (s : State α) : State α :=
  let snap := analysis p s.bandmap x s.smDb s.smLin
  { s with
    smDb := snap.bands
    smLin := snap.bandsLinear
    sq := fifoTryPush p.capSpec s.sq snap
    ring := ringDrop p.data.hop s.ring
    anaPhase := loopTest p.data.fftSize (ringDrop p.data.hop s.ring) }

/-- `ANA.STEP`, with `ANA.ABORT` when the extracted sequence does not have `F` elements (R181, R185). -/
def anaStep (p : Params α) (s : State α) : State α :=
  if (ringPeek p.data.fftSize s.ring).length ≠ p.data.fftSize then raise .transformShapeMismatch s
  else anaPass p (ringPeek p.data.fftSize s.ring) s

/-- The analyzer's turn while `ANA.phase = WAIT`: receive, exit, or wait (R165, R176, R188). -/
def anaWait (p : Params α) (s : State α) : State α :=
  match fifoTryPop s.fq with
  | (some batch, rest) => anaRecv p batch rest s
  | (none, _) => if s.closed then anaExit s else s

/-- A turn of the analyzer: the step its phase enables, or none (R23). -/
def stepAna (p : Params α) (s : State α) : State α :=
  match s.anaPhase with
  | .idle => s
  | .wait => anaWait p s
  | .loop => anaStep p s
  | .exited => s
  | .aborted => s

end Sys2Proof.Machine
end

