-- ==== Sys2Proof/Machine/Operands.lean ====
section
/-! DEFINITION. Response forms (R99, R100, R107) and the register space that `RDREG` reads (R33). -/

namespace Sys2Proof.Machine

variable {α : Type}

/-! ## Responses -/

/-- The word that crosses port CON for an image, as word `k` of a response: the image itself, unless it is a NaN or an
infinity although every sample taken has met R153; then a free finite value that is not negative (R107; log 27). -/
def portWord (s : State α) (k : Nat) (image : F32) : Word :=
  if s.strayed || NumF32.isFinite image then image
  else NumF32.pack false (Config.outgoing s.fresh (s.conOut.length + k))

/-- The words of values that follow the valid word of a response. -/
def portWords (p : Params α) (s : State α) (values : List α) : List Word :=
  values.mapIdx fun k v => portWord s (k + 1) (p.data.image v)

/-- Level response (R99): the valid word, then `rms` and `peak`. -/
def levelResponse (words : List α → List Word) : Option (Level α) → List Word
  | none => [0x00000000]
  | some l => 0x00000001 :: words [l.rms, l.peak]

/-- Spectrum response (R100): the valid word, then `bands`, then `bands_linear`, band 0 first. -/
def spectrumResponse (words : List α → List Word) : Option (Snapshot α) → List Word
  | none => [0x00000000]
  | some snap => 0x00000001 :: words (snap.bands ++ snap.bandsLinear)

/-! ## The register space -/

/-- The word of register `r` (R33); none for the reserved numbers 17 on. -/
def readRegister (p : Params α) (r : Nat) (s : State α) : Option Word :=
  match r with
  | 0 => some s.status
  | 1 => some s.sampleRate
  | 2 => some (s.channels.zeroExtend 32)
  | 3 => some (s.encoding.zeroExtend 32)
  | 4 => some (BitVec.ofNat 32 p.data.fftSize)
  | 5 => some (BitVec.ofNat 32 p.data.hop)
  | 6 => some (BitVec.ofNat 32 p.data.bands)
  | 7 => some (p.data.image p.data.fLo)
  | 8 => some (p.data.image s.fHi)
  | 9 => some (p.data.image p.data.alpha)
  | 10 => some (p.data.image p.data.gain)
  | 11 => some (p.data.image p.data.linScale)
  | 12 => some (p.data.image p.data.dbWindow)
  | 13 => some (BitVec.ofNat 32 p.capLevel)
  | 14 => some (BitVec.ofNat 32 p.capFrame)
  | 15 => some (BitVec.ofNat 32 p.capSpec)
  | 16 => some (p.data.image p.data.fHiMax)
  | _ => none

end Sys2Proof.Machine
end

