-- ==== Sys2Proof/Machine/ConsumerCommands.lean ====
section
/-! DEFINITION. The commands of port CON: `LVL.POP`, `LVL.LATEST`, `SPC.POP`, `SPC.LATEST`, `RDREG` (R235 to R240). -/

namespace Sys2Proof.Machine

variable {α : Type}

/-! ## Under given parameters -/

/-- Leave `LQ` as an access left it and answer what it gave (R236, R237). -/
def answerLevel (p : Params α) (got : Option (Level α) × List (Level α)) (s : State α) : State α :=
  respond (levelResponse (portWords p s) got.1) { s with lq := got.2 }

/-- Leave `SQ` as an access left it and answer what it gave (R238, R239). -/
def answerSpectrum (p : Params α) (got : Option (Snapshot α) × List (Snapshot α)) (s : State α) : State α :=
  respond (spectrumResponse (portWords p s) got.1) { s with sq := got.2 }

/-- `LVL.POP` (R236). -/
def runLvlPop (p : Params α) (s : State α) : State α := answerLevel p (fifoTryPop s.lq) s

/-- `LVL.LATEST` (R237). -/
def runLvlLatest (p : Params α) (s : State α) : State α := answerLevel p (fifoTakeLatest s.lq) s

/-- `SPC.POP` (R238). -/
def runSpcPop (p : Params α) (s : State α) : State α := answerSpectrum p (fifoTryPop s.sq) s

/-- `SPC.LATEST` (R239). -/
def runSpcLatest (p : Params α) (s : State α) : State α := answerSpectrum p (fifoTakeLatest s.sq) s

/-- `RDREG r`: the register's word, or `IllegalCommand` and no response for a reserved number (R240). -/
def runRdreg (p : Params α) (r : Nat) (s : State α) : State α :=
  match readRegister p r s with
  | some w => respond [w] s
  | none => raise .illegalCommand s

/-! ## Under the defaults -/

/-- `LVL.POP` (R236). -/
def execLvlPop (s : State) : Host.Outcome State Fault Refusal := .next (runLvlPop Params.default s)

/-- `LVL.LATEST` (R237). -/
def execLvlLatest (s : State) : Host.Outcome State Fault Refusal := .next (runLvlLatest Params.default s)

/-- `SPC.POP` (R238). -/
def execSpcPop (s : State) : Host.Outcome State Fault Refusal := .next (runSpcPop Params.default s)

/-- `SPC.LATEST` (R239). -/
def execSpcLatest (s : State) : Host.Outcome State Fault Refusal := .next (runSpcLatest Params.default s)

/-- `RDREG r` (R240). -/
def execRdreg (r : Nat) (s : State) : Host.Outcome State Fault Refusal := .next (runRdreg Params.default r s)

end Sys2Proof.Machine
end

