-- ==== Sys2Proof/Machine/Capture.lean ====
section
/-! DEFINITION. The capture context `CAP`: downmix and level meter, over any arithmetic, and the sub-steps of `BATCH` (R128,
R140 to R149). -/

namespace Sys2Proof.DataPath

/-! ## The data path of a batch -/

variable {α : Type} (d : DataPath α)

/-- 0.5, the factor of the downmix (R143). -/
def half : α := d.num.div d.one (d.num.ofInt 2)

/-- `DMX.FRAME`: the mono sample of the frame at the front of `raw`, whose first sample draws the free value number `base`
where it needs one (R143; log 7). -/
def dmxFrame (c : Nat) (enc : BitVec 8) (base : Nat) (raw : List Word) : α :=
  let left := d.conv enc (raw.getD 0 0) (d.freeSample base)
  let right := if 1 < c then d.conv enc (raw.getD 1 0) (d.freeSample (base + 1)) else d.zero
  d.num.mul d.half (d.num.add left right)

/-- `MONO` of `frames` frames: one sample a frame, in frame order (R142, R143, R147). -/
def downmix (c : Nat) (enc : BitVec 8) : Nat → Nat → List Word → List α
  | 0, _, _ => []
  | frames + 1, base, raw => d.dmxFrame c enc base raw :: downmix c enc frames (base + c) (raw.drop c)

/-- `SUMSQ` after accumulating the samples in order, from 0 (R144). -/
def sumSquares (mono : List α) : α := mono.foldl (fun acc m => d.num.add acc (d.num.mul m m)) d.zero

/-- `PEAK` after accumulating the samples in order, from 0 (R144). -/
def peakOf (mono : List α) : α := mono.foldl (fun acc m => d.num.max acc (d.num.abs m)) d.zero

/-- The root of the mean of the squares (R145). -/
def rmsOf (mono : List α) : α := d.num.sqrt (d.num.div (d.sumSquares mono) (d.num.ofInt mono.length))

/-- `LVL.EMIT`: `rms` and `peak` of a batch with these mono samples (R145); (0, 0) of an empty batch (R146). -/
def levelOf (mono : List α) : α × α :=
  if mono.length = 0 then (d.zero, d.zero) else (d.rmsOf mono, d.peakOf mono)

end Sys2Proof.DataPath

namespace Sys2Proof.Machine

variable {α : Type}

/-! ## The level of a batch, as a snapshot -/

/-- The LevelSnapshot of a batch (R145, R146). -/
def levelOf (p : Params α) (mono : List α) : Level α := ⟨(p.data.levelOf mono).1, (p.data.levelOf mono).2⟩

/-- A payload holds an `F32` sample that is a NaN or an infinity (R153 b). -/
def strays (enc : BitVec 8) (raw : List Word) : Bool := enc == 0 && raw.any fun w => !NumF32.isFinite w

/-! ## The sub-steps of `BATCH` -/

/-- Sub-step 1 of `BATCH`, `CAP.DMX`, on the raw samples of its payload (R128). -/
def capDmx (p : Params α) (raw : List Word) (s : State α) : State α :=
  let c := s.channels.toNat
  let frames := raw.length / c
  let mono := p.data.downmix c s.encoding frames s.fresh raw
  { s with
    nframes := BitVec.ofNat 24 frames
    mono := mono
    sumsq := p.data.sumSquares mono
    peak := p.data.peakOf mono
    level := levelOf p mono
    capPhase := .pubLevel
    strayed := s.strayed || strays s.encoding raw
    fresh := s.fresh + raw.length }

/-- Sub-step 2, `CAP.PUBL` (R148). -/
def capPubl (p : Params α) (s : State α) : State α :=
  { s with lq := fifoTryPush p.capLevel s.lq s.level, capPhase := .pubFrame }

/-- Sub-step 3, `CAP.PUBF` (R149). -/
def capPubf (p : Params α) (s : State α) : State α :=
  { s with fq := fifoTryPush p.capFrame s.fq s.mono, capPhase := .ready }

/-- A turn of the capture context: the sub-step that is due, or none (R24). -/
def stepCap (p : Params α) (s : State α) : State α :=
  match s.capPhase with
  | .ready => s
  | .pubLevel => capPubl p s
  | .pubFrame => capPubf p s

end Sys2Proof.Machine
end

