-- ==== Sys2Proof/Machine/SourceCommands.lean ====
section
/-! DEFINITION. The commands of port SRC: `CFG` (R121), `BATCH` (R128), `CLOSE` (R130), with their legality by state (R120). -/

namespace Sys2Proof.Machine

variable {α : Type}

/-! ## Legality by state (R120) -/

/-- `CFG` is refused once a `CFG` has executed, whatever came of it, and when closed (R120, R122). -/
def State.refusesCfg (s : State α) : Bool := s.cfgOk || s.cfgErr || s.closed

/-- `BATCH` executes in the state "running" only (R120, R127). -/
def State.refusesBatch (s : State α) : Bool := !(s.cfgOk && !s.cfgErr && !s.closed)

/-- `CLOSE` is refused when closed (R120, R130). -/
def State.refusesClose (s : State α) : Bool := s.closed

/-! ## CFG -/

/-- A successful `CFG` (R124, R125, R126). -/
def configure (p : Params α) (channels enc : Nat) (rate : Word) (s : State α) : State α :=
  { s.setStatus cfgOkMask with
    sampleRate := rate
    channels := BitVec.ofNat 16 channels
    encoding := BitVec.ofNat 8 enc
    fHi := p.data.fHi rate.toNat
    bandmap := bandmapFor p rate.toNat
    anaPhase := .wait }

/-- `CFG` past its legality: the checks in the order encoding, channel count, sample rate (R121, R123, R267). -/
def cfgBody (p : Params α) (channels enc : Nat) (rate : Word) (s : State α) : State α :=
  if 2 < enc then raise .cfgUnsupportedEncoding s
  else if channels = 0 then raise .cfgZeroChannels s
  else if rate.toNat < p.minRate then raise .cfgBadSampleRate s
  else configure p channels enc rate s

/-- `CFG` under given parameters (R121). -/
def runCfg (p : Params α) (channels enc : Nat) (s : State α) : State α :=
  runSource (.cfg channels enc) s.refusesCfg (fun payload => cfgBody p channels enc (payload.headD 0)) s

/-- `CFG` (R121). -/
def execCfg (channels enc : Nat) (s : State) : Host.Outcome State Fault Refusal :=
  .next (runCfg Params.default channels enc s)

/-! ## BATCH -/

/-- `BATCH` under given parameters: its sub-step 1; the two publishes are turns of the capture context (R128). -/
def runBatch (p : Params α) (n : Nat) (s : State α) : State α :=
  runSource (.batch n) s.refusesBatch (fun payload => capDmx p payload) s

/-- `BATCH` (R128). -/
def execBatch (n : Nat) (s : State) : Host.Outcome State Fault Refusal := .next (runBatch Params.default n s)

/-! ## CLOSE -/

/-- `CLOSE` (R130). -/
def runClose (s : State α) : State α :=
  runSource .close s.refusesClose (fun _ t => t.setStatus closedMask) s

/-- `CLOSE` (R130). -/
def execClose (s : State) : Host.Outcome State Fault Refusal := .next (runClose s)

end Sys2Proof.Machine
end

