-- ==== Sys2Proof/Machine/Commands.lean ====
section
/-! DEFINITION. The commands under any parameters, over any arithmetic (R13, R17, R36). The dispatch `exec` runs them under the
defaults. -/

namespace Sys2Proof.Machine

/-- One command under given parameters. -/
def execAt {α : Type} (p : Params α) (i : Instr) (s : State α) : Host.Outcome (State α) Fault Refusal :=
  match i with
  | .cfg channels enc => .next (runCfg p channels enc s)
  | .batch n => .next (runBatch p n s)
  | .close => .next (runClose s)
  | .lvlPop => .next (runLvlPop p s)
  | .lvlLatest => .next (runLvlLatest p s)
  | .spcPop => .next (runSpcPop p s)
  | .spcLatest => .next (runSpcLatest p s)
  | .rdreg r => .next (runRdreg p r s)

end Sys2Proof.Machine
end

