-- ==== Sys2Proof/Machine/Dispatch.lean ====
section
/-! DEFINITION. The dispatch: one arm per command, each one call of its meaning. -/

namespace Sys2Proof.Machine

def exec (i : Instr) (s : State) : Host.Outcome State Fault Refusal :=
  match i with
  | .cfg channels enc => Sys2Proof.Machine.execCfg channels enc s
  | .batch n => Sys2Proof.Machine.execBatch n s
  | .close => Sys2Proof.Machine.execClose s
  | .lvlPop => Sys2Proof.Machine.execLvlPop s
  | .lvlLatest => Sys2Proof.Machine.execLvlLatest s
  | .spcPop => Sys2Proof.Machine.execSpcPop s
  | .spcLatest => Sys2Proof.Machine.execSpcLatest s
  | .rdreg r => Sys2Proof.Machine.execRdreg r s

end Sys2Proof.Machine
end

