-- ==== Sys2Proof/Machine/Agents.lean ====
section
/-! DEFINITION. The turns of the parties (R19) and of reset (R290), and who moves next. Port SRC takes a command only while
`CAP.phase = READY` (R120); port CON at any time (R235). A party's turn runs a command by `run`: the dispatch `exec`,
or `execAt` under other parameters (R36). -/

namespace Sys2Proof.Machine

variable {α : Type}

/-- How a command runs. -/
abbrev Runner (α : Type) := Instr → State α → Host.Outcome (State α) Fault Refusal

/-! ## Who moves next -/

/-- The next mover, and the state with that turn taken from the schedule. -/
def takeTurn (s : State α) : Move × State α :=
  match s.turns with
  | [] => (Config.freeMove s.fresh, { s with fresh := s.fresh + 1 })
  | m :: rest => (m, { s with turns := rest })

/-! ## Port SRC -/

/-- A header at the front of port SRC: run its command, or discard the word and raise `IllegalCommand` (R102, R109). -/
def acceptSource (run : Runner α) (w : Word) (rest : List Word) (s : State α) : Host.Outcome (State α) Fault Refusal :=
  match decode .src w with
  | .ok i => run i { s with srcIn := rest }
  | .error _ => .next (raise .illegalCommand { s with srcIn := rest })

/-- A turn of the capture source: nothing while a batch is in progress (R19); else go on with the command the port holds,
or discard payload (R103), or take the next header. -/
def stepSrc (run : Runner α) (s : State α) : Host.Outcome (State α) Fault Refusal :=
  if s.capPhase ≠ .ready then .next s
  else
    match s.srcRx with
    | .held i => run i s
    | .discard n => .next (discardPayload n s)
    | .header =>
      match s.srcIn with
      | [] => .next s
      | w :: rest => acceptSource run w rest s

/-! ## Port CON -/

/-- A header at the front of port CON. -/
def acceptConsumer (run : Runner α) (w : Word) (rest : List Word) (s : State α) : Host.Outcome (State α) Fault Refusal :=
  match decode .con w with
  | .ok i => run i { s with conIn := rest }
  | .error _ => .next (raise .illegalCommand { s with conIn := rest })

/-- A turn of the consumer: its next command, if it has sent one (R235). -/
def stepCon (run : Runner α) (s : State α) : Host.Outcome (State α) Fault Refusal :=
  match s.conIn with
  | [] => .next s
  | w :: rest => acceptConsumer run w rest s

/-! ## Reset -/

/-- The words of a partly received command that are already on port SRC (R290). -/
def partialPayload : SrcRx → Nat
  | .header => 0
  | .held i => i.payloadWords
  | .discard n => n

/-- The state after reset, of a block with given parameters (R37, R30). -/
def State.resetAt (p : Params α) : State α :=
  State.initial p.data.zero p.data.smoothInit p.data.bands p.data.nbins

/-- Reset (R290): everything of the block at its reset value, a partly received command discarded whole, responses cut off;
what the two parties have sent beyond that, the schedule and the count of free values are theirs and stay (log 14). -/
def resetBlock (p : Params α) (s : State α) : State α :=
  { State.resetAt p with
    srcIn := s.srcIn.drop (partialPayload s.srcRx)
    conIn := s.conIn
    turns := s.turns
    fresh := s.fresh }

/-! ## One turn -/

/-- One turn of a mover (R19, R290). -/
def turn (p : Params α) (run : Runner α) (m : Move) (s : State α) : Host.Outcome (State α) Fault Refusal :=
  match m with
  | .src => stepSrc run s
  | .cap => .next (stepCap p s)
  | .con => stepCon run s
  | .ana => .next (stepAna p s)
  | .reset => .next (resetBlock p s)

/-! ## Placing a word where the next step fetches -/

/-- Words put at the front of port SRC, which is ready for a header, with the source to move next. -/
def placeSource (words : List Word) (s : State) : State :=
  { s with srcIn := words ++ s.srcIn, srcRx := .header, capPhase := .ready, turns := .src :: s.turns }

/-- A word put at the front of port CON, with the consumer to move next. -/
def placeConsumer (w : Word) (s : State) : State :=
  { s with conIn := w :: s.conIn, turns := .con :: s.turns }

/-- A table word placed on the port that accepts its header: a consumer command on port CON, anything else on port SRC. -/
def placeTableWord (nbits w : Nat) (s : State) : State :=
  match decode .con (tableHeader nbits w) with
  | .ok _ => placeConsumer (tableHeader nbits w) s
  | .error _ =>
    match decode .src (tableHeader nbits w) with
    | .ok i => placeSource (tableHeader nbits w :: tablePayload nbits w i.payloadWords) s
    | .error _ => placeSource [tableHeader nbits w] s

end Sys2Proof.Machine
end

