-- ==== Sys2Proof/Machine/Step.lean ====
section
/-! DEFINITION. One step of the machine, and how a word comes to be the next one fetched. -/

namespace Sys2Proof.Machine

/-- One atomic step: the next mover takes its turn (R19, R67). -/
def step (s : State) : Host.Outcome State Fault Refusal :=
  turn Params.default exec (takeTurn s).1 (takeTurn s).2

/-- One atomic step of a machine with given parameters, over any arithmetic (R9, R11, R13, R17, R36); `step` is the one with the
defaults. -/
def stepAt {α : Type} (p : Params α) (s : State α) : Host.Outcome (State α) Fault Refusal :=
  turn p (execAt p) (takeTurn s).1 (takeTurn s).2

/-- The state in which the very next step fetches and runs the table word `w` (log 16). -/
def State.withFetchWord (s : State) (nbits w : Nat) : State := placeTableWord nbits w s

end Sys2Proof.Machine
end

