-- ==== Sys2Proof/Machine/NumReal.lean ====
section
/-! DEFINITION. The reference semantics (R16): `NUM_REAL`, the arithmetic of the real numbers (R17 d), and the data path over
it with the parameters at the spec's values. Every formula of the data path is written once, over any arithmetic; over this
one it is the spec's formula over the reals, and `stepAt Params.reference` is the machine that computes with it. -/

namespace Sys2Proof

namespace NumReal

/-- The sum `Σ xw[n]·cos(2π·(k·n/F + quarter/4))` from index `n` on (R183). One quarter turn gives `−sin`. -/
noncomputable def dftSum (f k quarter : Nat) : Nat → List ℝ → ℝ
  | _, [] => 0
  | n, x :: rest =>
    x * Real.cos (2 * Real.pi * (4 * k * n + quarter * f : Nat) / (4 * f : Nat)) + dftSum f k quarter (n + 1) rest

/-- The exact sums of R183 of `F` samples, for the bins 0 to `F/2`. -/
noncomputable def dft (xw : List ℝ) : List (ℝ × ℝ) :=
  (List.range (xw.length / 2 + 1)).map fun k => (dftSum xw.length k 0 0 xw, dftSum xw.length k 1 0 xw)

/-- The base-ten logarithm; at most −3 where there is none (property `P_DBFLOOR`, R18, R207; log 26). -/
noncomputable def log10 (x : ℝ) : ℝ := if 0 < x then Real.logb 10 x else -3 - (Config.logFloor : ℝ)

/-- `WINDOW[n] = 0.5·(1 − cos(2πn/(F−1)))` (R180). -/
noncomputable def hann (fftSize n : Nat) : ℝ := 1 / 2 * (1 - Real.cos (2 * Real.pi * n / (fftSize - 1 : Nat)))

/-- The integer nearest, an exact half going as the tie rule says (R201). -/
noncomputable def round (tie : Config.RoundTie) (x : ℝ) : Int :=
  let below := ⌊x⌋
  if Int.fract x < 1 / 2 then below
  else if 1 / 2 < Int.fract x then below + 1
  else
    match tie with
    | .away => if 0 ≤ x then below + 1 else below
    | .even => if below % 2 = 0 then below else below + 1

/-- The real number a finite binary32 image stands for (R107). -/
noncomputable def ofImage (w : F32) : ℝ := NumF32.toInt w / 2 ^ 149

/-- `CONV` over the reals (R141). -/
noncomputable def conv (enc : BitVec 8) (w : Word) (free : ℝ) : ℝ :=
  if enc = 0 then (if NumF32.isFinite w then ofImage w else free)
  else if enc = 1 then ((w.extractLsb' 0 16).toInt : ℝ) / 32768
  else if enc = 2 then (((w.extractLsb' 0 16).toNat : ℝ) - 32768) / 32768
  else free

/-- The binary32 image of the number nearest a real one, ties to even; the infinity's from where binary32 rounds to it (R17 a,
R107). With `2^23` quanta or more the unit is `2^k` quanta, so that the rounded number has 24 bits. -/
noncomputable def image (x : ℝ) : F32 :=
  let quanta := |x| * 2 ^ 149
  let k := Nat.log2 ⌊quanta⌋₊ - 23
  NumF32.pack (decide (x < 0)) (min (k * 2 ^ 23 + (round .even (quanta / 2 ^ k)).toNat) NumF32.infImage)

end NumReal

/-- `NUM_REAL` (R17 d): the exact real functions. -/
noncomputable def numReal : Num ℝ where
  add   := fun x y => x + y
  sub   := fun x y => x - y
  mul   := fun x y => x * y
  div   := fun x y => x / y
  sqrt  := Real.sqrt
  abs   := fun x => |x|
  max   := fun x y => max x y
  min   := fun x y => min x y
  lt    := fun x y => decide (x < y)
  log10 := NumReal.log10
  ln    := Real.log
  cos   := Real.cos
  ofInt := fun z => (z : ℝ)
  dft   := NumReal.dft

/-- The data path of the reference semantics, with the values of R9 and R13. -/
noncomputable def dataReal : DataPath ℝ where
  fftSize    := Config.fftSize
  bands      := Config.bands
  num        := numReal
  round      := NumReal.round
  roundTie   := Config.roundTie
  conv       := NumReal.conv
  freeSample := Config.freeReal
  window     := (List.range Config.fftSize).map (NumReal.hann Config.fftSize)
  fftScale   := 1
  smoothInit := 0
  fLo        := 20
  fHiMax     := 20000
  alpha      := 6 / 10
  gain       := 2 / 10
  linScale   := 8 / 10
  dbWindow   := 60
  outBand    := fun _ _ _ v => v
  image      := NumReal.image

/-- The machine of the reference semantics: `NUM_REAL` and the defaults of R9, R11 and R13. `stepAt Params.reference` is its
step. -/
noncomputable def Params.reference : Params ℝ where
  data     := dataReal
  minRate  := Config.minRate
  capLevel := Config.capLevel
  capFrame := Config.capFrame
  capSpec  := Config.capSpec

end Sys2Proof
end

