-- ==== Sys2Proof/Safety.lean ====
section
/-! DEFINITION. What a safe run is, in the terms the claims use: the invariant of the reachable states, enabledness and
quiescence (R23, R24, R129, R309), runs and weak fairness (R19, D35), the readings of values the numeric claims are stated in,
the range of the values the block holds (R227, R38 d), and the named properties of an arithmetic (R18). -/

namespace Sys2Proof.Machine

variable {α : Type}

/-! ## The invariant -/

/-- `STATUS`: reserved bits 0, never both configuration outcomes, a cause exactly with the error flag, and no abort
(R32, R256, U7, R185). -/
structure StatusInv (s : State α) : Prop where
  reserved    : s.statusReserved = 0
  one_outcome : ¬(s.cfgOk = true ∧ s.cfgErr = true)
  cause       : s.errCause ≠ 0 ↔ s.cfgErr = true
  cause_code  : s.errCause.toNat ≤ 3
  no_abort    : s.anaAborted = false

/-- Before a successful `CFG` nothing has flowed and the configuration registers hold their reset values (R260, R302). -/
structure UnconfiguredInv (s : State α) (p : Params α) : Prop where
  registers : s.sampleRate = 0 ∧ s.channels = 0 ∧ s.encoding = 0 ∧ s.fHi = p.data.zero
  table     : s.bandmap = (State.resetAt p).bandmap
  smoothing : s.smDb = (State.resetAt p).smDb ∧ s.smLin = (State.resetAt p).smLin
  empty     : s.lq = [] ∧ s.fq = [] ∧ s.sq = [] ∧ s.ring = []
  capture   : s.capPhase = .ready
  analyzer  : s.anaPhase = .idle

/-- After a successful `CFG` the registers hold legal values, and `F_HI` and `BANDMAP` are the ones of the sample rate
(R21, R22, R123, R126). -/
structure ConfiguredInv (s : State α) (p : Params α) : Prop where
  rate     : p.minRate ≤ s.sampleRate.toNat
  channels : s.channels ≠ 0
  encoding : s.encoding.toNat ≤ 2
  ceiling  : s.fHi = p.data.fHi s.sampleRate.toNat
  table    : s.bandmap = bandmapFor p s.sampleRate.toNat
  analyzer : s.anaPhase ≠ .idle

/-- The tables have the sizes of the block: `BANDMAP` has `NBINS` entries, none above `B − 1`, and every array of levels has
`B` values (R10, R28, R30, R31, R38 a). -/
structure TableInv (s : State α) (p : Params α) : Prop where
  bandmap   : s.bandmap.length = p.data.nbins
  entries   : ∀ b ∈ s.bandmap, b ≤ p.data.bands - 1
  smoothing : s.smDb.length = p.data.bands ∧ s.smLin.length = p.data.bands
  snapshots : ∀ snap ∈ s.sq, snap.bands.length = p.data.bands ∧ snap.bandsLinear.length = p.data.bands

/-- The analyzer: the phase says how full the ring is (R23), the phase and `STATUS` agree (R188), the ring keeps its bound
(R178), and an analyzer that has exited left a closed, empty `FQ` and less than one window in the ring (R188). -/
structure AnalyzerInv (s : State α) (p : Params α) : Prop where
  waiting     : s.anaPhase = .wait → s.ring.length < p.data.fftSize
  looping     : s.anaPhase = .loop → p.data.fftSize ≤ s.ring.length
  not_aborted : s.anaPhase ≠ .aborted
  exit_flag   : s.anaPhase = .exited ↔ s.anaExited = true
  exit_closed : s.anaPhase = .exited → s.closed = true ∧ s.fq = [] ∧ s.ring.length < p.data.fftSize
  ring_bound  : s.ring.length ≤ p.data.ringCap

/-- The FIFOs keep their capacities, and every batch the block holds is at most `NMAX` samples long (R31, R142). -/
structure FifoInv (s : State α) (p : Params α) : Prop where
  lq      : s.lq.length ≤ p.capLevel
  fq      : s.fq.length ≤ p.capFrame
  sq      : s.sq.length ≤ p.capSpec
  batches : ∀ batch ∈ s.fq, batch.length ≤ Config.nmax
  mono    : s.mono.length ≤ Config.nmax

/-- Port SRC: a batch in progress leaves the port expecting a header and the source open (R120, R130), and a held command is
a well-formed command of the port that is not refused (R34, R103). -/
structure PortInv (s : State α) : Prop where
  in_progress : s.capPhase ≠ .ready → s.srcRx = .header ∧ s.closed = false ∧ s.nframes.toNat = s.mono.length
  held        : ∀ i, s.srcRx = .held i → i.wellFormed = true ∧ i.port = .src
  discard     : ∀ n, s.srcRx = .discard n → n ≤ Config.nmax

/-- The invariant of the reachable states, of a machine with given parameters. -/
structure State.Inv (s : State α) (p : Params α) : Prop where
  status       : StatusInv s
  unconfigured : s.cfgOk = false → UnconfiguredInv s p
  configured   : s.cfgOk = true → ConfiguredInv s p
  tables       : TableInv s p
  analyzer     : AnalyzerInv s p
  fifos        : FifoInv s p
  port         : PortInv s

/-! ## Enabled steps and quiescence -/

/-- A step of the capture context is enabled (R24, R129). -/
def State.capEnabled (s : State α) : Bool := s.capPhase != .ready

/-- A step of the analyzer is enabled (R23, R165). -/
def State.anaEnabled (s : State α) : Bool :=
  match s.anaPhase with
  | .idle => false
  | .wait => !s.fq.isEmpty || s.closed
  | .loop => true
  | .exited => false
  | .aborted => false

/-- No agent of the block has an enabled step (R309). -/
def State.quiescent (s : State α) : Bool := !s.capEnabled && !s.anaEnabled

/-! ## Runs and weak fairness (R19, R36, D35) -/

/-- What the outside does between two steps: it sends words on the two ports and adds moves to the schedule (R36). -/
def State.Supplied (s t : State) : Prop :=
  ∃ words commands moves,
    t = { s with srcIn := s.srcIn ++ words, conIn := s.conIn ++ commands, turns := s.turns ++ moves }

/-- An infinite run: `r k` is the state in which step `k` is taken. -/
def IsRun (r : Nat → State) : Prop := ∀ k, ∃ t, step (r k) = .next t ∧ t.Supplied (r (k + 1))

/-- Who takes step `k` of a run. -/
def moverAt (r : Nat → State) (k : Nat) : Move := (takeTurn (r k)).1

/-- Weak fairness for one agent: a step of it that stays enabled is eventually taken (D35). -/
def FairFor (agent : Move) (enabled : State → Bool) (r : Nat → State) : Prop :=
  ∀ k, (∀ j, k ≤ j → enabled (r j) = true) → ∃ j, k ≤ j ∧ moverAt r j = agent

/-- The fair runs: weak fairness of `CAP` and of `ANA`, the only liveness assumptions (R19, D35; log 24). -/
structure WeaklyFair (r : Nat → State) : Prop where
  cap : FairFor .cap State.capEnabled r
  ana : FairFor .ana State.anaEnabled r

/-! ## Readings of values -/

/-- A value ≥ 0 that is not a NaN: finite and not below 0, or +∞. -/
def nonneg (a : F32) : Bool := !NumF32.isNaN a && decide (0 ≤ NumF32.rank a)

/-- The finite value `v` is a binary32 number nearest `num / den` quanta: no finite value is nearer. -/
def IsNearest (num : Int) (den : Nat) (v : F32) : Prop :=
  NumF32.isFinite v = true ∧
    ∀ w, NumF32.isFinite w = true → (NumF32.toInt v * den - num).natAbs ≤ (NumF32.toInt w * den - num).natAbs

/-- Nearest with ties to even: `v` is nearest, and of two nearest values it is the one whose image is even (R17 c, D8). -/
def IsNearestEven (num : Int) (den : Nat) (v : F32) : Prop :=
  IsNearest num den v ∧
    ∀ w, NumF32.isFinite w = true → (NumF32.toInt w * den - num).natAbs = (NumF32.toInt v * den - num).natAbs →
      NumF32.toInt w ≠ NumF32.toInt v → v.getLsbD 0 = false

/-- Where binary32 begins to round to an infinity: 2^128 − 2^103, in quanta. -/
abbrev overflowBound : Nat := (2 ^ 25 - 1) * 2 ^ 252

/-- What rounding to binary32 makes of `num / den` quanta as to range and sign: below the bound a finite value, not of the
opposite sign; from the bound on the infinity of the same sign. -/
def KeepsRangeAndSign (num : Int) (den : Nat) (v : F32) : Prop :=
  (num.natAbs < overflowBound * den →
    NumF32.isFinite v = true ∧ (0 ≤ num → 0 ≤ NumF32.toInt v) ∧ (num ≤ 0 → NumF32.toInt v ≤ 0))
  ∧ (overflowBound * den ≤ num.natAbs → v = NumF32.inf (decide (num < 0)))

/-- A value in [−1, 1], as the samples of an AudioFrameBatch are meant to be (R141, R153). -/
def normalized (a : F32) : Bool := NumF32.isFinite a && decide (NumF32.mag a ≤ NumF32.one)

/-- What may cross port CON for a value with image `image` (R107): the image itself if it is finite, or if a sample has not met
R153; else a finite value that is not negative. -/
def Sends (s : State α) (image : F32) (w : Word) : Prop :=
  (s.strayed = true ∨ NumF32.isFinite image = true → w = image)
  ∧ (s.strayed = false → NumF32.isFinite w = true)
  ∧ (s.strayed = false → NumF32.isFinite image = false → 0 ≤ NumF32.toInt w)

/-- What the block holds, without what the two external parties have sent or received, the schedule and the count of free
values: the tuple of R20 with the receive state of port SRC. -/
def State.block (s : State α) : State α :=
  { s with srcIn := [], conIn := [], conOut := [], turns := [], fresh := 0 }

/-! ## The range of the values the block holds (R30, R107, R227, R38 d) -/

/-- The raw samples among the words that follow a command's header. -/
def Instr.samples (i : Instr) (words : List Word) : List Word :=
  match i with
  | .cfg _ _ => []
  | .batch n => words.take n
  | .close => []
  | .lvlPop => []
  | .lvlLatest => []
  | .spcPop => []
  | .spcLatest => []
  | .rdreg _ => []

/-- The raw samples that the source's next turn may take: those of the command at the front of port SRC. -/
def State.incomingSamples (s : State) : List Word :=
  match s.srcRx with
  | .held i => Instr.samples i s.srcIn
  | .discard _ => []
  | .header =>
    match s.srcIn with
    | [] => []
    | w :: rest =>
      match decode .src w with
      | .ok i => Instr.samples i rest
      | .error _ => []

/-- The source keeps a promise on the `F32` samples it sends; those of the integer encodings are in [−1, 1] in any case (R153). -/
def State.InputMeets (s : State) (promise : F32 → Bool) : Prop :=
  s.cfgOk = true → s.encoding = 0 → ∀ w ∈ s.incomingSamples, promise w = true

/-- What the values the block holds are: a mono sample, an accumulator of the meter, a level that leaves the block, and a
value of the filters. -/
structure Range (α : Type) where
  sample : α → Prop
  meter  : α → Prop
  level  : α → Prop
  unit   : α → Prop

/-- Of binary32 images: nothing is a NaN, the accumulators and the levels are not negative, a filter value lies in [0, 1]. A
mono sample, an accumulator or a level may be the infinity that an operation answers beyond binary32 (R17 c). -/
def Range.f32 : Range F32 where
  sample a := NumF32.isNaN a = false
  meter  a := nonneg a = true
  level  a := nonneg a = true
  unit   a := NumF32.inUnit a = true

/-- Of binary32 images, for samples in [−1, 1]: so is every mono sample, and every level lies in [0, 1] too (R151 d). -/
def Range.f32Normalized : Range F32 where
  sample a := normalized a = true
  meter  a := nonneg a = true
  level  a := NumF32.inUnit a = true
  unit   a := NumF32.inUnit a = true

/-- The same of real numbers. -/
def Range.real : Range ℝ where
  sample _ := True
  meter  x := 0 ≤ x
  level  x := 0 ≤ x
  unit   x := 0 ≤ x ∧ x ≤ 1

/-- Every value the block holds is in its range: the samples, the accumulators, the levels (R145, R107), the filters and the
values of the snapshots (R30, R227). -/
structure State.DataInv (s : State α) (r : Range α) : Prop where
  mono      : ∀ m ∈ s.mono, r.sample m
  queued    : ∀ batch ∈ s.fq, ∀ m ∈ batch, r.sample m
  ring      : ∀ m ∈ s.ring, r.sample m
  meter     : r.meter s.sumsq ∧ r.meter s.peak
  level     : r.level s.level.rms ∧ r.level s.level.peak
  levels    : ∀ l ∈ s.lq, r.level l.rms ∧ r.level l.peak
  filters   : ∀ v ∈ s.smDb ++ s.smLin, r.unit v
  snapshots : ∀ snap ∈ s.sq, ∀ v ∈ snap.bands ++ snap.bandsLinear, r.unit v

/-! ## The named properties of an arithmetic (R18) -/

/-- R18, of a data path over any arithmetic: `value` reads a value as a real number, `finite` says which values it reads, and
`notNaN` which operands `P_CLAMP` speaks of. -/
structure NamedProperties (d : DataPath α) (value : α → ℝ) (finite notNaN : α → Prop) : Prop where
  /-- `P_ZERO`: `add(0, 0) = 0`. -/
  zero_add     : finite (d.num.add d.zero d.zero) ∧ value (d.num.add d.zero d.zero) = 0
  /-- `P_ZERO`: `mul(0, x) = 0` for finite `x`. -/
  zero_mul     : ∀ x, finite x → finite (d.num.mul d.zero x) ∧ value (d.num.mul d.zero x) = 0
  /-- `P_ZERO`: `mul(x, 0) = 0` for finite `x`. -/
  mul_zero     : ∀ x, finite x → finite (d.num.mul x d.zero) ∧ value (d.num.mul x d.zero) = 0
  /-- `P_ZERO`: `sqrt(0) = 0`. -/
  sqrt_zero    : finite (d.num.sqrt d.zero) ∧ value (d.num.sqrt d.zero) = 0
  /-- `P_ZERO`: `div(0, n) = 0` for `n > 0`. -/
  zero_div     : ∀ n, finite n → 0 < value n → finite (d.num.div d.zero n) ∧ value (d.num.div d.zero n) = 0
  /-- `P_ZERO`: `abs(0) = 0`. -/
  abs_zero     : finite (d.num.abs d.zero) ∧ value (d.num.abs d.zero) = 0
  /-- `P_ZERO`: `dft` of `F` zeros is `NBINS` zero bins. -/
  dft_zero     : (d.num.dft (List.replicate d.fftSize d.zero)).length = d.nbins
                   ∧ ∀ bin ∈ d.num.dft (List.replicate d.fftSize d.zero),
                       finite bin.1 ∧ value bin.1 = 0 ∧ finite bin.2 ∧ value bin.2 = 0
  /-- `P_CLAMP`: `clamp(x, 0, 1)` lies in [0, 1]. -/
  clamp_unit   : ∀ x, notNaN x → finite (d.clamp01 x) ∧ 0 ≤ value (d.clamp01 x) ∧ value (d.clamp01 x) ≤ 1
  /-- `P_CLAMP`: `max` is exact. -/
  max_exact    : ∀ x y, finite x → finite y →
                   finite (d.num.max x y) ∧ value (d.num.max x y) = Max.max (value x) (value y)
  /-- `P_CLAMP`: `min` is exact. -/
  min_exact    : ∀ x y, finite x → finite y →
                   finite (d.num.min x y) ∧ value (d.num.min x y) = Min.min (value x) (value y)
  /-- `P_CLAMP`: `abs` is exact. -/
  abs_exact    : ∀ x, finite x → finite (d.num.abs x) ∧ value (d.num.abs x) = |value x|
  /-- `P_CLAMP`: `lt` is exact. -/
  lt_exact     : ∀ x y, finite x → finite y → (d.num.lt x y = true ↔ value x < value y)
  /-- `P_SQRT`. -/
  sqrt_nonneg  : ∀ x, finite x → 0 ≤ value x → finite (d.num.sqrt x) ∧ 0 ≤ value (d.num.sqrt x)
  /-- `P_CONVEX`. -/
  convex       : ∀ a b, finite a → finite b → 0 ≤ value a → value a ≤ 1 → 0 ≤ value b → value b ≤ 1 →
                   finite (d.smooth a b) ∧ 0 ≤ value (d.smooth a b) ∧ value (d.smooth a b) ≤ 1
  /-- `P_SQ`. -/
  square       : ∀ x, finite x → notNaN (d.num.mul x x) ∧ 0 ≤ value (d.num.mul x x)
  /-- `P_DBFLOOR`. -/
  db_floor     : ∀ y, finite y → 0 ≤ value y → value y ≤ 1 / 1000 →
                   finite (d.dbOfAmplitude y) ∧ value (d.dbOfAmplitude y) = 0

end Sys2Proof.Machine
end

