-- ==== Sys2Proof/Certificates/Slice0/Obligations.lean ====
section
/-! DEFINITION. The statements about Selara SFE, for the provers. Each docstring names the rules it formalises. -/

open Sys2Proof Sys2Proof.Machine

/-! ## Encoding -/

/-- R87, R88, R90, R92, R98: decoding the header of a well-formed command gives the command back, on its own port, whatever
its operands. -/
def Obligations.DecodeOfEncodeIsTheCommand : Prop :=
  ∀ i : Instr, i.wellFormed = true → decode i.port (encode i) = .ok i

/-- R87, R109: a word decodes only to a command that is well-formed, belongs to the port, and has that word as its header. -/
def Obligations.DecodedWordIsTheCommandsHeader : Prop :=
  ∀ (p : Port) (w : Word) (i : Instr),
    decode p w = .ok i → i.wellFormed = true ∧ i.port = p ∧ encode i = w

/-- R102: which headers are illegal, (a) to (d); an illegal header on either port costs that one word and sets `ILL`, with no
payload, no response and nothing else; `RDREG` 17 to 255 decodes and is then refused without a response. -/
def Obligations.IllegalHeadersRaiseIllegalCommand : Prop :=
  (∀ (p : Port) (w : Word), (∃ e, decode p w = .error e) ↔
    (w.toNat / 2 ^ 24 ∉ [0x01, 0x02, 0x03, 0x10, 0x11, 0x12, 0x13, 0x18]
      ∨ (w.toNat / 2 ^ 24 ∈ [0x03, 0x10, 0x11, 0x12, 0x13] ∧ w.toNat % 2 ^ 24 ≠ 0)
      ∨ (w.toNat / 2 ^ 24 = 0x18 ∧ w.toNat % 2 ^ 24 / 2 ^ 8 ≠ 0)
      ∨ (w.toNat / 2 ^ 24 ∈ [0x01, 0x02, 0x03] ∧ p = .con)
      ∨ (w.toNat / 2 ^ 24 ∈ [0x10, 0x11, 0x12, 0x13, 0x18] ∧ p = .src)))
  ∧ (∀ (s : State) (ts : List Move) (w : Word) (rest : List Word) (e : Illegal),
      s.turns = .src :: ts → s.capPhase = .ready → s.srcRx = .header → s.srcIn = w :: rest →
      decode .src w = .error e →
      step s = .next { s with turns := ts, srcIn := rest, status := s.status ||| 0x00000020#32 })
  ∧ (∀ (s : State) (ts : List Move) (w : Word) (rest : List Word) (e : Illegal),
      s.turns = .con :: ts → s.conIn = w :: rest → decode .con w = .error e →
      step s = .next { s with turns := ts, conIn := rest, status := s.status ||| 0x00000020#32 })
  ∧ (∀ (r : Nat) (s : State), 17 ≤ r → r < 256 →
      decode .con (encode (.rdreg r)) = .ok (.rdreg r)
        ∧ exec (.rdreg r) s = .next { s with status := s.status ||| 0x00000020#32 })

/-- R87, R102 on words written out from the opcode map (95_test_vectors.md section 2.1). -/
def Obligations.SampleHeaderWordsDecode : Prop :=
  decode .src 0x01000201 = .ok (.cfg 2 1) ∧ decode .src 0x01FFFF02 = .ok (.cfg 65535 2)
  ∧ decode .src 0x02000004 = .ok (.batch 4) ∧ decode .src 0x03000000 = .ok .close
  ∧ decode .con 0x10000000 = .ok .lvlPop ∧ decode .con 0x11000000 = .ok .lvlLatest
  ∧ decode .con 0x12000000 = .ok .spcPop ∧ decode .con 0x13000000 = .ok .spcLatest
  ∧ decode .con 0x18000010 = .ok (.rdreg 16)
  ∧ decode .src 0x04000000 = .error .unassignedOpcode ∧ decode .src 0x03000001 = .error .reservedOperand
  ∧ decode .con 0x18000100 = .error .reservedOperand ∧ decode .src 0x10000000 = .error .wrongPort
  ∧ decode .con 0x02000001 = .error .wrongPort

/-! ## The step -/

/-- R19, R73, R120: a party's turn runs the command decoded from the word at the front of its port. The source needs
`CAP.phase = READY`. The model's form (log 2, log 13): a legal `CFG` or `BATCH` whose payload has not all arrived is held, with
nothing else changed, and a held command is run again on the source's next turn. -/
def Obligations.TurnRunsTheDecodedCommand : Prop :=
  (∀ (s : State) (ts : List Move) (w : Word) (rest : List Word) (i : Instr),
      s.turns = .src :: ts → s.capPhase = .ready → s.srcRx = .header → s.srcIn = w :: rest →
      decode .src w = .ok i → step s = exec i { s with turns := ts, srcIn := rest })
  ∧ (∀ (s : State) (ts : List Move) (i : Instr),
      s.turns = .src :: ts → s.capPhase = .ready → s.srcRx = .held i →
      step s = exec i { s with turns := ts })
  ∧ (∀ (s : State) (ts : List Move) (w : Word) (rest : List Word) (i : Instr),
      s.turns = .con :: ts → s.conIn = w :: rest → decode .con w = .ok i →
      step s = exec i { s with turns := ts, conIn := rest })
  ∧ (∀ (s : State) (i : Instr), s.capPhase = .ready → s.closed = false → s.cfgErr = false →
      ((∃ channels enc, i = .cfg channels enc) ∧ s.cfgOk = false) ∨ ((∃ n, i = .batch n) ∧ s.cfgOk = true) →
      s.srcIn.length < i.payloadWords →
      exec i s = .next { s with srcRx := .held i })

/-- R262: "The block does not stop". Every step of every state answers a next state (that the model goes on after
`IllegalCommand` is its reading of R262: log 4). -/
def Obligations.EveryStepAnswersANextState : Prop :=
  ∀ s : State, ∃ t, step s = .next t

/-! ## Reset -/

/-- R37: the reset value of every piece of state. -/
def Obligations.ResetValuesAreTheTables : Prop :=
  State.reset.status = 0 ∧ State.reset.sampleRate = 0 ∧ State.reset.channels = 0 ∧ State.reset.encoding = 0
  ∧ State.reset.fHi = 0 ∧ State.reset.capPhase = .ready
  ∧ State.reset.sumsq = 0 ∧ State.reset.peak = 0 ∧ State.reset.nframes = 0 ∧ State.reset.mono = []
  ∧ State.reset.level = ⟨0, 0⟩ ∧ State.reset.lq = [] ∧ State.reset.fq = [] ∧ State.reset.sq = []
  ∧ State.reset.anaPhase = .idle ∧ State.reset.ring = []
  ∧ State.reset.bandmap = List.replicate 513 0
  ∧ State.reset.smDb = List.replicate 96 0 ∧ State.reset.smLin = List.replicate 96 0
  ∧ State.reset.srcRx = .header

/-- R290: the reset event, in any state, puts everything the block holds at its reset value, and a partly received command is
discarded whole: the payload words of a held command, or of a refused one that is being discarded, that have arrived. What
stays is what the two parties have sent beyond it, the schedule and the count of free values (log 14, the model's choice). -/
def Obligations.ResetEventRestoresTheBlock : Prop :=
  ∀ (s : State) (ts : List Move), s.turns = .reset :: ts →
    ∃ t, step s = .next t ∧ t.block = State.reset.block ∧ t.conOut = [] ∧ t.conIn = s.conIn ∧ t.turns = ts
      ∧ t.fresh = s.fresh ∧ (s.srcRx = .header → t.srcIn = s.srcIn)
      ∧ (∀ i, s.srcRx = .held i → t.srcIn = s.srcIn.drop i.payloadWords)
      ∧ (∀ n, s.srcRx = .discard n → t.srcIn = s.srcIn.drop n)

/-- R37, R38: the invariant of the reachable states holds after reset, and so it does of a machine with any other parameters, over any
arithmetic (R13, R17, R36). -/
def Obligations.ResetStateHasTheInvariant : Prop :=
  State.reset.Inv Params.default ∧ ∀ (α : Type) (p : Params α), (State.resetAt p).Inv p

/-- R23, R31, R32, R122, R178, R185: every step keeps the invariant, whoever moves: the status register's reserved bits and
exclusive outcomes, the registers and the band map of the configured rate, the FIFOs' capacities, the ring's bound, the
phases' meaning, the sizes of the tables, and no abort. So does every step of a machine with any other parameters, over any
arithmetic (R9, R13, R17, R36), for its own sizes, capacities, tables and constants, if `F` is not 0. -/
def Obligations.EveryStepKeepsTheInvariant : Prop :=
  (∀ s t : State, s.Inv Params.default → step s = .next t → t.Inv Params.default)
  ∧ (∀ (α : Type) (p : Params α) (s t : State α), 0 < p.data.fftSize → s.Inv p → stepAt p s = .next t → t.Inv p)

/-! ## CFG -/

/-- R121, R124, R125, R126: a `CFG` with legal operands, unconfigured, writes its operands, `F_HI`, the band map as the default
data path computes it (the arithmetic of its logarithm is the model's choice: log 10) and `CFG_OK`, creates the analyzer, and
changes nothing else. -/
def Obligations.ConfigurationWritesTheRegisters : Prop :=
  ∀ (s : State) (channels enc : Nat) (rate : Word) (rest : List Word),
    s.capPhase = .ready → s.cfgOk = false → s.cfgErr = false → s.closed = false → s.srcIn = rate :: rest →
    enc ≤ 2 → 0 < channels → channels < 2 ^ 16 → 41 ≤ rate.toNat →
    ∃ t, exec (.cfg channels enc) s = .next t
      ∧ t.sampleRate = rate ∧ t.channels.toNat = channels ∧ t.encoding.toNat = enc
      ∧ (NumF32.isFinite t.fHi = true ∧ 2 * NumF32.toInt t.fHi = (min rate.toNat 40000 * 2 ^ 149 : Nat))
      ∧ t.bandmap = (List.range 513).map (dataF32.bandOfBin rate.toNat)
      ∧ t.status = s.status ||| 0x00000001#32 ∧ t.anaPhase = .wait
      ∧ t.srcIn = rest ∧ t.srcRx = .header
      ∧ t = { s with
          sampleRate := t.sampleRate, channels := t.channels, encoding := t.encoding, fHi := t.fHi,
          bandmap := t.bandmap, status := t.status, anaPhase := t.anaPhase, srcIn := t.srcIn, srcRx := t.srcRx }

/-- R123: the three checks in their order, the first that fails deciding the cause; nothing is written but `CFG_ERR` and
`ERR_CAUSE` (R260), and the payload word is consumed. -/
def Obligations.ConfigurationErrorsInOrder : Prop :=
  ∀ (s : State) (channels enc : Nat) (rate : Word) (rest : List Word),
    s.capPhase = .ready → s.cfgOk = false → s.cfgErr = false → s.closed = false → s.srcIn = rate :: rest →
    ∀ code : BitVec 32,
      (2 < enc ∧ code = 1) ∨ (enc ≤ 2 ∧ channels = 0 ∧ code = 2)
        ∨ (enc ≤ 2 ∧ channels ≠ 0 ∧ rate.toNat < 41 ∧ code = 3) →
      exec (.cfg channels enc) s = .next { s with
        srcIn := rest, srcRx := .header,
        status := ((s.status ||| 0x00000002#32) &&& 0xFFFFF0FF#32) ||| (code <<< 8) }

/-- R120, R103, R262: a source command refused by state sets `ILL`, consumes its payload (words not there yet are discarded
as they arrive: log 13) and changes nothing else. A turn of the source that finds such words discards them, so that the
port expects a header again exactly when the whole payload has arrived. -/
def Obligations.SourceCommandsRefusedByState : Prop :=
  (∀ (s : State) (i : Instr), s.capPhase = .ready →
    (∃ channels enc, i = .cfg channels enc ∧ (s.cfgOk = true ∨ s.cfgErr = true ∨ s.closed = true))
      ∨ (∃ n, i = .batch n ∧ ¬(s.cfgOk = true ∧ s.cfgErr = false ∧ s.closed = false))
      ∨ (i = .close ∧ s.closed = true) →
    exec i s = .next { s with
      status := s.status ||| 0x00000020#32
      srcIn := s.srcIn.drop i.payloadWords
      srcRx := if i.payloadWords ≤ s.srcIn.length then .header
               else .discard (i.payloadWords - s.srcIn.length) })
  ∧ (∀ (s : State) (ts : List Move) (n : Nat),
      s.turns = .src :: ts → s.capPhase = .ready → s.srcRx = .discard n →
      step s = .next { s with
        turns := ts
        srcIn := s.srcIn.drop n
        srcRx := if n ≤ s.srcIn.length then .header else .discard (n - s.srcIn.length) })

/-- R122: once a `CFG` has executed, no step but reset changes its outcome, the configuration registers or the band map. -/
def Obligations.ConfigurationIsWrittenAtMostOnce : Prop :=
  ∀ s t : State, (s.cfgOk = true ∨ s.cfgErr = true) → (takeTurn s).1 ≠ .reset → step s = .next t →
    t.cfgOk = s.cfgOk ∧ t.cfgErr = s.cfgErr ∧ t.errCause = s.errCause ∧ t.sampleRate = s.sampleRate
      ∧ t.channels = s.channels ∧ t.encoding = s.encoding ∧ t.fHi = s.fHi ∧ t.bandmap = s.bandmap

/-! ## The band map -/

/-- R200, R201: `NumF32.bandOfBin`, which compares integers only, is the real formula of the spec: the natural logarithm, the clamps,
and `round` with halves away from zero (log 10, log 12). -/
def Obligations.BandOfBinIsTheLogarithmicFormula : Prop :=
  ∀ rate i : Nat, 41 ≤ rate → i ≤ 512 →
    let f : ℝ := max ((i : ℝ) * rate / 1024) 20
    let fHi : ℝ := min ((rate : ℝ) / 2) 20000
    let t : ℝ := min (max (Real.log (f / 20) / Real.log (fHi / 20)) 0) 1
    NumF32.bandOfBin rate i = min ⌊t * 95 + 1 / 2⌋₊ 95

/-- R202 (a), (b), (c): the band map never decreases, starts at band 0 and ends at band 95; every bin at or above `F_HI` is in
band 95 and every bin at or below `F_LO` in band 0. Of the reference semantics' table, and of the one the machine writes, which
the default arithmetic computes and which has no other entries (log 10). -/
def Obligations.BandMapIsMonotoneAndAnchored : Prop :=
  ∀ rate : Nat, 41 ≤ rate →
    (∀ i j, i ≤ j → NumF32.bandOfBin rate i ≤ NumF32.bandOfBin rate j)
    ∧ NumF32.bandOfBin rate 0 = 0 ∧ NumF32.bandOfBin rate 512 = 95
    ∧ (∀ i, min rate 40000 * 1024 ≤ 2 * (i * rate) → NumF32.bandOfBin rate i = 95)
    ∧ (∀ i, i * rate ≤ 20 * 1024 → NumF32.bandOfBin rate i = 0)
    ∧ (rate < 2 ^ 32 →
      (∀ i j, i ≤ j → j ≤ 512 → dataF32.bandOfBin rate i ≤ dataF32.bandOfBin rate j)
      ∧ dataF32.bandOfBin rate 0 = 0 ∧ dataF32.bandOfBin rate 512 = 95
      ∧ (∀ i, i ≤ 512 → min rate 40000 * 1024 ≤ 2 * (i * rate) → dataF32.bandOfBin rate i = 95)
      ∧ (∀ i, i ≤ 512 → i * rate ≤ 20 * 1024 → dataF32.bandOfBin rate i = 0)
      ∧ (∀ b ∈ bandmapFor Params.default rate, b ≤ 95))

/-- R200, R209, R16: over the reals, the data path's own `band_of_bin` and `band_of_freq` are the integer ones, for every legal
rate (halves away from zero: log 12). -/
def Obligations.ReferenceBandMapIsTheExactOne : Prop :=
  ∀ rate : Nat, 41 ≤ rate →
    (∀ i, i ≤ 512 → dataReal.bandOfBin rate i = NumF32.bandOfBin rate i)
    ∧ (∀ num den : Nat, 0 < den →
        dataReal.bandOfFreq (dataReal.fHi rate) ((num : ℝ) / den) = NumF32.bandOfFreq rate num den)

/-- R200 at 48000 Hz, single entries (95_test_vectors.md section 3.2), R209 (section 3.3), and R202 (d): band 1 has no bin; and the
table the machine writes, in the default arithmetic, is the reference semantics' at 44100 Hz and at 48000 Hz (R200). -/
def Obligations.BandsAt48000AreTheTables : Prop :=
  ([0, 1, 2, 21, 32, 426, 427, 512].map (NumF32.bandOfBin 48000)) = [0, 12, 21, 54, 59, 95, 95, 95]
  ∧ ([10, 20, 25, 100, 440, 1000, 1500, 10000, 20000, 24000].map fun f => NumF32.bandOfFreq 48000 f 1)
      = [0, 0, 3, 22, 43, 54, 59, 85, 95, 95]
  ∧ (∀ i, NumF32.bandOfBin 48000 i ≠ 1)
  ∧ bandmapFor Params.default 48000 = (List.range 513).map (NumF32.bandOfBin 48000)
  ∧ bandmapFor Params.default 44100 = (List.range 513).map (NumF32.bandOfBin 44100)

/-! ## BATCH -/

/-- R96, R128, R142 to R146: a legal `BATCH` whose payload has arrived runs its first sub-step: `floor(n/C)` frames, each frame's
mono sample from its first two audio channels, the accumulators in frame order, and the level; the two publishes are due
next, and nothing else changes but the payload taken and the count of free values. Two choices of the model: the free value
of a NaN or infinite sample, which is `Config.freeSample` at the count of draws plus the sample's number (log 7), and the
corners of an encoding above 2 and of no channels, which no state with the invariant reaches (log 19). The model notes whether the
payload held an `F32` sample that is a NaN or an infinity (R153 b). -/
def Obligations.BatchDownmixesAndMeters : Prop :=
  ∀ (s : State) (n : Nat),
    s.capPhase = .ready → s.cfgOk = true → s.cfgErr = false → s.closed = false →
    n < 2 ^ 24 → n ≤ s.srcIn.length →
    ∃ t, exec (.batch n) s = .next t
      ∧ t.nframes.toNat = n / s.channels.toNat
      ∧ t.mono.length = n / s.channels.toNat
      ∧ (∀ k, k < n / s.channels.toNat → t.mono[k]? = some (
          let at0 := k * s.channels.toNat
          let left := conv s.encoding (s.srcIn.getD at0 0) (Config.freeSample (s.fresh + at0))
          let right := if 1 < s.channels.toNat
            then conv s.encoding (s.srcIn.getD (at0 + 1) 0) (Config.freeSample (s.fresh + at0 + 1)) else 0x00000000#32
          NumF32.mul 0x3F000000#32 (NumF32.add left right)))
      ∧ t.sumsq = t.mono.foldl (fun acc m => NumF32.add acc (NumF32.mul m m)) 0x00000000#32
      ∧ t.peak = t.mono.foldl (fun acc m => NumF32.max acc (NumF32.abs m)) 0x00000000#32
      ∧ t.level = (if n / s.channels.toNat = 0 then ⟨0x00000000#32, 0x00000000#32⟩
          else ⟨NumF32.sqrt (NumF32.div t.sumsq (NumF32.ofNat (n / s.channels.toNat))), t.peak⟩)
      ∧ t.strayed = (s.strayed || (s.encoding == 0 && (s.srcIn.take n).any fun w => !NumF32.isFinite w))
      ∧ t.capPhase = .pubLevel ∧ t.srcIn = s.srcIn.drop n ∧ t.srcRx = .header
      ∧ t = { s with
          nframes := t.nframes, mono := t.mono, sumsq := t.sumsq, peak := t.peak, level := t.level,
          capPhase := t.capPhase, strayed := t.strayed, srcIn := t.srcIn, srcRx := t.srcRx, fresh := t.fresh }

/-- R146: a batch with no complete frame gives the level (0, 0) and an empty mono batch, and its two publishes push both. -/
def Obligations.EmptyBatchStillPublishesZeroLevel : Prop :=
  ∀ (s : State) (n : Nat),
    s.capPhase = .ready → s.cfgOk = true → s.cfgErr = false → s.closed = false →
    n < s.channels.toNat → n ≤ s.srcIn.length → s.lq.length < 32 → s.fq.length < 16 →
    ∃ t, exec (.batch n) s = .next t ∧ t.level = ⟨0, 0⟩ ∧ t.mono = []
      ∧ (stepCap Params.default (stepCap Params.default t)).lq = s.lq ++ [⟨0, 0⟩] ∧ (stepCap Params.default (stepCap Params.default t)).fq = s.fq ++ [[]]
      ∧ (stepCap Params.default (stepCap Params.default t)).capPhase = .ready

/-- R96, R141: `CONV` of a 16-bit sample is exact: the signed, or the unsigned less 32768, over 32768, whatever bits 31:16 are;
a finite `F32` word is its own value. -/
def Obligations.SampleConversionIsExact : Prop :=
  ∀ (w : Word) (free : F32),
    (NumF32.isFinite (conv 1 w free) = true
      ∧ 32768 * NumF32.toInt (conv 1 w free) = (w.extractLsb' 0 16).toInt * (2 ^ 149 : Nat))
    ∧ (NumF32.isFinite (conv 2 w free) = true
      ∧ 32768 * NumF32.toInt (conv 2 w free) = ((w.extractLsb' 0 16).toNat - 32768 : Int) * (2 ^ 149 : Nat))
    ∧ (NumF32.isFinite w = true → conv 0 w free = w)

/-- R144, R145, R151 (d), of the default arithmetic (log 5): `rms` and `peak` of mono samples none of which is a NaN are not negative and
not a NaN. `peak` is finite where the samples are, and `rms` where the sum of their squares is (beyond binary32 each is the
infinity of R17 c); of samples in [−1, 1] both lie in [0, 1]. -/
def Obligations.LevelsAreNotNegative : Prop :=
  ∀ mono : List F32, (∀ m ∈ mono, NumF32.isNaN m = false) → mono.length < 2 ^ 24 →
    nonneg (levelOf Params.default mono).rms = true ∧ nonneg (levelOf Params.default mono).peak = true
    ∧ ((∀ m ∈ mono, NumF32.isFinite m = true) → NumF32.isFinite (levelOf Params.default mono).peak = true)
    ∧ (NumF32.isFinite (dataF32.sumSquares mono) = true → NumF32.isFinite (levelOf Params.default mono).rms = true)
    ∧ ((∀ m ∈ mono, normalized m = true) →
        NumF32.inUnit (levelOf Params.default mono).rms = true ∧ NumF32.inUnit (levelOf Params.default mono).peak = true)

/-- R148, R149, R129: the two publishes. Each completes whatever the FIFOs hold and whatever the other agents do; at a full FIFO
the new message is lost and the FIFO unchanged; no flag is set. -/
def Obligations.CapturePublishesNeverWait : Prop :=
  ∀ (s : State) (ts : List Move), s.turns = .cap :: ts →
    (s.capPhase = .pubLevel → step s = .next { s with
        turns := ts, lq := if s.lq.length < 32 then s.lq ++ [s.level] else s.lq, capPhase := .pubFrame })
    ∧ (s.capPhase = .pubFrame → step s = .next { s with
        turns := ts, fq := if s.fq.length < 16 then s.fq ++ [s.mono] else s.fq, capPhase := .ready })

/-! ## CLOSE -/

/-- R130: `CLOSE` with no batch in progress: on an open source it sets `CLOSED` and changes no FIFO content nor anything else; on a
closed one it raises `IllegalCommand`, which sets `ILL` and changes nothing else. -/
def Obligations.CloseSetsClosedOnly : Prop :=
  ∀ s : State, s.capPhase = .ready →
    (s.closed = false → exec .close s = .next { s with status := s.status ||| 0x00000004#32, srcRx := .header })
    ∧ (s.closed = true → exec .close s = .next { s with status := s.status ||| 0x00000020#32, srcRx := .header })

/-- R131, R120: in the closed state no turn of the source reaches a FIFO, the analyzer or a batch: every command is refused, so the
turn changes nothing but what port SRC has received and `ILL`. The premise on a held command is part of the invariant
(`PortInv.held`). -/
def Obligations.ClosedSourceFeedsNothing : Prop :=
  ∀ (s t : State) (ts : List Move),
    s.closed = true → s.capPhase = .ready → (∀ i, s.srcRx = .held i → i.port = .src) → s.turns = .src :: ts →
    step s = .next t →
    t = { s with turns := ts, srcIn := t.srcIn, srcRx := t.srcRx, status := t.status }
      ∧ (t.status = s.status ∨ t.status = s.status ||| 0x00000020#32)

/-! ## FIFOs -/

/-- R168: from an empty FIFO of capacity `cap`, after publishing `ms` with no pop, the FIFO holds the first `cap` of them. -/
def Obligations.SaturatedFifoKeepsTheFirst : Prop :=
  ∀ (α : Type) (cap : Nat) (ms : List α), ms.foldl (fifoTryPush cap) [] = ms.take cap

/-- R164: taking the latest answers the newest message and empties the FIFO, or answers none; it is popping until nothing is left
and keeping the last message. -/
def Obligations.TakeLatestIsDrainingByPops : Prop :=
  ∀ (α : Type) (q : List α) (m : α) (k : Nat), q.length ≤ k →
    fifoTakeLatest (q ++ [m]) = (some m, []) ∧ fifoTakeLatest ([] : List α) = (none, [])
    ∧ (fun acc : Option α × List α =>
      match fifoTryPop acc.2 with
      | (some m, rest) => (some m, rest)
      | (none, rest) => (acc.1, rest))^[k] (none, q) = fifoTakeLatest q

/-! ## The analyzer -/

/-- R176, R187: `ANA.RECV` takes one batch, appends it, and tests the loop. -/
def Obligations.ReceiveAppendsOneBatch : Prop :=
  ∀ (s : State) (ts : List Move) (batch : List F32) (rest : List (List F32)),
    s.turns = .ana :: ts → s.anaPhase = .wait → s.fq = batch :: rest →
    step s = .next { s with
      turns := ts, fq := rest, ring := s.ring ++ batch
      anaPhase := if 1024 ≤ s.ring.length + batch.length then .loop else .wait }

/-- R188: `ANA.EXIT`, and nothing else, ends the worker: it needs `WAIT`, an empty `FQ` and a closed source, sets `ANA_EXITED` and
leaves the ring and the filters. -/
def Obligations.ExitOnlyWhenClosedAndDrained : Prop :=
  (∀ (s : State) (ts : List Move),
    s.turns = .ana :: ts → s.anaPhase = .wait → s.fq = [] → s.closed = true →
    step s = .next { s with turns := ts, anaPhase := .exited, status := s.status ||| 0x00000008#32 })
  ∧ (∀ s t : State, step s = .next t → s.anaPhase ≠ .exited → t.anaPhase = .exited →
      s.anaPhase = .wait ∧ s.fq = [] ∧ s.closed = true ∧ t.ring = s.ring ∧ t.smDb = s.smDb ∧ t.smLin = s.smLin)

/-- R181, R186, R223, R225: `ANA.STEP` advances the filters, offers the snapshot to `SQ` (lost if `SQ` is full, the filters having
advanced all the same), drops 512 samples and tests the loop; nothing else changes. -/
def Obligations.AnalysisStepPublishesAndHops : Prop :=
  ∀ (s : State) (ts : List Move),
    s.turns = .ana :: ts → s.anaPhase = .loop → 1024 ≤ s.ring.length →
    ∃ snap : Snapshot, snap = analysis Params.default s.bandmap (s.ring.take 1024) s.smDb s.smLin
      ∧ step s = .next { s with
          turns := ts, smDb := snap.bands, smLin := snap.bandsLinear
          sq := if s.sq.length < 8 then s.sq ++ [snap] else s.sq
          ring := s.ring.drop 512
          anaPhase := if 1024 ≤ s.ring.length - 512 then .loop else .wait }

/-- R182 to R184, R203 to R206, R221, R222, in the default arithmetic (log 5, log 12): each band's two filters after an analysis
step, from the windowed transform of the extracted samples: the powers of the band's bins summed in ascending order, their mean
(0 of an empty band), its root, the two levels, and the filter. What becomes of a level that is a NaN is the model's choice
(`NumF32.outBand`, log 20). -/
def Obligations.AnalysisComputesEachBand : Prop :=
  ∀ (bandmap : List Nat) (x smDb smLin : List F32) (b : Nat), b < 96 →
    let bins := (NumF32.dft (List.zipWith NumF32.mul x (NumF32.window 1024))).map fun sums =>
      (NumF32.mul 0x3F800000#32 sums.1, NumF32.mul 0x3F800000#32 sums.2)
    let power := bins.map fun bin => NumF32.add (NumF32.mul bin.1 bin.1) (NumF32.mul bin.2 bin.2)
    let mine := (List.range power.length).filterMap fun i => if bandmap[i]? = some b then power[i]? else none
    let mean := if mine.length = 0 then 0x00000000#32
      else NumF32.div (mine.foldl NumF32.add 0x00000000#32) (NumF32.ofNat mine.length)
    let m := NumF32.sqrt mean
    let clamp := fun v => NumF32.min (NumF32.max v 0x00000000#32) 0x3F800000#32
    let newLin := NumF32.outBand x b .linear (clamp (NumF32.mul (NumF32.mul m 0x3E4CCCCD#32) 0x3F4CCCCD#32))
    let newDb := NumF32.outBand x b .db (if NumF32.lt 0x00000000#32 m then
        clamp (NumF32.div (NumF32.add (NumF32.mul 0x41A00000#32 (NumF32.log10 (NumF32.mul m 0x3E4CCCCD#32))) 0x42700000#32) 0x42700000#32)
      else 0x00000000#32)
    (analysis Params.default bandmap x smDb smLin).bands[b]?
        = some (NumF32.add (NumF32.mul 0x3F19999A#32 newDb)
            (NumF32.mul (NumF32.sub 0x3F800000#32 0x3F19999A#32) (smDb.getD b 0x00000000#32)))
      ∧ (analysis Params.default bandmap x smDb smLin).bandsLinear[b]?
        = some (NumF32.add (NumF32.mul 0x3F19999A#32 newLin)
            (NumF32.mul (NumF32.sub 0x3F800000#32 0x3F19999A#32) (smLin.getD b 0x00000000#32)))

/-- R203: every bin goes to exactly one band: a band's powers are those of the bins that the map puts in it, each once, in ascending
order, every bin is in one band and in no other, and the counts of the 96 bands sum to 513. -/
def Obligations.EveryBinIsInOneBand : Prop :=
  ∀ (bandmap : List Nat) (power : List F32), bandmap.length = 513 → (∀ b ∈ bandmap, b ≤ 95) → power.length = 513 →
    (∀ b, bandPowers bandmap power b
        = (List.range 513).filterMap fun i => if bandmap[i]? = some b then power[i]? else none)
    ∧ (∀ i, i < 513 → ∀ b, i ∈ bandPowers bandmap (List.range 513) b ↔ bandmap[i]? = some b)
    ∧ (∀ i, i < 513 → ∃ b, b < 96 ∧ (bandPowers bandmap (List.range 513) b).count i = 1)
    ∧ ((List.range 96).map fun b => (bandPowers bandmap power b).length).sum = 513

/-- R183, in the model's form of an arithmetic of unknown accuracy (log 9): the transform of `F` samples gives `F/2 + 1` bins; of an
all-zero input it is zero (`P_ZERO`, R18); of finite inputs whose magnitudes sum to less than 2^127 each component is the
arithmetic's answer within its open accuracy of the sum in fixed point, or the binary32 number nearest that sum. That sum is the
real one of R183, to within 2^−50 of the sum of the input's magnitudes, at every bin and both parts (a quarter turn gives `−sin`). -/
def Obligations.TransformApproximatesTheSums : Prop :=
  ∀ xw : List F32,
    (NumF32.dft xw).length = xw.length / 2 + 1
    ∧ (xw.all NumF32.isZero = true →
        NumF32.dft xw = List.replicate (xw.length / 2 + 1) (0x00000000#32, 0x00000000#32))
    ∧ (xw.all NumF32.isZero = false → xw.all NumF32.isFinite = true → (xw.map NumF32.mag).sum < 2 ^ 276 →
        ∀ k, k < xw.length / 2 + 1 → ∃ re im : F32, (NumF32.dft xw)[k]? = some (re, im)
          ∧ (IsNearestEven (NumF32.dftExact xw k 0) (2 ^ 160) re
              ∨ NumF32.isFinite re = true ∧ (NumF32.toInt re * (2 ^ 160 : Nat) - NumF32.dftExact xw k 0).natAbs * 2 ^ 24
                  ≤ Config.dftAccuracy * (xw.map NumF32.mag).sum * 2 ^ 160)
          ∧ (IsNearestEven (NumF32.dftExact xw k 1) (2 ^ 160) im
              ∨ NumF32.isFinite im = true ∧ (NumF32.toInt im * (2 ^ 160 : Nat) - NumF32.dftExact xw k 1).natAbs * 2 ^ 24
                  ≤ Config.dftAccuracy * (xw.map NumF32.mag).sum * 2 ^ 160))
    ∧ (∀ k quarter : Nat,
        |(NumF32.dftExact xw k quarter : ℝ) / 2 ^ 160
            - ∑ n ∈ Finset.range xw.length,
                (NumF32.toInt (xw.getD n 0) : ℝ) * Real.cos (2 * Real.pi * k * n / xw.length + quarter * Real.pi / 2)|
          ≤ ((xw.map NumF32.mag).sum : ℝ) / 2 ^ 50)

/-- R180: the window is symmetric, 0 at both ends, 1024 long, every coefficient lies in [0, 1], and each is the Hann formula's
value `0.5·(1 − cos(2πn/1023))` to within 2^−24 of that value and 2^−48. -/
def Obligations.WindowIsASymmetricTaper : Prop :=
  (NumF32.window 1024).length = 1024 ∧ (NumF32.window 1024)[0]? = some 0 ∧ (NumF32.window 1024)[1023]? = some 0
  ∧ (∀ n, n < 1024 → (NumF32.window 1024)[n]? = (NumF32.window 1024)[1023 - n]?)
  ∧ (∀ w ∈ (NumF32.window 1024), NumF32.inUnit w = true)
  ∧ (∀ n : Nat, n < 1024 → ∀ w, (NumF32.window 1024)[n]? = some w →
      |(NumF32.toInt w : ℝ) / 2 ^ 149 - 1 / 2 * (1 - Real.cos (2 * Real.pi * n / 1023))|
        ≤ 1 / 2 * (1 - Real.cos (2 * Real.pi * n / 1023)) / 2 ^ 24 + 1 / 2 ^ 48)

/-- R185, R268: `ANA.STEP` on fewer than 1024 samples aborts: the phase and `ANA_ABORTED`, and nothing else of the step. (No state
with the invariant takes it: `EveryStepKeepsTheInvariant`.) -/
def Obligations.ShortWindowAbortsTheAnalyzer : Prop :=
  ∀ (s : State) (ts : List Move), s.turns = .ana :: ts → s.anaPhase = .loop → s.ring.length < 1024 →
    step s = .next { s with turns := ts, anaPhase := .aborted, status := s.status ||| 0x00000010#32 }

/-- R189: from a waiting analyzer with `r` samples in the ring and batches of `S` samples in `FQ`, in any split, the analyzer's turns
alone take every batch in and perform `floor((r+S−1024)/512)+1` steps (none when `r+S < 1024`), leaving the ring 512 samples
shorter for each; every step offers one snapshot, so `SQ` gains one for each until it is full. -/
def Obligations.EmissionCountIsTheFormula : Prop :=
  ∀ (s : State) (ts : List Move) (total steps : Nat),
    s.anaPhase = .wait → s.ring.length < 1024 →
    total = s.ring.length + (s.fq.map List.length).sum →
    steps = (if total < 1024 then 0 else (total - 1024) / 512 + 1) →
    s.turns = List.replicate (s.fq.length + steps) .ana ++ ts →
    s.sq.length ≤ 8 →
    ∃ t, core.run (s.fq.length + steps) s = .next t ∧ t.anaPhase = .wait ∧ t.fq = [] ∧ t.turns = ts
      ∧ t.ring.length = total - 512 * steps ∧ t.sq.length = min 8 (s.sq.length + steps)

/-- R190: what an analysis step computes depends on the first 1024 samples, the filters and the band map alone: not on the rest of
the ring, the FIFOs, or anything else. -/
def Obligations.AnalysisDependsOnTheWindowOnly : Prop :=
  ∀ s₁ s₂ t₁ t₂ : State, s₁.anaPhase = .loop → s₂.anaPhase = .loop →
    1024 ≤ s₁.ring.length → 1024 ≤ s₂.ring.length → s₁.ring.take 1024 = s₂.ring.take 1024 →
    s₁.smDb = s₂.smDb → s₁.smLin = s₂.smLin → s₁.bandmap = s₂.bandmap →
    (takeTurn s₁).1 = .ana → (takeTurn s₂).1 = .ana → step s₁ = .next t₁ → step s₂ = .next t₂ →
    t₁.smDb = t₂.smDb ∧ t₁.smLin = t₂.smLin
      ∧ (s₁.sq = s₂.sq → t₁.sq = t₂.sq)

/-! ## The numbers -/

/-- R17 (c), D8, of the default arithmetic (log 5): `add`, `sub`, `mul` and `div` of finite operands, and `ofInt` of an integer, give, when
the exact result is below 2^128 − 2^103 in magnitude, the binary32 number nearest it, ties to even (beyond that:
`OverflowIsInfinityOfTheExactSign`). `ln` of a positive value is its natural logarithm to within 2^−24 of it and 2^−100 (log 10), and
`log10` of one above 0.001 its base-ten logarithm to within the open accuracy as well (log 8). -/
def Obligations.ElementaryOperationsRoundToNearest : Prop :=
  (∀ a b : F32, NumF32.isFinite a = true → NumF32.isFinite b = true →
    ((NumF32.toInt a + NumF32.toInt b).natAbs < overflowBound →
        IsNearestEven (NumF32.toInt a + NumF32.toInt b) 1 (NumF32.add a b))
    ∧ ((NumF32.toInt a - NumF32.toInt b).natAbs < overflowBound →
        IsNearestEven (NumF32.toInt a - NumF32.toInt b) 1 (NumF32.sub a b))
    ∧ ((NumF32.toInt a * NumF32.toInt b).natAbs < overflowBound * 2 ^ 149 →
        IsNearestEven (NumF32.toInt a * NumF32.toInt b) (2 ^ 149) (NumF32.mul a b))
    ∧ (NumF32.toInt b ≠ 0 →
        (NumF32.toInt a).natAbs * 2 ^ 149 < overflowBound * (NumF32.toInt b).natAbs →
        IsNearestEven (NumF32.toInt a * (2 ^ 149 : Nat) * (NumF32.toInt b).sign) (NumF32.toInt b).natAbs (NumF32.div a b))
    ∧ (0 < NumF32.toInt a →
        |(NumF32.toInt (NumF32.ln a) : ℝ) / 2 ^ 149 - Real.log (NumReal.ofImage a)|
          ≤ |Real.log (NumReal.ofImage a)| / 2 ^ 24 + 1 / 2 ^ 100)
    ∧ (2 ^ 149 < 1000 * NumF32.toInt a →
        |(NumF32.toInt (NumF32.log10 a) : ℝ) / 2 ^ 149 - Real.logb 10 (NumReal.ofImage a)|
          ≤ (Config.log10Accuracy + |Real.logb 10 (NumReal.ofImage a)|) / 2 ^ 24 + 1 / 2 ^ 100))
  ∧ ∀ z : Int, z.natAbs * 2 ^ 149 < overflowBound → IsNearestEven (z * (2 ^ 149 : Nat)) 1 (NumF32.ofInt z)

/-- R17 (c), of the default arithmetic (log 5): beyond the range of `ElementaryOperationsRoundToNearest` the results of `add`, `sub`,
`mul`, `div` and `ofInt` on finite operands are the infinity of the exact result's sign, as binary32 overflows; within it they are
finite and not of the opposite sign (a small enough one is 0). `max`, `min` and `abs` of finite operands, `sqrt` of one that is not
negative and `ln` of a positive one are finite; and so, by choices of the model where R17 leaves the accuracy open, are `log10` of
a positive one (log 8) and the transform of finite inputs whose magnitudes sum to less than 2^127 (log 9). Of `cos`, a free value
that no step evaluates (log 11), nothing is said. -/
def Obligations.OverflowIsInfinityOfTheExactSign : Prop :=
  (∀ a b : F32, NumF32.isFinite a = true → NumF32.isFinite b = true →
    KeepsRangeAndSign (NumF32.toInt a + NumF32.toInt b) 1 (NumF32.add a b)
    ∧ KeepsRangeAndSign (NumF32.toInt a - NumF32.toInt b) 1 (NumF32.sub a b)
    ∧ KeepsRangeAndSign (NumF32.toInt a * NumF32.toInt b) (2 ^ 149) (NumF32.mul a b)
    ∧ (NumF32.toInt b ≠ 0 →
        KeepsRangeAndSign (NumF32.toInt a * (2 ^ 149 : Nat) * (NumF32.toInt b).sign) (NumF32.toInt b).natAbs (NumF32.div a b))
    ∧ NumF32.isFinite (NumF32.max a b) = true ∧ NumF32.isFinite (NumF32.min a b) = true
    ∧ NumF32.isFinite (NumF32.abs a) = true
    ∧ (0 ≤ NumF32.toInt a → NumF32.isFinite (NumF32.sqrt a) = true)
    ∧ (0 < NumF32.toInt a → NumF32.isFinite (NumF32.log10 a) = true ∧ NumF32.isFinite (NumF32.ln a) = true))
  ∧ (∀ z : Int, KeepsRangeAndSign (z * (2 ^ 149 : Nat)) 1 (NumF32.ofInt z))
  ∧ (∀ xw : List F32, (∀ v ∈ xw, NumF32.isFinite v = true) → (xw.map NumF32.mag).sum < 2 ^ 276 →
      ∀ bin ∈ NumF32.dft xw, NumF32.isFinite bin.1 = true ∧ NumF32.isFinite bin.2 = true)

/-- R17 (c), D8, of the default arithmetic (log 5): `sqrt` of a finite value that is not negative gives the binary32 number nearest the
real root, not negative, ties to even. -/
def Obligations.SqrtRoundsToNearest : Prop :=
  ∀ a w : F32, NumF32.isFinite a = true → 0 ≤ NumF32.toInt a → NumF32.isFinite w = true →
    let off := fun v : F32 => |(NumF32.toInt v : ℝ) - Real.sqrt ((NumF32.toInt a : ℝ) * 2 ^ 149)|
    NumF32.isFinite (NumF32.sqrt a) = true ∧ 0 ≤ NumF32.toInt (NumF32.sqrt a)
    ∧ off (NumF32.sqrt a) ≤ off w
    ∧ (off w = off (NumF32.sqrt a) → NumF32.toInt w ≠ NumF32.toInt (NumF32.sqrt a) →
        (NumF32.sqrt a).getLsbD 0 = false)

/-- R18 `P_CONVEX`, R227, of the default arithmetic and constants (log 5, log 12): the filter of two values in [0, 1] gives a value in [0, 1]. -/
def Obligations.SmoothingKeepsTheUnitInterval : Prop :=
  ∀ new previous : F32, NumF32.inUnit new = true → NumF32.inUnit previous = true → NumF32.inUnit (dataF32.smooth new previous) = true

/-- R18 `P_CLAMP`, R205, R206, R207: both levels of a magnitude that is not a NaN lie in [0, 1]. -/
def Obligations.BandLevelsLieInTheUnitInterval : Prop :=
  ∀ m : F32, NumF32.isNaN m = false → NumF32.inUnit (dataF32.linearLevel m) = true ∧ NumF32.inUnit (dataF32.dbLevel m) = true

/-- R18 `P_DBFLOOR`: the dB window of an amplitude from 0 to 0.001 is 0, whatever the logarithm answers (log 8). -/
def Obligations.AmplitudesUpToTheFloorGiveZero : Prop :=
  ∀ y : F32, NumF32.isFinite y = true → 0 ≤ NumF32.toInt y → 1000 * NumF32.toInt y ≤ (2 ^ 149 : Nat) →
    NumF32.isZero (dataF32.dbOfAmplitude y) = true

/-- R226, `P_ZERO`: on an all-zero window every filter of both representations becomes `1 − ALPHA` times itself. -/
def Obligations.SilenceDecaysEveryFilter : Prop :=
  ∀ (bandmap : List Nat) (x smDb smLin : List F32) (b : Nat) (db lin : F32),
    x.length = 1024 → (∀ v ∈ x, NumF32.isZero v = true) → b < 96 → smDb[b]? = some db → smLin[b]? = some lin →
    NumF32.inUnit db = true → NumF32.inUnit lin = true →
    ∃ db' lin', (analysis Params.default bandmap x smDb smLin).bands[b]? = some db'
      ∧ (analysis Params.default bandmap x smDb smLin).bandsLinear[b]? = some lin'
      ∧ NumF32.toInt db' = NumF32.toInt (NumF32.mul 0x3ECCCCCC#32 db)
      ∧ NumF32.toInt lin' = NumF32.toInt (NumF32.mul 0x3ECCCCCC#32 lin)

/-- R145, R227, R38 (d), R30, R31: whoever moves, a step keeps every mono sample and every level not a NaN, every level not
negative, and every value of the filters and of the queued snapshots in [0, 1], when the samples the source's turn takes are
finite (R300, R153); and `strayed` stays false, which is when `Sends` asks for finite words
(R107). Where binary32 overflows, the last rests on a choice of the model: a band's new level that is a NaN then is
a free value in [0, 1] (log 20). R107, R151 (d): when the samples are in [−1, 1], so is every mono sample, and every level lies in
[0, 1], so that nothing that leaves the block is infinite. Of the machine that computes with real numbers every sample will do. -/
def Obligations.EveryStepKeepsTheDataInvariant : Prop :=
  (∀ s t : State, s.Inv Params.default → s.DataInv Range.f32 → s.InputMeets NumF32.isFinite → step s = .next t →
    t.DataInv Range.f32 ∧ (s.strayed = false → t.strayed = false))
  ∧ (∀ s t : State, s.Inv Params.default → s.DataInv Range.f32Normalized → s.InputMeets normalized → step s = .next t →
    t.DataInv Range.f32Normalized ∧ (s.strayed = false → t.strayed = false))
  ∧ (∀ s t : State ℝ, s.DataInv Range.real → stepAt Params.reference s = .next t → t.DataInv Range.real)

/-- R18: the named properties hold of the default arithmetic with its data path (log 5, log 8), and of the arithmetic of the
real numbers (log 26). -/
def Obligations.BothArithmeticsHaveTheNamedProperties : Prop :=
  NamedProperties dataF32 NumReal.ofImage (fun v => NumF32.isFinite v = true) (fun v => NumF32.isNaN v = false)
  ∧ NamedProperties dataReal id (fun _ => True) (fun _ => True)

/-- R16, R17 (d), R151 (b), R183, R228: of the data path over the real numbers, `0 ≤ rms ≤ peak`; the bins are the sums of R183, real and
imaginary part; and after steps with inputs `new 0 … new (k−1)` a filter that started at 0 holds
`Σ ALPHA·(1 − ALPHA)^(k−1−j)·new j`, which is `c·(1 − 0.4^k)` for a constant `c`. -/
def Obligations.ReferenceSemanticsHasTheDerivedProperties : Prop :=
  (∀ mono : List ℝ, mono ≠ [] →
    0 ≤ (levelOf Params.reference mono).rms
    ∧ (levelOf Params.reference mono).rms ≤ (levelOf Params.reference mono).peak)
  ∧ (∀ (xw : List ℝ) (k : Nat), k < xw.length / 2 + 1 →
    (dataReal.bins xw)[k]? = some
      (∑ n ∈ Finset.range xw.length, xw.getD n 0 * Real.cos (2 * Real.pi * k * n / xw.length),
       ∑ n ∈ Finset.range xw.length, xw.getD n 0 * -Real.sin (2 * Real.pi * k * n / xw.length)))
  ∧ (∀ (new : Nat → ℝ) (k : Nat),
    (List.range k).foldl (fun previous j => dataReal.smooth (new j) previous) 0
      = ∑ j ∈ Finset.range k, 6 / 10 * (4 / 10) ^ (k - 1 - j) * new j)
  ∧ (∀ (c : ℝ) (k : Nat),
    (List.range k).foldl (fun previous _ => dataReal.smooth c previous) 0 = c * (1 - (4 / 10) ^ k))

/-! ## Consumer commands -/

/-- R236, R99, R107: `LVL.POP` answers the oldest level and removes it, or answers "not valid" and changes nothing. The words are the
images of `rms` and `peak`; for one beyond binary32 R107 asks for a finite word, and which is the model's free value (log 27). -/
def Obligations.LevelPopAnswersTheOldest : Prop :=
  ∀ s : State,
    (∀ (rms peak : F32) (rest : List Level), s.lq = ⟨rms, peak⟩ :: rest →
      ∃ w₁ w₂ : Word, Sends s rms w₁ ∧ Sends s peak w₂
        ∧ exec .lvlPop s = .next { s with lq := rest, conOut := s.conOut ++ [0x00000001#32, w₁, w₂] })
    ∧ (s.lq = [] → exec .lvlPop s = .next { s with conOut := s.conOut ++ [0x00000000#32] })

/-- R237, R99, R107: `LVL.LATEST` answers the newest level and empties `LQ`, or answers "not valid"; the words are those of
`LevelPopAnswersTheOldest` (log 27). -/
def Obligations.LevelLatestAnswersTheNewest : Prop :=
  ∀ s : State,
    (∀ (rms peak : F32) (older : List Level), s.lq = older ++ [⟨rms, peak⟩] →
      ∃ w₁ w₂ : Word, Sends s rms w₁ ∧ Sends s peak w₂
        ∧ exec .lvlLatest s = .next { s with lq := [], conOut := s.conOut ++ [0x00000001#32, w₁, w₂] })
    ∧ (s.lq = [] → exec .lvlLatest s = .next { s with conOut := s.conOut ++ [0x00000000#32] })

/-- R238, R100, R107: `SPC.POP` answers the oldest snapshot, band 0 first, `bands` before `bands_linear`, 193 words, and removes it;
or answers "not valid". The words are the images of the values, finite ones where no sample has strayed (log 27). -/
def Obligations.SpectrumPopAnswersTheOldest : Prop :=
  ∀ s : State,
    (∀ (snap : Snapshot) (rest : List Snapshot), s.sq = snap :: rest →
      ∃ words, List.Forall₂ (Sends s) (snap.bands ++ snap.bandsLinear) words
        ∧ exec .spcPop s = .next { s with sq := rest, conOut := s.conOut ++ (0x00000001#32 :: words) }
        ∧ (snap.bands.length = 96 → snap.bandsLinear.length = 96 → (0x00000001#32 :: words).length = 193))
    ∧ (s.sq = [] → exec .spcPop s = .next { s with conOut := s.conOut ++ [0x00000000#32] })

/-- R239, R100, R107: `SPC.LATEST` answers the newest snapshot and empties `SQ`, or answers "not valid"; the words are those of
`SpectrumPopAnswersTheOldest` (log 27). -/
def Obligations.SpectrumLatestAnswersTheNewest : Prop :=
  ∀ s : State,
    (∀ (snap : Snapshot) (older : List Snapshot), s.sq = older ++ [snap] →
      ∃ words, List.Forall₂ (Sends s) (snap.bands ++ snap.bandsLinear) words
        ∧ exec .spcLatest s = .next { s with sq := [], conOut := s.conOut ++ (0x00000001#32 :: words) })
    ∧ (s.sq = [] → exec .spcLatest s = .next { s with conOut := s.conOut ++ [0x00000000#32] })

/-- R240, R33, R101: `RDREG r` for `r ≤ 16` answers the register's word and changes nothing else; a reserved number sends no
response and sets `ILL`. -/
def Obligations.ReadRegisterAnswersTheTable : Prop :=
  ∀ (s : State) (r : Nat),
    (∀ w : Word,
      [s.status, s.sampleRate, s.channels.zeroExtend 32, s.encoding.zeroExtend 32, 0x00000400#32, 0x00000200#32,
        0x00000060#32, 0x41A00000#32, s.fHi, 0x3F19999A#32, 0x3E4CCCCD#32, 0x3F4CCCCD#32, 0x42700000#32,
        0x00000020#32, 0x00000010#32, 0x00000008#32, 0x469C4000#32][r]? = some w →
      exec (.rdreg r) s = .next { s with conOut := s.conOut ++ [w] })
    ∧ (16 < r → exec (.rdreg r) s = .next { s with status := s.status ||| 0x00000020#32 })

/-- R235: every consumer command completes in every state and changes nothing but the FIFO it reads, the response and, for a
reserved register alone, `ILL`; what is left of a FIFO is a part of what it held. -/
def Obligations.ConsumerCommandsTouchOnlyTheirFifo : Prop :=
  ∀ (s : State) (i : Instr), i.port = .con →
    ∃ t, exec i s = .next t
      ∧ t = { s with lq := t.lq, sq := t.sq, conOut := t.conOut, status := t.status }
      ∧ (∃ k, t.lq = s.lq.drop k) ∧ (∃ k, t.sq = s.sq.drop k) ∧ (∃ ws, t.conOut = s.conOut ++ ws)
      ∧ (t.lq ≠ s.lq → i = .lvlPop ∨ i = .lvlLatest) ∧ (t.sq ≠ s.sq → i = .spcPop ∨ i = .spcLatest)
      ∧ (t.status ≠ s.status → t.status = s.status ||| 0x00000020#32 ∧ ∃ r, i = .rdreg r ∧ 16 < r)

/-! ## Whole-machine rules -/

/-- R269, R32: no step but reset clears a flag; once a configuration error is latched its cause stays. -/
def Obligations.FlagsAreStickyUntilReset : Prop :=
  ∀ s t : State, (takeTurn s).1 ≠ .reset → step s = .next t →
    (s.cfgErr = true → t.cfgErr = true) ∧ (s.anaAborted = true → t.anaAborted = true)
    ∧ (s.anaExited = true → t.anaExited = true) ∧ (s.closed = true → t.closed = true) ∧ (s.ill = true → t.ill = true)
    ∧ (s.cfgOk = true → t.cfgOk = true) ∧ (s.cfgErr = true → t.errCause = s.errCause)

/-- R4, R271: data flows one way. The consumer writes no state of the capture context or the analyzer, the analyzer none of the
capture context, and the source's own turn reads nothing out and touches neither the analyzer's samples and filters nor a
FIFO (its premise on a held command is part of the invariant, `PortInv.held`). -/
def Obligations.DataFlowsOneWay : Prop :=
  ∀ s t : State, step s = .next t →
    ((takeTurn s).1 = .con →
      t = { s with lq := t.lq, sq := t.sq, conOut := t.conOut, status := t.status, conIn := t.conIn
                   turns := t.turns, fresh := t.fresh })
    ∧ ((takeTurn s).1 = .ana →
      t = { s with fq := t.fq, ring := t.ring, smDb := t.smDb, smLin := t.smLin, sq := t.sq
                   anaPhase := t.anaPhase, status := t.status, turns := t.turns, fresh := t.fresh })
    ∧ ((takeTurn s).1 = .src → (∀ i, s.srcRx = .held i → i.port = .src) →
      t.conOut = s.conOut ∧ t.conIn = s.conIn ∧ t.lq = s.lq ∧ t.fq = s.fq ∧ t.sq = s.sq ∧ t.ring = s.ring
        ∧ t.smDb = s.smDb ∧ t.smLin = s.smLin)

/-- R165, R276, R309: a turn of the capture context or of the analyzer leaves the state exactly when that agent has no enabled
step. So a waiting analyzer is woken by a batch in `FQ` or by `CLOSE`, and by nothing else. The rules say when there is no step;
that such a turn leaves the state is the model's choice (log 3). -/
def Obligations.DisabledAgentsDoNothing : Prop :=
  ∀ s : State, (stepCap Params.default s = s ↔ s.capEnabled = false)
    ∧ (stepAna Params.default s = s ↔ s.anaEnabled = false)

/-- R120, R19: while a batch is in progress no command can start, and the two capture turns that are due make port SRC ready again.
That a source turn then changes nothing but the schedule is the model's choice (log 3). -/
def Obligations.SourceWaitsForTheBatch : Prop :=
  ∀ (s : State) (ts : List Move), s.capPhase ≠ .ready →
    (s.turns = .src :: ts → step s = .next { s with turns := ts }) ∧ (stepCap Params.default (stepCap Params.default s)).capPhase ≠ .pubLevel
      ∧ ((stepCap Params.default s).capPhase = .ready
        ∨ (stepCap Params.default (stepCap Params.default s)).capPhase = .ready)

/-- R9, R11, R13, R17 (b), R36: the parameters are arguments of the step, over any type of values. `step` is the one with the defaults: `F`
1024 and `B` 96, 32, 16 and 8 messages, and `NUM_F32` with its data path. Under any parameters the publishes and `RDREG` go by the
given sizes, constants and capacities, `CFG`, `BATCH`, the analyzer's steps and the valid responses of the four level and spectrum
commands by the given data path, and reset by its sizes and `SMOOTH_INIT`. The least rate `CFG` takes is an argument of its own,
`minRate`: R123 (c) gives 41 for `F_LO` = 20, and that a model takes it beside `F_LO` is this model's choice (log 12). The words of a response
are those of `LevelPopAnswersTheOldest` and `SpectrumPopAnswersTheOldest`, of the values' images (log 27). -/
def Obligations.ParametersGovernTheStep : Prop :=
  (∀ s : State, step s = stepAt Params.default s) ∧ (∀ (i : Instr) (s : State), exec i s = execAt Params.default i s)
  ∧ Params.default = ⟨dataF32, 41, 32, 16, 8⟩ ∧ dataF32.num = numF32 ∧ dataF32.fftSize = 1024 ∧ dataF32.bands = 96
  ∧ ∀ (α : Type) (p : Params α) (s : State α) (ts : List Move),
    (s.turns = .cap :: ts → s.capPhase = .pubLevel → stepAt p s = .next { s with
        turns := ts, lq := if s.lq.length < p.capLevel then s.lq ++ [s.level] else s.lq, capPhase := .pubFrame })
    ∧ (s.turns = .cap :: ts → s.capPhase = .pubFrame → stepAt p s = .next { s with
        turns := ts, fq := if s.fq.length < p.capFrame then s.fq ++ [s.mono] else s.fq, capPhase := .ready })
    ∧ (∀ batch rest, s.turns = .ana :: ts → s.anaPhase = .wait → s.fq = batch :: rest → stepAt p s = .next { s with
        turns := ts, fq := rest, ring := s.ring ++ batch
        anaPhase := if p.data.fftSize ≤ s.ring.length + batch.length then .loop else .wait })
    ∧ (s.turns = .ana :: ts → s.anaPhase = .loop → p.data.fftSize ≤ s.ring.length →
        ∃ db lin, (db, lin) = p.data.analysis s.bandmap (s.ring.take p.data.fftSize) s.smDb s.smLin
          ∧ stepAt p s = .next { s with
              turns := ts, smDb := db, smLin := lin
              sq := if s.sq.length < p.capSpec then s.sq ++ [⟨db, lin⟩] else s.sq
              ring := s.ring.drop (p.data.fftSize / 2)
              anaPhase := if p.data.fftSize ≤ s.ring.length - p.data.fftSize / 2 then .loop else .wait })
    ∧ (s.turns = .reset :: ts → ∃ t, stepAt p s = .next t
        ∧ t.bandmap = List.replicate (p.data.fftSize / 2 + 1) 0
        ∧ t.smDb = List.replicate p.data.bands p.data.smoothInit ∧ t.smLin = List.replicate p.data.bands p.data.smoothInit)
    ∧ (∀ (r : Nat) (w : Word),
        [s.status, s.sampleRate, s.channels.zeroExtend 32, s.encoding.zeroExtend 32, BitVec.ofNat 32 p.data.fftSize,
          BitVec.ofNat 32 (p.data.fftSize / 2), BitVec.ofNat 32 p.data.bands, p.data.image p.data.fLo, p.data.image s.fHi,
          p.data.image p.data.alpha, p.data.image p.data.gain, p.data.image p.data.linScale, p.data.image p.data.dbWindow,
          BitVec.ofNat 32 p.capLevel, BitVec.ofNat 32 p.capFrame, BitVec.ofNat 32 p.capSpec,
          p.data.image p.data.fHiMax][r]? = some w →
        execAt p (.rdreg r) s = .next { s with conOut := s.conOut ++ [w] })
    ∧ (∀ (rms peak : α) (rest : List (Level α)), s.lq = ⟨rms, peak⟩ :: rest →
        ∃ w₁ w₂, Sends s (p.data.image rms) w₁ ∧ Sends s (p.data.image peak) w₂
          ∧ execAt p .lvlPop s = .next { s with lq := rest, conOut := s.conOut ++ [0x00000001#32, w₁, w₂] })
    ∧ (∀ (rms peak : α) (older : List (Level α)), s.lq = older ++ [⟨rms, peak⟩] →
        ∃ w₁ w₂, Sends s (p.data.image rms) w₁ ∧ Sends s (p.data.image peak) w₂
          ∧ execAt p .lvlLatest s = .next { s with lq := [], conOut := s.conOut ++ [0x00000001#32, w₁, w₂] })
    ∧ (∀ (snap : Snapshot α) (rest : List (Snapshot α)), s.sq = snap :: rest →
        ∃ words, List.Forall₂ (Sends s) ((snap.bands ++ snap.bandsLinear).map p.data.image) words
          ∧ execAt p .spcPop s = .next { s with sq := rest, conOut := s.conOut ++ (0x00000001#32 :: words) })
    ∧ (∀ (snap : Snapshot α) (older : List (Snapshot α)), s.sq = older ++ [snap] →
        ∃ words, List.Forall₂ (Sends s) ((snap.bands ++ snap.bandsLinear).map p.data.image) words
          ∧ execAt p .spcLatest s = .next { s with sq := [], conOut := s.conOut ++ (0x00000001#32 :: words) })
    ∧ (∀ (channels enc : Nat) (rate : Word) (rest : List Word),
        s.capPhase = .ready → s.cfgOk = false → s.cfgErr = false → s.closed = false → s.srcIn = rate :: rest →
        enc ≤ 2 → 0 < channels →
        (p.minRate ≤ rate.toNat → ∃ t, execAt p (.cfg channels enc) s = .next t ∧ t.fHi = p.data.fHi rate.toNat
          ∧ t.bandmap = (List.range (p.data.fftSize / 2 + 1)).map (p.data.bandOfBin rate.toNat))
        ∧ (rate.toNat < p.minRate → execAt p (.cfg channels enc) s = .next { s with
            srcIn := rest, srcRx := .header
            status := ((s.status ||| 0x00000002#32) &&& 0xFFFFF0FF#32) ||| 0x00000300#32 }))
    ∧ (∀ n : Nat, s.capPhase = .ready → s.cfgOk = true → s.cfgErr = false → s.closed = false → n ≤ s.srcIn.length →
        ∃ t, execAt p (.batch n) s = .next t
          ∧ t.mono.length = n / s.channels.toNat
          ∧ (∀ k, k < n / s.channels.toNat → t.mono[k]? = some
              (p.data.dmxFrame s.channels.toNat s.encoding (s.fresh + k * s.channels.toNat)
                ((s.srcIn.take n).drop (k * s.channels.toNat))))
          ∧ t.level = levelOf p t.mono)

/-! ## Fair runs -/

/-- R19, R128, R129, D35: in a fair run in which no reset comes, a batch in progress is published: its level, then its mono batch, each
pushed if there is room, whatever the other parties do. -/
def Obligations.BatchInProgressIsPublished : Prop :=
  ∀ (r : Nat → State) (k : Nat), IsRun r → WeaklyFair r → (∀ j, k ≤ j → moverAt r j ≠ .reset) →
    ((r k).capPhase = .pubLevel → ∃ j, k ≤ j ∧ (r j).capPhase = .pubLevel
      ∧ (r (j + 1)).lq = (if (r j).lq.length < 32 then (r j).lq ++ [(r k).level] else (r j).lq)
      ∧ (r (j + 1)).capPhase = .pubFrame ∧ (r (j + 1)).mono = (r k).mono)
    ∧ ((r k).capPhase = .pubFrame → ∃ j, k ≤ j ∧ (r j).capPhase = .pubFrame
      ∧ (r (j + 1)).fq = (if (r j).fq.length < 16 then (r j).fq ++ [(r k).mono] else (r j).fq)
      ∧ (r (j + 1)).capPhase = .ready)

/-- R19, R188, D35: in a fair run in which no reset comes, once a configured source is closed the analyzer exits, with every queued
batch received and less than one window left in the ring. -/
def Obligations.ClosedAnalyzerExits : Prop :=
  ∀ (r : Nat → State) (k : Nat), IsRun r → WeaklyFair r → (∀ j, k ≤ j → moverAt r j ≠ .reset) →
    (r k).Inv Params.default → (r k).cfgOk = true → (r k).closed = true →
    ∃ j, k ≤ j ∧ (r j).anaPhase = .exited ∧ (r j).anaExited = true ∧ (r j).fq = [] ∧ (r j).ring.length < 1024
end

