-- ==== Sys2Proof/Laws/Decode.lean ====
section
/-! SUPPORT. The decoder's and the encoder's words read as numbers, and what a decoded command's port and operands are. -/

namespace Sys2Proof

/-- A field as a quotient and a remainder of the word's number. -/
theorem field_eq (w : Word) (lo len : Nat) : field w lo len = w.toNat / 2 ^ lo % 2 ^ len := by
  simp [field, BitVec.extractLsb'_toNat, Nat.shiftRight_eq_div_pow]

theorem field_lt (w : Word) (lo len : Nat) : field w lo len < 2 ^ len := by
  rw [field_eq]; exact Nat.mod_lt _ (by positivity)

/-- A header as a number. -/
theorem header_toNat {op a : Nat} (hop : op < 2 ^ 8) (ha : a < 2 ^ 24) : (header op a).toNat = op * 2 ^ 24 + a := by
  simp only [header, BitVec.toNat_ofNat]; omega

/-- A word is the header of its two parts. -/
theorem header_of_toNat {w : Word} {op a : Nat} (h : w.toNat = op * 2 ^ 24 + a) : header op a = w := by
  rw [header, ← h]; simp

/-- A decoded header's command belongs to the port it was decoded on (R108). -/
theorem decode_port {p : Port} {w : Word} {i : Instr} (h : decode p w = .ok i) : i.port = p := by
  unfold decode at h
  split at h
  · cases h
  · split at h
    · cases h; assumption
    · cases h

/-- What `decode` answers is what `decodeHeader` answers. -/
theorem decodeHeader_of_decode {p : Port} {w : Word} {i : Instr} (h : decode p w = .ok i) : decodeHeader w = .ok i := by
  unfold decode at h
  split at h
  · cases h
  · split at h
    · cases h; assumption
    · cases h

/-- Every operand of a decoded command fits its field. -/
theorem decodeHeader_wellFormed {w : Word} {i : Instr} (h : decodeHeader w = .ok i) : i.wellFormed = true := by
  have h16 := field_lt w 8 16
  have h8 := field_lt w 0 8
  have h24 := field_lt w 0 24
  unfold decodeHeader bareCommand at h
  split at h
  all_goals try split at h
  all_goals first | contradiction | (cases h; simp only [Instr.wellFormed, h16, h8, h24, decide_true, Bool.and_self])

theorem decode_wellFormed {p : Port} {w : Word} {i : Instr} (h : decode p w = .ok i) : i.wellFormed = true :=
  decodeHeader_wellFormed (decodeHeader_of_decode h)

/-- A well-formed command's payload is at most `NMAX` words long (R89, R90). -/
theorem payloadWords_le {i : Instr} (h : i.wellFormed = true) : i.payloadWords ≤ 16777215 := by
  cases i <;> simp_all [Instr.wellFormed, Instr.payloadWords]
  omega

end Sys2Proof
end

