-- ==== Sys2Proof/Laws/Defaults.lean ====
section
/-! SUPPORT. The default data path, field by field: its operations are those of `NUM_F32` and its constants the images of R33, so
that a claim over the default arithmetic never unfolds a record. -/

namespace Sys2Proof

@[simp] theorem dataF32_add : dataF32.num.add = NumF32.add := rfl
@[simp] theorem dataF32_sub : dataF32.num.sub = NumF32.sub := rfl
@[simp] theorem dataF32_mul : dataF32.num.mul = NumF32.mul := rfl
@[simp] theorem dataF32_div : dataF32.num.div = NumF32.div := rfl
@[simp] theorem dataF32_sqrt : dataF32.num.sqrt = NumF32.sqrt := rfl
@[simp] theorem dataF32_abs : dataF32.num.abs = NumF32.abs := rfl
@[simp] theorem dataF32_max : dataF32.num.max = NumF32.max := rfl
@[simp] theorem dataF32_min : dataF32.num.min = NumF32.min := rfl
@[simp] theorem dataF32_lt : dataF32.num.lt = NumF32.lt := rfl
@[simp] theorem dataF32_log10 : dataF32.num.log10 = NumF32.log10 := rfl
@[simp] theorem dataF32_ln : dataF32.num.ln = NumF32.ln := rfl
@[simp] theorem dataF32_ofInt : dataF32.num.ofInt = NumF32.ofInt := rfl
@[simp] theorem dataF32_dft : dataF32.num.dft = NumF32.dft := rfl
@[simp] theorem dataF32_round : dataF32.round = NumF32.round := rfl
@[simp] theorem dataF32_conv : dataF32.conv = Machine.conv := rfl
@[simp] theorem dataF32_fftSize : dataF32.fftSize = 1024 := rfl
@[simp] theorem dataF32_hop : dataF32.hop = 512 := rfl
@[simp] theorem dataF32_nbins : dataF32.nbins = 513 := rfl
@[simp] theorem dataF32_ringCap : dataF32.ringCap = 16778238 := rfl
@[simp] theorem dataF32_bands : dataF32.bands = 96 := rfl
@[simp] theorem dataF32_freeSample : dataF32.freeSample = Config.freeSample := rfl
@[simp] theorem dataF32_outBand : dataF32.outBand = NumF32.outBand := rfl
@[simp] theorem dataF32_image (v : F32) : dataF32.image v = v := rfl
@[simp] theorem dataF32_window : dataF32.window = NumF32.window 1024 := by rw [dataF32]
@[simp] theorem dataF32_fftScale : dataF32.fftScale = 0x3F800000#32 := rfl
@[simp] theorem dataF32_smoothInit : dataF32.smoothInit = 0x00000000#32 := rfl
@[simp] theorem dataF32_fLo : dataF32.fLo = 0x41A00000#32 := rfl
@[simp] theorem dataF32_fHiMax : dataF32.fHiMax = 0x469C4000#32 := rfl
@[simp] theorem dataF32_alpha : dataF32.alpha = 0x3F19999A#32 := rfl
@[simp] theorem dataF32_gain : dataF32.gain = 0x3E4CCCCD#32 := rfl
@[simp] theorem dataF32_linScale : dataF32.linScale = 0x3F4CCCCD#32 := rfl
@[simp] theorem dataF32_dbWindow : dataF32.dbWindow = 0x42700000#32 := rfl
@[simp] theorem dataF32_zero : dataF32.zero = 0x00000000#32 := by decide +kernel
@[simp] theorem dataF32_one : dataF32.one = 0x3F800000#32 := by decide +kernel
@[simp] theorem dataF32_half : dataF32.half = 0x3F000000#32 := by decide +kernel
@[simp] theorem dataF32_twenty : NumF32.ofInt 20 = 0x41A00000#32 := by decide +kernel
/-- `1 − ALPHA` as a binary32 difference (D8). -/
@[simp] theorem dataF32_beta : NumF32.sub 0x3F800000#32 0x3F19999A#32 = 0x3ECCCCCC#32 := by decide +kernel

@[simp] theorem default_data : Params.default.data = dataF32 := rfl
@[simp] theorem default_minRate : Params.default.minRate = 41 := rfl
@[simp] theorem default_capLevel : Params.default.capLevel = 32 := rfl
@[simp] theorem default_capFrame : Params.default.capFrame = 16 := rfl
@[simp] theorem default_capSpec : Params.default.capSpec = 8 := rfl

/-- The machine's own reset state is the one of the default parameters. -/
@[simp] theorem Machine.State.resetAt_default : Machine.State.resetAt Params.default = Machine.State.reset := by
  rw [Machine.State.resetAt, Machine.State.reset]
  simp only [default_data, dataF32_zero, dataF32_smoothInit, dataF32_bands, dataF32_nbins]
  rfl

end Sys2Proof
end

