-- ==== Sys2Proof/Laws/Num.lean ====
section
/-! SUPPORT. The arithmetic: reading an image back, and what rounding gives (nearest, monotone, exact on what binary32 holds).
Every numeric claim rests on these and unfolds no operation's rounding again. -/

namespace Sys2Proof.NumF32

/-! ## Images -/

/-- The magnitude, in quanta, of the finite value whose image without sign is `m`. -/
def magImg (m : Nat) : Nat := if m / 2 ^ 23 = 0 then m else (2 ^ 23 + m % 2 ^ 23) * 2 ^ (m / 2 ^ 23 - 1)

theorem expo_pack (neg : Bool) {m : Nat} (h : m < 2 ^ 31) : expo (pack neg m) = m / 2 ^ 23 := by
  cases neg <;> simp [expo, pack, Nat.shiftRight_eq_div_pow] <;> omega

theorem frac_pack (neg : Bool) (m : Nat) : frac (pack neg m) = m % 2 ^ 23 := by
  cases neg
  · simp [frac, pack]
  · simp [frac, pack]; omega

theorem sign_pack (neg : Bool) {m : Nat} (h : m < 2 ^ 31) : sign (pack neg m) = neg := by
  cases neg
  · simp only [sign, pack, BitVec.getLsbD_ofNat]
    simp only [Bool.false_eq_true, if_false]
    rw [Nat.testBit_lt_two_pow h]; rfl
  · simp only [sign, pack, BitVec.getLsbD_ofNat, if_true]
    rw [Nat.testBit_two_pow_add_eq, Nat.testBit_lt_two_pow h]; rfl

theorem mag_pack (neg : Bool) {m : Nat} (h : m < 2 ^ 31) : mag (pack neg m) = magImg m := by
  unfold mag magImg
  rw [expo_pack neg h, frac_pack neg]
  split
  · rename_i h0
    rw [Nat.mod_eq_of_lt]; omega
  · rfl

theorem isFinite_pack (neg : Bool) {m : Nat} (h : m < 0x7F800000) : isFinite (pack neg m) = true := by
  have : expo (pack neg m) = m / 2 ^ 23 := expo_pack neg (by omega)
  simp [isFinite, this]; omega

/-- An image is its sign and the image without sign. -/
theorem eq_pack (a : F32) : a = pack (sign a) (a.toNat % 2 ^ 31) := by
  apply BitVec.eq_of_toNat_eq
  have hlt := a.isLt
  have hs : sign a = decide (2 ^ 31 ≤ a.toNat) := by
    simp only [sign, BitVec.getLsbD]
    rw [Nat.testBit_eq_decide_div_mod_eq]
    congr 1
    simp only [eq_iff_iff]
    omega
  unfold pack
  rw [hs]
  rw [BitVec.toNat_ofNat]
  by_cases h : 2 ^ 31 ≤ a.toNat
  · rw [decide_eq_true h, if_pos rfl]; omega
  · rw [decide_eq_false h, if_neg (by decide)]; omega

theorem mag_eq (a : F32) : mag a = magImg (a.toNat % 2 ^ 31) := by
  conv_lhs => rw [eq_pack a]
  exact mag_pack _ (Nat.mod_lt _ (by decide))

theorem isFinite_iff (a : F32) : isFinite a = true ↔ a.toNat % 2 ^ 31 < 0x7F800000 := by
  have h1 : a.toNat % 2 ^ 31 < 2 ^ 31 := Nat.mod_lt _ (by decide)
  have h2 : expo a = a.toNat % 2 ^ 31 / 2 ^ 23 := by
    conv_lhs => rw [eq_pack a]
    exact expo_pack _ h1
  simp [isFinite, h2]; omega

theorem magImg_mul (k r : Nat) (hr : r ≤ 2 ^ 24) (hk : k = 0 ∨ 2 ^ 23 ≤ r) :
    magImg (k * 2 ^ 23 + r) = r * 2 ^ k := by
  unfold magImg
  by_cases hlt : r < 2 ^ 23
  · have : k = 0 := by omega
    subst this
    rw [if_pos (by omega)]; simp
  · by_cases heq : r = 2 ^ 24
    · subst heq
      have h1 : (k * 2 ^ 23 + 2 ^ 24) / 2 ^ 23 = k + 2 := by omega
      have h2 : (k * 2 ^ 23 + 2 ^ 24) % 2 ^ 23 = 0 := by omega
      rw [h1, h2, if_neg (by omega)]
      simp [pow_succ]; ring
    · have h1 : (k * 2 ^ 23 + r) / 2 ^ 23 = k + 1 := by omega
      have h2 : (k * 2 ^ 23 + r) % 2 ^ 23 = r - 2 ^ 23 := by omega
      rw [h1, h2, if_neg (by omega)]
      have : 2 ^ 23 + (r - 2 ^ 23) = r := by omega
      rw [this, Nat.add_sub_cancel]

/-- The normal form of an image: exponent and significand. -/
theorem image_split (m : Nat) : ∃ k r, m = k * 2 ^ 23 + r ∧ r < 2 ^ 24 ∧ (k = 0 ∨ 2 ^ 23 ≤ r) := by
  by_cases h : m < 2 ^ 24
  · exact ⟨0, m, by omega, h, .inl rfl⟩
  · exact ⟨m / 2 ^ 23 - 1, m % 2 ^ 23 + 2 ^ 23, by omega, by omega, .inr (by omega)⟩

theorem magImg_lt_succ (m : Nat) : magImg m < magImg (m + 1) := by
  obtain ⟨k, r, rfl, hr, hk⟩ := image_split m
  rw [magImg_mul k r hr.le hk, add_assoc, magImg_mul k (r + 1) (by omega) (by omega)]
  exact Nat.mul_lt_mul_of_pos_right (by omega) (by positivity)

theorem magImg_strictMono : StrictMono magImg := strictMono_nat_of_lt_succ magImg_lt_succ

/-! ## Rounding to an integer -/

/-- The rounded integer is within half a unit, and even at a tie. -/
theorem roundEven_spec (num den : Nat) (hd : 0 < den) :
    2 * num ≤ (2 * roundEven num den + 1) * den ∧ 2 * roundEven num den * den ≤ 2 * num + den
      ∧ ((2 * num = (2 * roundEven num den + 1) * den ∨ 2 * roundEven num den * den = 2 * num + den)
          → roundEven num den % 2 = 0) := by
  have hdiv := Nat.div_add_mod num den
  have hmod := Nat.mod_lt num hd
  unfold roundEven
  generalize num / den = q at *
  generalize num % den = r at *
  subst hdiv
  simp only
  split
  · refine ⟨by nlinarith, by nlinarith, fun h => ?_⟩
    rcases h with h | h <;> exfalso <;> nlinarith
  · split
    · refine ⟨by nlinarith, by nlinarith, fun h => ?_⟩
      rcases h with h | h <;> exfalso <;> nlinarith
    · have hr : 2 * r = den := by omega
      rcases Nat.mod_two_eq_zero_or_one q with h2 | h2 <;> rw [h2]
      · refine ⟨by nlinarith, by nlinarith, fun _ => by omega⟩
      · refine ⟨by nlinarith, by nlinarith, fun _ => by omega⟩

theorem roundEven_mono {num den num' den' : Nat} (hd : 0 < den) (hd' : 0 < den')
    (h : num * den' ≤ num' * den) : roundEven num den ≤ roundEven num' den' := by
  obtain ⟨-, h2, h3⟩ := roundEven_spec num den hd
  obtain ⟨h1', -, h3'⟩ := roundEven_spec num' den' hd'
  generalize roundEven num den = R at *
  generalize roundEven num' den' = R' at *
  by_contra hlt
  have hR : R' + 1 ≤ R := by omega
  -- both are ties, at the same half-integer, so both are even
  have a1 : (2 * R' + 1) * den * den' ≤ (2 * R - 1) * den * den' := by
    apply Nat.mul_le_mul_right; apply Nat.mul_le_mul_right; omega
  have a2 : (2 * R - 1) * den ≤ 2 * num := by
    have : (2 * R - 1) * den + den = 2 * R * den := by
      rw [← Nat.succ_mul]; congr 1; omega
    omega
  have a3 : (2 * R - 1) * den * den' ≤ 2 * num * den' := Nat.mul_le_mul_right _ a2
  have a4 : 2 * num * den' ≤ 2 * num' * den := by nlinarith
  have a5 : 2 * num' * den ≤ (2 * R' + 1) * den' * den := Nat.mul_le_mul_right _ h1'
  have e : (2 * R' + 1) * den' * den = (2 * R' + 1) * den * den' := by ring
  have e1 : 2 * num * den' = (2 * R - 1) * den * den' := by omega
  have e2 : 2 * num' * den = (2 * R' + 1) * den' * den := by omega
  have e3 : (2 * R - 1) * den * den' = (2 * R' + 1) * den * den' := by omega
  have t1 : 2 * num = (2 * R - 1) * den := Nat.eq_of_mul_eq_mul_right hd' e1
  have t2 : 2 * num' = (2 * R' + 1) * den' := Nat.eq_of_mul_eq_mul_right hd e2
  have t3 : 2 * R - 1 = 2 * R' + 1 := by
    have := Nat.eq_of_mul_eq_mul_right hd' e3
    exact Nat.eq_of_mul_eq_mul_right hd this
  have even1 : R % 2 = 0 := h3 (.inr (by
    have : (2 * R - 1) * den + den = 2 * R * den := by
      rw [← Nat.succ_mul]; congr 1; omega
    omega))
  have even2 : R' % 2 = 0 := h3' (.inl t2)
  omega

/-- No integer is nearer than the rounded one. -/
theorem roundEven_nearest (num den j : Nat) (hd : 0 < den) :
    ((roundEven num den * den : Nat) - num : Int).natAbs ≤ ((j * den : Nat) - num : Int).natAbs := by
  obtain ⟨h1, h2, -⟩ := roundEven_spec num den hd
  generalize roundEven num den = R at *
  have e1 : (2 * R + 1) * den = 2 * (R * den) + den := by ring
  have e2 : 2 * R * den = 2 * (R * den) := by ring
  rw [e1] at h1; rw [e2] at h2
  rcases Nat.lt_trichotomy j R with h | h | h
  · have : j * den + den ≤ R * den := by rw [← Nat.succ_mul]; exact Nat.mul_le_mul_right _ h
    omega
  · subst h; exact le_refl _
  · have : R * den + den ≤ j * den := by rw [← Nat.succ_mul]; exact Nat.mul_le_mul_right _ h
    omega

/-! ## Rounding to an image -/

/-- The image before the overflow to infinity. -/
def roundWide (num den : Nat) : Nat :=
  (Nat.log2 (num / den) - 23) * 2 ^ 23 + roundEven num (den * 2 ^ (Nat.log2 (num / den) - 23))

theorem roundMag_eq (num den : Nat) : roundMag num den = Nat.min (roundWide num den) 0x7F800000 := rfl

theorem roundEven_bounds (num den : Nat) :
    num / den ≤ roundEven num den ∧ roundEven num den ≤ num / den + 1 := by
  unfold roundEven
  simp only
  split
  · omega
  · split <;> omega

/-- The exponent and the significand that `roundWide` finds. -/
theorem roundWide_split (num den : Nat) :
    ∃ k, roundWide num den = k * 2 ^ 23 + roundEven num (den * 2 ^ k)
      ∧ roundEven num (den * 2 ^ k) ≤ 2 ^ 24
      ∧ (k = 0 ∨ (2 ^ 23 ≤ roundEven num (den * 2 ^ k) ∧ 2 ^ 23 * 2 ^ k ≤ num / den))
      ∧ k = Nat.log2 (num / den) - 23 := by
  refine ⟨_, rfl, ?_, ?_, rfl⟩
  all_goals generalize hk : Nat.log2 (num / den) - 23 = k
  all_goals
    have hb := roundEven_bounds num (den * 2 ^ k)
    rw [← Nat.div_div_eq_div_mul] at hb
  · have hlt : num / den < 2 ^ 24 * 2 ^ k := by
      have := Nat.lt_log2_self (n := num / den)
      calc num / den < 2 ^ (Nat.log2 (num / den) + 1) := this
        _ ≤ 2 ^ (24 + k) := Nat.pow_le_pow_right (by decide) (by omega)
        _ = 2 ^ 24 * 2 ^ k := by rw [pow_add]
    have : num / den / 2 ^ k < 2 ^ 24 := Nat.div_lt_of_lt_mul (by rw [Nat.mul_comm]; exact hlt)
    omega
  · rcases Nat.eq_zero_or_pos k with h0 | hpos
    · exact .inl h0
    · right
      have hne : num / den ≠ 0 := by
        intro h0; rw [h0] at hk; simp at hk; omega
      have hge : 2 ^ 23 * 2 ^ k ≤ num / den := by
        have := Nat.log2_self_le hne
        calc 2 ^ 23 * 2 ^ k = 2 ^ (23 + k) := by rw [pow_add]
          _ = 2 ^ (Nat.log2 (num / den)) := by congr 1; omega
          _ ≤ num / den := this
      have : 2 ^ 23 ≤ num / den / 2 ^ k := (Nat.le_div_iff_mul_le (by positivity)).mpr hge
      exact ⟨by omega, hge⟩

/-- No image is nearer than the rounded one. -/
theorem roundWide_nearest (num den m : Nat) (hd : 0 < den) :
    ((magImg (roundWide num den) * den : Nat) - num : Int).natAbs ≤ ((magImg m * den : Nat) - num : Int).natAbs := by
  obtain ⟨k, hw, hle, hk, -⟩ := roundWide_split num den
  have hD : 0 < den * 2 ^ k := Nat.mul_pos hd (by positivity)
  rw [hw, magImg_mul k _ hle (by tauto)]
  have e : ∀ r, r * 2 ^ k * den = r * (den * 2 ^ k) := fun r => by ring
  by_cases hm : k * 2 ^ 23 + 2 ^ 23 ≤ m ∨ k = 0
  · -- the image is a multiple of the rounding unit
    obtain ⟨k', r', rfl, hr', hk'⟩ := image_split m
    have hkk : k ≤ k' := by
      rcases hm with hm | hm
      · by_contra hlt
        have : k' * 2 ^ 23 + 2 ^ 23 ≤ k * 2 ^ 23 := by nlinarith
        omega
      · omega
    have : magImg (k' * 2 ^ 23 + r') = r' * 2 ^ (k' - k) * 2 ^ k := by
      rw [magImg_mul k' r' hr'.le hk', mul_assoc, ← pow_add]; congr 2; omega
    rw [this, e, e]
    exact roundEven_nearest num (den * 2 ^ k) _ hD
  · -- the image lies below the binade of the quotient
    push Not at hm
    obtain ⟨hm, hk0⟩ := hm
    obtain ⟨-, hge⟩ := hk.resolve_left hk0
    have hlt : magImg m < 2 ^ 23 * 2 ^ k := by
      have := magImg_strictMono hm
      rwa [magImg_mul k (2 ^ 23) (by decide) (.inr le_rfl)] at this
    have hn := roundEven_nearest num (den * 2 ^ k) (2 ^ 23) hD
    rw [e]
    have h1 : 2 ^ 23 * 2 ^ k * den ≤ num := (Nat.le_div_iff_mul_le hd).mp hge
    have h2 : magImg m * den ≤ 2 ^ 23 * 2 ^ k * den := Nat.mul_le_mul_right _ hlt.le
    rw [← e] at hn ⊢
    rw [← e] at hn
    omega

theorem roundWide_mono {num den num' den' : Nat} (hd : 0 < den) (hd' : 0 < den')
    (h : num * den' ≤ num' * den) : roundWide num den ≤ roundWide num' den' := by
  obtain ⟨k, hw, hle, -, ek⟩ := roundWide_split num den
  obtain ⟨k', hw', -, hk', ek'⟩ := roundWide_split num' den'
  have hq : num / den ≤ num' / den' := by
    rw [Nat.le_div_iff_mul_le hd']
    have h1 : num / den * den ≤ num := Nat.div_mul_le_self _ _
    by_contra hc
    have hc : num' + 1 ≤ num / den * den' := by omega
    have : (num' + 1) * den ≤ num / den * den' * den := Nat.mul_le_mul_right _ hc
    have : num / den * den * den' ≤ num * den' := Nat.mul_le_mul_right _ h1
    nlinarith
  have hkk : k ≤ k' := by
    rw [ek, ek']
    have : Nat.log2 (num / den) ≤ Nat.log2 (num' / den') := by
      simpa only [Nat.log2_eq_log_two] using Nat.log_mono_right hq
    omega
  rw [hw, hw']
  rcases Nat.lt_or_ge k k' with hlt | hge
  · obtain ⟨h23, -⟩ := hk'.resolve_left (by omega)
    have : (k + 1) * 2 ^ 23 ≤ k' * 2 ^ 23 := Nat.mul_le_mul_right _ hlt
    omega
  · obtain rfl : k = k' := by omega
    have := roundEven_mono (num := num) (den := den * 2 ^ k) (num' := num') (den' := den' * 2 ^ k)
      (Nat.mul_pos hd (by positivity)) (Nat.mul_pos hd' (by positivity))
      (by calc num * (den' * 2 ^ k) = num * den' * 2 ^ k := by ring
            _ ≤ num' * den * 2 ^ k := Nat.mul_le_mul_right _ h
            _ = num' * (den * 2 ^ k) := by ring)
    omega

theorem roundMag_mono {num den num' den' : Nat} (hd : 0 < den) (hd' : 0 < den')
    (h : num * den' ≤ num' * den) : roundMag num den ≤ roundMag num' den' := by
  have := roundWide_mono hd hd' h
  rw [roundMag_eq, roundMag_eq]; simp only [Nat.min_def]; split <;> split <;> omega

/-- What binary32 holds is rounded to itself. -/
theorem roundWide_exact (m den : Nat) (hd : 0 < den) : roundWide (magImg m * den) den = m := by
  have h := roundWide_nearest (magImg m * den) den m hd
  simp only [sub_self, Int.natAbs_zero, Nat.le_zero, Int.natAbs_eq_zero] at h
  have h' : magImg (roundWide (magImg m * den) den) * den = magImg m * den := by omega
  exact magImg_strictMono.injective (Nat.eq_of_mul_eq_mul_right hd h')

theorem roundMag_exact {m : Nat} (den : Nat) (hd : 0 < den) (hm : m ≤ 0x7F800000) :
    roundMag (magImg m * den) den = m := by
  rw [roundMag_eq, roundWide_exact m den hd]; exact Nat.min_eq_left hm

/-- An integer of 24 bits times a power of two within range is a finite image. -/
theorem exists_image (r j : Nat) (hr : r < 2 ^ 24) (hj : j ≤ 253) :
    ∃ m, m < 0x7F800000 ∧ magImg m = r * 2 ^ j := by
  induction j generalizing r with
  | zero => exact ⟨r, by omega, by simpa using magImg_mul 0 r hr.le (.inl rfl)⟩
  | succ j ih =>
    by_cases h : r < 2 ^ 23
    · obtain ⟨m, hm, e⟩ := ih (2 * r) (by omega) (by omega)
      exact ⟨m, hm, by rw [e, pow_succ]; ring⟩
    · exact ⟨(j + 1) * 2 ^ 23 + r, by omega, magImg_mul (j + 1) r hr.le (.inr (by omega))⟩

/-- A ratio that is such an integer is rounded to itself. -/
theorem roundMag_of_eq {num den r j : Nat} (hd : 0 < den) (hr : r < 2 ^ 24) (hj : j ≤ 253)
    (h : num = r * 2 ^ j * den) :
    roundMag num den < 0x7F800000 ∧ magImg (roundMag num den) = r * 2 ^ j := by
  obtain ⟨m, hm, e⟩ := exists_image r j hr hj
  rw [h, ← e, roundMag_exact den hd hm.le]
  exact ⟨hm, rfl⟩

theorem roundMag_le (num den : Nat) : roundMag num den ≤ 0x7F800000 := by
  rw [roundMag_eq]; exact Nat.min_le_right _ _

theorem roundMag_lt_two_pow (num den : Nat) : roundMag num den < 2 ^ 31 := by
  have := roundMag_le num den; omega

@[simp] theorem roundMag_zero (den : Nat) (hd : 0 < den) : roundMag 0 den = 0 := by
  have := roundMag_exact (m := 0) den hd (by decide)
  simpa [magImg] using this

/-- Rounding errs by at most 2^−24 of the number, and half a quantum. -/
theorem roundWide_error (num den : Nat) (hd : 0 < den) :
    ((magImg (roundWide num den) * den : Nat) - num : Int).natAbs * 2 ^ 24 ≤ num + 2 ^ 23 * den := by
  obtain ⟨k, hw, hle, hk, -⟩ := roundWide_split num den
  have hD : 0 < den * 2 ^ k := Nat.mul_pos hd (by positivity)
  rw [hw, magImg_mul k _ hle (by tauto), show ∀ r, r * 2 ^ k * den = r * (den * 2 ^ k) from fun r => by ring]
  obtain ⟨h1, h2, -⟩ := roundEven_spec num (den * 2 ^ k) hD
  generalize roundEven num (den * 2 ^ k) = R at *
  have hb : den * 2 ^ k * 2 ^ 23 ≤ num + 2 ^ 23 * den := by
    rcases hk with rfl | ⟨-, hk⟩
    · omega
    · have := (Nat.le_div_iff_mul_le hd).mp hk
      calc den * 2 ^ k * 2 ^ 23 = 2 ^ 23 * 2 ^ k * den := by ring
        _ ≤ num + 2 ^ 23 * den := by omega
  have e1 : (2 * R + 1) * (den * 2 ^ k) = 2 * (R * (den * 2 ^ k)) + den * 2 ^ k := by ring
  have e2 : 2 * R * (den * 2 ^ k) = 2 * (R * (den * 2 ^ k)) := by ring
  rw [e1] at h1; rw [e2] at h2
  clear e1 e2 hw hle hk hD
  generalize den * 2 ^ k = D at *
  generalize R * D = P at *
  generalize hA : ((P : Nat) - num : Int).natAbs = A
  have : 2 * A ≤ D := by omega
  calc A * 2 ^ 24 = 2 * A * 2 ^ 23 := by ring
    _ ≤ D * 2 ^ 23 := Nat.mul_le_mul_right _ this
    _ ≤ num + 2 ^ 23 * den := hb

/-- Of two nearest images the rounded one is even (R17 c). -/
theorem roundWide_even {num den m : Nat} (hd : 0 < den)
    (tie : ((magImg m * den : Nat) - num : Int).natAbs = ((magImg (roundWide num den) * den : Nat) - num : Int).natAbs)
    (hne : magImg m ≠ magImg (roundWide num den)) : roundWide num den % 2 = 0 := by
  obtain ⟨k, hw, hle, hk, -⟩ := roundWide_split num den
  have hD : 0 < den * 2 ^ k := Nat.mul_pos hd (by positivity)
  rw [hw] at tie hne ⊢
  rw [magImg_mul k _ hle (by tauto)] at tie hne
  have e : ∀ r, r * 2 ^ k * den = r * (den * 2 ^ k) := fun r => by ring
  obtain ⟨h1, h2, h3⟩ := roundEven_spec num (den * 2 ^ k) hD
  suffices heven : roundEven num (den * 2 ^ k) % 2 = 0 by omega
  have low : (2 * roundEven num (den * 2 ^ k) + 1) * (den * 2 ^ k)
      = 2 * (roundEven num (den * 2 ^ k) * (den * 2 ^ k)) + den * 2 ^ k := by ring
  have high : 2 * roundEven num (den * 2 ^ k) * (den * 2 ^ k)
      = 2 * (roundEven num (den * 2 ^ k) * (den * 2 ^ k)) := by ring
  rw [low, high] at h3
  rw [low] at h1; rw [high] at h2
  by_cases hm : k * 2 ^ 23 + 2 ^ 23 ≤ m ∨ k = 0
  · -- the other image is a multiple of the rounding unit too
    obtain ⟨k', r', rfl, hr', hk'⟩ := image_split m
    have hkk : k ≤ k' := by
      rcases hm with hm | hm
      · by_contra hlt
        have : k' * 2 ^ 23 + 2 ^ 23 ≤ k * 2 ^ 23 := by nlinarith
        omega
      · omega
    have hx : magImg (k' * 2 ^ 23 + r') = r' * 2 ^ (k' - k) * 2 ^ k := by
      rw [magImg_mul k' r' hr'.le hk', mul_assoc, ← pow_add]; congr 2; omega
    rw [hx, e, e] at tie
    rw [hx] at hne
    generalize roundEven num (den * 2 ^ k) = R at *
    generalize r' * 2 ^ (k' - k) = J at *
    have hJR : J ≠ R := fun h => hne (by rw [h])
    apply h3
    rcases lt_or_gt_of_ne hJR with h | h
    · have : J * (den * 2 ^ k) + den * 2 ^ k ≤ R * (den * 2 ^ k) := by
        rw [← Nat.succ_mul]; exact Nat.mul_le_mul_right _ h
      omega
    · have : R * (den * 2 ^ k) + den * 2 ^ k ≤ J * (den * 2 ^ k) := by
        rw [← Nat.succ_mul]; exact Nat.mul_le_mul_right _ h
      omega
  · -- the other image lies below the binade of the quotient, so it is farther away
    push Not at hm
    obtain ⟨hm, hk0⟩ := hm
    obtain ⟨-, hge⟩ := hk.resolve_left hk0
    have hlt : magImg m < 2 ^ 23 * 2 ^ k := by
      have := magImg_strictMono hm
      rwa [magImg_mul k (2 ^ 23) (by decide) (.inr le_rfl)] at this
    have hn := roundEven_nearest num (den * 2 ^ k) (2 ^ 23) hD
    have g1 : 2 ^ 23 * 2 ^ k * den ≤ num := (Nat.le_div_iff_mul_le hd).mp hge
    have g2 : magImg m * den < 2 ^ 23 * 2 ^ k * den := Nat.mul_lt_mul_of_pos_right hlt hd
    rw [← e] at hn
    rw [← e] at hn
    exfalso
    omega

/-- Rounding reaches the infinity exactly from 2^128 − 2^103 on (R17 c). -/
theorem roundMag_lt_iff {num den : Nat} (hd : 0 < den) :
    roundMag num den < infImage ↔ num < (2 ^ 25 - 1) * 2 ^ 252 * den := by
  have top : magImg 0x7F7FFFFF = (2 ^ 24 - 1) * 2 ^ 253 := by decide +kernel
  have beyond : magImg 0x7F800000 = 2 ^ 24 * 2 ^ 253 := by decide +kernel
  have near := roundWide_nearest num den
  have image : infImage = 0x7F800000 := rfl
  constructor
  · intro h
    have hw : roundWide num den < infImage := by
      rw [roundMag_eq] at h
      by_contra hc
      rw [Nat.not_lt] at hc
      have : Nat.min (roundWide num den) 0x7F800000 = 0x7F800000 := Nat.min_eq_right hc
      omega
    have hle : magImg (roundWide num den) ≤ magImg 0x7F7FFFFF := magImg_strictMono.monotone (by omega)
    have hle' : magImg (roundWide num den) * den ≤ magImg 0x7F7FFFFF * den := Nat.mul_le_mul_right _ hle
    have hn := near 0x7F800000 hd
    by_contra hc
    rw [Nat.not_lt] at hc
    have e1 : magImg 0x7F7FFFFF * den = (2 ^ 24 - 1) * 2 ^ 253 * den := by rw [top]
    have e2 : magImg 0x7F800000 * den = 2 ^ 24 * 2 ^ 253 * den := by rw [beyond]
    -- at the bound itself both are as near, and the largest finite image is odd
    have hmax : magImg (roundWide num den) = magImg 0x7F7FFFFF := by
      rcases eq_or_lt_of_le hle with h | h
      · exact h
      · exfalso
        have : magImg (roundWide num den) * den + den ≤ magImg 0x7F7FFFFF * den := by
          rw [← Nat.succ_mul]; exact Nat.mul_le_mul_right _ h
        omega
    have hodd := roundWide_even (num := num) (m := 0x7F800000) hd
    rw [hmax] at hodd hn
    have : roundWide num den = 0x7F7FFFFF := magImg_strictMono.injective hmax
    rw [this] at hodd
    have := hodd (by omega) (by rw [top, beyond]; decide)
    omega
  · intro h
    by_contra hc
    rw [Nat.not_lt] at hc
    have hw : infImage ≤ roundWide num den := le_trans hc (by rw [roundMag_eq]; exact Nat.min_le_left _ _)
    have hge : magImg 0x7F800000 ≤ magImg (roundWide num den) := magImg_strictMono.monotone hw
    have hge' : magImg 0x7F800000 * den ≤ magImg (roundWide num den) * den := Nat.mul_le_mul_right _ hge
    have hn := near 0x7F7FFFFF hd
    have e1 : magImg 0x7F7FFFFF * den = (2 ^ 24 - 1) * 2 ^ 253 * den := by rw [top]
    have e2 : magImg 0x7F800000 * den = 2 ^ 24 * 2 ^ 253 * den := by rw [beyond]
    generalize magImg (roundWide num den) * den = P at *
    rw [e1] at hn
    rw [e2] at hge'
    omega

/-- Below that bound no image is dropped. -/
theorem roundMag_eq_roundWide {num den : Nat} (hd : 0 < den) (h : num < (2 ^ 25 - 1) * 2 ^ 252 * den) :
    roundMag num den = roundWide num den := by
  have hlt := (roundMag_lt_iff hd).mpr h
  rw [roundMag_eq] at hlt ⊢
  refine Nat.min_eq_left ?_
  have image : infImage = 0x7F800000 := rfl
  by_contra hc
  have : Nat.min (roundWide num den) 0x7F800000 = 0x7F800000 := Nat.min_eq_right (by omega)
  omega

/-! ## Results as values -/

theorem toInt_pack (neg : Bool) {m : Nat} (h : m < 2 ^ 31) :
    toInt (pack neg m) = if neg then -(magImg m : Int) else magImg m := by
  unfold toInt; rw [sign_pack neg h, mag_pack neg h]

theorem sign_inf (neg : Bool) : sign (inf neg) = neg := sign_pack neg (by decide)

theorem isInf_inf (neg : Bool) : isInf (inf neg) = true := by cases neg <;> decide

theorem inf_eq (neg : Bool) : inf neg = pack neg infImage := rfl

/-! ## A signed ratio rounded once: what `add`, `mul`, `div` and `ofInt` answer (R17 c) -/

/-- The sign of a rounded number is the exact one's; of an exact 0 it is either. -/
def SignOf (num : Int) (neg : Bool) : Prop := (num < 0 → neg = true) ∧ (0 < num → neg = false)

theorem signOf_decide (num : Int) : SignOf num (decide (num < 0)) :=
  ⟨fun h => decide_eq_true h, fun h => decide_eq_false (by omega)⟩

/-- The distance of a value from a number on the same side of 0. -/
theorem toInt_pack_dist {num : Int} {neg : Bool} (h : SignOf num neg) {m : Nat} (hm : m < 2 ^ 31) (den : Nat) :
    (toInt (pack neg m) * den - num).natAbs = ((magImg m * den : Nat) - num.natAbs : Int).natAbs := by
  rw [toInt_pack neg hm]
  cases neg with
  | true =>
    have : num ≤ 0 := by by_contra hc; exact absurd (h.2 (by omega)) (by decide)
    rw [if_pos rfl]
    push_cast
    rw [abs_of_nonpos this, neg_mul]
    omega
  | false =>
    have : 0 ≤ num := by by_contra hc; exact absurd (h.1 (by omega)) (by decide)
    simp only [Bool.false_eq_true, if_false]
    push_cast
    rw [abs_of_nonneg this]

/-- No value is nearer on the other side of 0 than its mirror image. -/
theorem toInt_dist_ge {num : Int} (w : F32) (den : Nat) :
    ((magImg (w.toNat % 2 ^ 31) * den : Nat) - num.natAbs : Int).natAbs ≤ (toInt w * den - num).natAbs := by
  have hw : toInt w = if sign w then -(magImg (w.toNat % 2 ^ 31) : Int) else magImg (w.toNat % 2 ^ 31) := by
    rw [← mag_eq]; rfl
  rw [hw, Nat.cast_mul]
  generalize magImg (w.toNat % 2 ^ 31) = M
  have : (0 : Int) ≤ M * den := by positivity
  split
  · rw [neg_mul]; omega
  · omega

/-- In range, a ratio rounded once is nearest, ties to even. -/
theorem isNearestEven_pack {num : Int} {den : Nat} {neg : Bool} (hd : 0 < den) (hs : SignOf num neg)
    (h : num.natAbs < Machine.overflowBound * den) :
    Machine.IsNearestEven num den (pack neg (roundMag num.natAbs den)) := by
  have hlt : roundMag num.natAbs den < infImage := (roundMag_lt_iff hd).mpr h
  have hwide := roundMag_eq_roundWide hd h
  have h31 : roundMag num.natAbs den < 2 ^ 31 := roundMag_lt_two_pow _ _
  refine ⟨⟨isFinite_pack _ hlt, fun w hw => ?_⟩, fun w hw tie hne => ?_⟩
  · rw [toInt_pack_dist hs h31, hwide]
    exact le_trans (roundWide_nearest _ _ _ hd) (toInt_dist_ge w den)
  · have hdist := toInt_pack_dist hs h31 den
    rw [hwide] at hdist tie hne h31 ⊢
    rw [hdist] at tie
    have hge := toInt_dist_ge (num := num) w den
    have hnear := roundWide_nearest num.natAbs den (w.toNat % 2 ^ 31) hd
    have htie := le_antisymm (le_trans hge (le_of_eq tie)) hnear
    have even : roundWide num.natAbs den % 2 = 0 := by
      by_cases hm : magImg (w.toNat % 2 ^ 31) = magImg (roundWide num.natAbs den)
      · -- the mirror image is as near only of 0, which is its own
        exfalso
        rw [← hdist] at tie
        have hn0 : num ≠ 0 := by
          rintro rfl
          rw [← hwide, Int.natAbs_zero, roundMag_zero den hd] at hne hm
          have hw0 : toInt w = 0 := by
            have : mag w = 0 := by rw [mag_eq, hm]; rfl
            simp [toInt, this]
          have hv0 : toInt (pack neg 0) = 0 := by rw [toInt_pack neg (by decide)]; simp [magImg]
          exact hne (hw0.trans hv0.symm)
        have hw' : toInt w = if sign w then -(magImg (w.toNat % 2 ^ 31) : Int) else magImg (w.toNat % 2 ^ 31) := by
          rw [← mag_eq]; rfl
        have hv := toInt_pack neg h31
        rw [hw', hv, hm] at hne
        rw [hw', hv, hm] at tie
        generalize magImg (roundWide num.natAbs den) = M at *
        have hM : M ≠ 0 := by
          intro hM; rw [hM] at hne; exact hne (by split <;> split <;> rfl)
        have hMd : 0 < (M : Int) * den := by positivity
        apply hn0
        revert tie hne
        split <;> split <;> intro tie hne
        · exact absurd rfl hne
        · rw [neg_mul] at tie; omega
        · rw [neg_mul] at tie; omega
        · exact absurd rfl hne
      · exact roundWide_even hd htie hm
    have low : (pack neg (roundWide num.natAbs den)).toNat % 2 = 0 := by
      unfold pack
      rw [BitVec.toNat_ofNat]
      split <;> omega
    rw [BitVec.getLsbD, Nat.testBit_zero, low]; rfl

/-- A ratio rounded once keeps range and sign. -/
theorem keepsRangeAndSign_pack {num : Int} {den : Nat} {neg : Bool} (hd : 0 < den) (hs : SignOf num neg) :
    Machine.KeepsRangeAndSign num den (pack neg (roundMag num.natAbs den)) := by
  have h31 : roundMag num.natAbs den < 2 ^ 31 := roundMag_lt_two_pow _ _
  have hi := toInt_pack neg h31
  refine ⟨fun h => ⟨isFinite_pack _ ((roundMag_lt_iff hd).mpr h), fun h0 => ?_, fun h0 => ?_⟩, fun h => ?_⟩
  · rw [hi]
    cases neg with
    | false => simp
    | true =>
      have : num = 0 := by by_contra hc; exact absurd (hs.2 (by omega)) (by decide)
      rw [this, Int.natAbs_zero, roundMag_zero den hd]; simp [magImg]
  · rw [hi]
    cases neg with
    | true => simp
    | false =>
      have : num = 0 := by by_contra hc; exact absurd (hs.1 (by omega)) (by decide)
      rw [this, Int.natAbs_zero, roundMag_zero den hd]; simp [magImg]
  · have hne : num ≠ 0 := by
      rintro rfl
      have : 0 < Machine.overflowBound * den := Nat.mul_pos (by decide) hd
      simp at h; omega
    have hneg : neg = decide (num < 0) := by
      rcases lt_or_gt_of_ne hne with hl | hg
      · rw [hs.1 hl, decide_eq_true hl]
      · rw [hs.2 hg, decide_eq_false (by omega)]
    have himg : roundMag num.natAbs den = infImage :=
      le_antisymm (roundMag_le _ _) (Nat.not_lt.mp fun hc => absurd ((roundMag_lt_iff hd).mp hc) (Nat.not_lt.mpr h))
    rw [inf_eq, himg, hneg]

end Sys2Proof.NumF32
end

