-- ==== Sys2Proof/Laws/State.lean ====
section
/-! SUPPORT. What each named update of the state does to each field: one lemma a field, true by unfolding the update once, so
that no later proof unfolds a record update. -/

namespace Sys2Proof.Machine

variable {α : Type}

/-! ## `setStatus` -/

section
variable (s : State α) (mask : BitVec 32)

@[simp] theorem State.setStatus_status : (s.setStatus mask).status = s.status ||| mask := rfl
@[simp] theorem State.setStatus_sampleRate : (s.setStatus mask).sampleRate = s.sampleRate := rfl
@[simp] theorem State.setStatus_channels : (s.setStatus mask).channels = s.channels := rfl
@[simp] theorem State.setStatus_encoding : (s.setStatus mask).encoding = s.encoding := rfl
@[simp] theorem State.setStatus_fHi : (s.setStatus mask).fHi = s.fHi := rfl
@[simp] theorem State.setStatus_capPhase : (s.setStatus mask).capPhase = s.capPhase := rfl
@[simp] theorem State.setStatus_sumsq : (s.setStatus mask).sumsq = s.sumsq := rfl
@[simp] theorem State.setStatus_peak : (s.setStatus mask).peak = s.peak := rfl
@[simp] theorem State.setStatus_nframes : (s.setStatus mask).nframes = s.nframes := rfl
@[simp] theorem State.setStatus_mono : (s.setStatus mask).mono = s.mono := rfl
@[simp] theorem State.setStatus_level : (s.setStatus mask).level = s.level := rfl
@[simp] theorem State.setStatus_lq : (s.setStatus mask).lq = s.lq := rfl
@[simp] theorem State.setStatus_fq : (s.setStatus mask).fq = s.fq := rfl
@[simp] theorem State.setStatus_sq : (s.setStatus mask).sq = s.sq := rfl
@[simp] theorem State.setStatus_anaPhase : (s.setStatus mask).anaPhase = s.anaPhase := rfl
@[simp] theorem State.setStatus_ring : (s.setStatus mask).ring = s.ring := rfl
@[simp] theorem State.setStatus_bandmap : (s.setStatus mask).bandmap = s.bandmap := rfl
@[simp] theorem State.setStatus_smDb : (s.setStatus mask).smDb = s.smDb := rfl
@[simp] theorem State.setStatus_smLin : (s.setStatus mask).smLin = s.smLin := rfl
@[simp] theorem State.setStatus_srcRx : (s.setStatus mask).srcRx = s.srcRx := rfl
@[simp] theorem State.setStatus_srcIn : (s.setStatus mask).srcIn = s.srcIn := rfl
@[simp] theorem State.setStatus_conIn : (s.setStatus mask).conIn = s.conIn := rfl
@[simp] theorem State.setStatus_conOut : (s.setStatus mask).conOut = s.conOut := rfl
@[simp] theorem State.setStatus_turns : (s.setStatus mask).turns = s.turns := rfl
@[simp] theorem State.setStatus_strayed : (s.setStatus mask).strayed = s.strayed := rfl
@[simp] theorem State.setStatus_fresh : (s.setStatus mask).fresh = s.fresh := rfl

end

/-! ## `writeErrCause` -/

section
variable (s : State α) (code : BitVec 4)

@[simp] theorem State.writeErrCause_status : (s.writeErrCause code).status = (s.status &&& 0xFFFFF0FF#32) ||| (code.zeroExtend 32 <<< 8) := rfl
@[simp] theorem State.writeErrCause_sampleRate : (s.writeErrCause code).sampleRate = s.sampleRate := rfl
@[simp] theorem State.writeErrCause_channels : (s.writeErrCause code).channels = s.channels := rfl
@[simp] theorem State.writeErrCause_encoding : (s.writeErrCause code).encoding = s.encoding := rfl
@[simp] theorem State.writeErrCause_fHi : (s.writeErrCause code).fHi = s.fHi := rfl
@[simp] theorem State.writeErrCause_capPhase : (s.writeErrCause code).capPhase = s.capPhase := rfl
@[simp] theorem State.writeErrCause_sumsq : (s.writeErrCause code).sumsq = s.sumsq := rfl
@[simp] theorem State.writeErrCause_peak : (s.writeErrCause code).peak = s.peak := rfl
@[simp] theorem State.writeErrCause_nframes : (s.writeErrCause code).nframes = s.nframes := rfl
@[simp] theorem State.writeErrCause_mono : (s.writeErrCause code).mono = s.mono := rfl
@[simp] theorem State.writeErrCause_level : (s.writeErrCause code).level = s.level := rfl
@[simp] theorem State.writeErrCause_lq : (s.writeErrCause code).lq = s.lq := rfl
@[simp] theorem State.writeErrCause_fq : (s.writeErrCause code).fq = s.fq := rfl
@[simp] theorem State.writeErrCause_sq : (s.writeErrCause code).sq = s.sq := rfl
@[simp] theorem State.writeErrCause_anaPhase : (s.writeErrCause code).anaPhase = s.anaPhase := rfl
@[simp] theorem State.writeErrCause_ring : (s.writeErrCause code).ring = s.ring := rfl
@[simp] theorem State.writeErrCause_bandmap : (s.writeErrCause code).bandmap = s.bandmap := rfl
@[simp] theorem State.writeErrCause_smDb : (s.writeErrCause code).smDb = s.smDb := rfl
@[simp] theorem State.writeErrCause_smLin : (s.writeErrCause code).smLin = s.smLin := rfl
@[simp] theorem State.writeErrCause_srcRx : (s.writeErrCause code).srcRx = s.srcRx := rfl
@[simp] theorem State.writeErrCause_srcIn : (s.writeErrCause code).srcIn = s.srcIn := rfl
@[simp] theorem State.writeErrCause_conIn : (s.writeErrCause code).conIn = s.conIn := rfl
@[simp] theorem State.writeErrCause_conOut : (s.writeErrCause code).conOut = s.conOut := rfl
@[simp] theorem State.writeErrCause_turns : (s.writeErrCause code).turns = s.turns := rfl
@[simp] theorem State.writeErrCause_strayed : (s.writeErrCause code).strayed = s.strayed := rfl
@[simp] theorem State.writeErrCause_fresh : (s.writeErrCause code).fresh = s.fresh := rfl

end

/-! ## `respond` -/

section
variable (s : State α) (ws : List Word)

@[simp] theorem respond_status : (respond ws s).status = s.status := rfl
@[simp] theorem respond_sampleRate : (respond ws s).sampleRate = s.sampleRate := rfl
@[simp] theorem respond_channels : (respond ws s).channels = s.channels := rfl
@[simp] theorem respond_encoding : (respond ws s).encoding = s.encoding := rfl
@[simp] theorem respond_fHi : (respond ws s).fHi = s.fHi := rfl
@[simp] theorem respond_capPhase : (respond ws s).capPhase = s.capPhase := rfl
@[simp] theorem respond_sumsq : (respond ws s).sumsq = s.sumsq := rfl
@[simp] theorem respond_peak : (respond ws s).peak = s.peak := rfl
@[simp] theorem respond_nframes : (respond ws s).nframes = s.nframes := rfl
@[simp] theorem respond_mono : (respond ws s).mono = s.mono := rfl
@[simp] theorem respond_level : (respond ws s).level = s.level := rfl
@[simp] theorem respond_lq : (respond ws s).lq = s.lq := rfl
@[simp] theorem respond_fq : (respond ws s).fq = s.fq := rfl
@[simp] theorem respond_sq : (respond ws s).sq = s.sq := rfl
@[simp] theorem respond_anaPhase : (respond ws s).anaPhase = s.anaPhase := rfl
@[simp] theorem respond_ring : (respond ws s).ring = s.ring := rfl
@[simp] theorem respond_bandmap : (respond ws s).bandmap = s.bandmap := rfl
@[simp] theorem respond_smDb : (respond ws s).smDb = s.smDb := rfl
@[simp] theorem respond_smLin : (respond ws s).smLin = s.smLin := rfl
@[simp] theorem respond_srcRx : (respond ws s).srcRx = s.srcRx := rfl
@[simp] theorem respond_srcIn : (respond ws s).srcIn = s.srcIn := rfl
@[simp] theorem respond_conIn : (respond ws s).conIn = s.conIn := rfl
@[simp] theorem respond_conOut : (respond ws s).conOut = s.conOut ++ ws := rfl
@[simp] theorem respond_turns : (respond ws s).turns = s.turns := rfl
@[simp] theorem respond_strayed : (respond ws s).strayed = s.strayed := rfl
@[simp] theorem respond_fresh : (respond ws s).fresh = s.fresh := rfl

end

/-! ## `holdCommand` -/

section
variable (s : State α) (i : Instr)

@[simp] theorem holdCommand_status : (holdCommand i s).status = s.status := rfl
@[simp] theorem holdCommand_sampleRate : (holdCommand i s).sampleRate = s.sampleRate := rfl
@[simp] theorem holdCommand_channels : (holdCommand i s).channels = s.channels := rfl
@[simp] theorem holdCommand_encoding : (holdCommand i s).encoding = s.encoding := rfl
@[simp] theorem holdCommand_fHi : (holdCommand i s).fHi = s.fHi := rfl
@[simp] theorem holdCommand_capPhase : (holdCommand i s).capPhase = s.capPhase := rfl
@[simp] theorem holdCommand_sumsq : (holdCommand i s).sumsq = s.sumsq := rfl
@[simp] theorem holdCommand_peak : (holdCommand i s).peak = s.peak := rfl
@[simp] theorem holdCommand_nframes : (holdCommand i s).nframes = s.nframes := rfl
@[simp] theorem holdCommand_mono : (holdCommand i s).mono = s.mono := rfl
@[simp] theorem holdCommand_level : (holdCommand i s).level = s.level := rfl
@[simp] theorem holdCommand_lq : (holdCommand i s).lq = s.lq := rfl
@[simp] theorem holdCommand_fq : (holdCommand i s).fq = s.fq := rfl
@[simp] theorem holdCommand_sq : (holdCommand i s).sq = s.sq := rfl
@[simp] theorem holdCommand_anaPhase : (holdCommand i s).anaPhase = s.anaPhase := rfl
@[simp] theorem holdCommand_ring : (holdCommand i s).ring = s.ring := rfl
@[simp] theorem holdCommand_bandmap : (holdCommand i s).bandmap = s.bandmap := rfl
@[simp] theorem holdCommand_smDb : (holdCommand i s).smDb = s.smDb := rfl
@[simp] theorem holdCommand_smLin : (holdCommand i s).smLin = s.smLin := rfl
@[simp] theorem holdCommand_srcRx : (holdCommand i s).srcRx = .held i := rfl
@[simp] theorem holdCommand_srcIn : (holdCommand i s).srcIn = s.srcIn := rfl
@[simp] theorem holdCommand_conIn : (holdCommand i s).conIn = s.conIn := rfl
@[simp] theorem holdCommand_conOut : (holdCommand i s).conOut = s.conOut := rfl
@[simp] theorem holdCommand_turns : (holdCommand i s).turns = s.turns := rfl
@[simp] theorem holdCommand_strayed : (holdCommand i s).strayed = s.strayed := rfl
@[simp] theorem holdCommand_fresh : (holdCommand i s).fresh = s.fresh := rfl

end

/-! ## `discardPayload` -/

section
variable (s : State α) (n : Nat)

@[simp] theorem discardPayload_status : (discardPayload n s).status = s.status := rfl
@[simp] theorem discardPayload_sampleRate : (discardPayload n s).sampleRate = s.sampleRate := rfl
@[simp] theorem discardPayload_channels : (discardPayload n s).channels = s.channels := rfl
@[simp] theorem discardPayload_encoding : (discardPayload n s).encoding = s.encoding := rfl
@[simp] theorem discardPayload_fHi : (discardPayload n s).fHi = s.fHi := rfl
@[simp] theorem discardPayload_capPhase : (discardPayload n s).capPhase = s.capPhase := rfl
@[simp] theorem discardPayload_sumsq : (discardPayload n s).sumsq = s.sumsq := rfl
@[simp] theorem discardPayload_peak : (discardPayload n s).peak = s.peak := rfl
@[simp] theorem discardPayload_nframes : (discardPayload n s).nframes = s.nframes := rfl
@[simp] theorem discardPayload_mono : (discardPayload n s).mono = s.mono := rfl
@[simp] theorem discardPayload_level : (discardPayload n s).level = s.level := rfl
@[simp] theorem discardPayload_lq : (discardPayload n s).lq = s.lq := rfl
@[simp] theorem discardPayload_fq : (discardPayload n s).fq = s.fq := rfl
@[simp] theorem discardPayload_sq : (discardPayload n s).sq = s.sq := rfl
@[simp] theorem discardPayload_anaPhase : (discardPayload n s).anaPhase = s.anaPhase := rfl
@[simp] theorem discardPayload_ring : (discardPayload n s).ring = s.ring := rfl
@[simp] theorem discardPayload_bandmap : (discardPayload n s).bandmap = s.bandmap := rfl
@[simp] theorem discardPayload_smDb : (discardPayload n s).smDb = s.smDb := rfl
@[simp] theorem discardPayload_smLin : (discardPayload n s).smLin = s.smLin := rfl
@[simp] theorem discardPayload_srcRx : (discardPayload n s).srcRx = if n - s.srcIn.length = 0 then .header else .discard (n - s.srcIn.length) := rfl
@[simp] theorem discardPayload_srcIn : (discardPayload n s).srcIn = s.srcIn.drop n := rfl
@[simp] theorem discardPayload_conIn : (discardPayload n s).conIn = s.conIn := rfl
@[simp] theorem discardPayload_conOut : (discardPayload n s).conOut = s.conOut := rfl
@[simp] theorem discardPayload_turns : (discardPayload n s).turns = s.turns := rfl
@[simp] theorem discardPayload_strayed : (discardPayload n s).strayed = s.strayed := rfl
@[simp] theorem discardPayload_fresh : (discardPayload n s).fresh = s.fresh := rfl

end

/-! ## `configure` -/

section
variable (s : State α) (channels enc : Nat) (rate : Word) (p : Params α)

@[simp] theorem configure_status : (configure p channels enc rate s).status = s.status ||| cfgOkMask := rfl
@[simp] theorem configure_sampleRate : (configure p channels enc rate s).sampleRate = rate := rfl
@[simp] theorem configure_channels : (configure p channels enc rate s).channels = BitVec.ofNat 16 channels := rfl
@[simp] theorem configure_encoding : (configure p channels enc rate s).encoding = BitVec.ofNat 8 enc := rfl
@[simp] theorem configure_fHi : (configure p channels enc rate s).fHi = p.data.fHi rate.toNat := rfl
@[simp] theorem configure_capPhase : (configure p channels enc rate s).capPhase = s.capPhase := rfl
@[simp] theorem configure_sumsq : (configure p channels enc rate s).sumsq = s.sumsq := rfl
@[simp] theorem configure_peak : (configure p channels enc rate s).peak = s.peak := rfl
@[simp] theorem configure_nframes : (configure p channels enc rate s).nframes = s.nframes := rfl
@[simp] theorem configure_mono : (configure p channels enc rate s).mono = s.mono := rfl
@[simp] theorem configure_level : (configure p channels enc rate s).level = s.level := rfl
@[simp] theorem configure_lq : (configure p channels enc rate s).lq = s.lq := rfl
@[simp] theorem configure_fq : (configure p channels enc rate s).fq = s.fq := rfl
@[simp] theorem configure_sq : (configure p channels enc rate s).sq = s.sq := rfl
@[simp] theorem configure_anaPhase : (configure p channels enc rate s).anaPhase = .wait := rfl
@[simp] theorem configure_ring : (configure p channels enc rate s).ring = s.ring := rfl
@[simp] theorem configure_bandmap : (configure p channels enc rate s).bandmap = bandmapFor p rate.toNat := rfl
@[simp] theorem configure_smDb : (configure p channels enc rate s).smDb = s.smDb := rfl
@[simp] theorem configure_smLin : (configure p channels enc rate s).smLin = s.smLin := rfl
@[simp] theorem configure_srcRx : (configure p channels enc rate s).srcRx = s.srcRx := rfl
@[simp] theorem configure_srcIn : (configure p channels enc rate s).srcIn = s.srcIn := rfl
@[simp] theorem configure_conIn : (configure p channels enc rate s).conIn = s.conIn := rfl
@[simp] theorem configure_conOut : (configure p channels enc rate s).conOut = s.conOut := rfl
@[simp] theorem configure_turns : (configure p channels enc rate s).turns = s.turns := rfl
@[simp] theorem configure_strayed : (configure p channels enc rate s).strayed = s.strayed := rfl
@[simp] theorem configure_fresh : (configure p channels enc rate s).fresh = s.fresh := rfl

end

/-! ## `capDmx` -/

section
variable (s : State α) (raw : List Word) (p : Params α)

@[simp] theorem capDmx_status : (capDmx p raw s).status = s.status := rfl
@[simp] theorem capDmx_sampleRate : (capDmx p raw s).sampleRate = s.sampleRate := rfl
@[simp] theorem capDmx_channels : (capDmx p raw s).channels = s.channels := rfl
@[simp] theorem capDmx_encoding : (capDmx p raw s).encoding = s.encoding := rfl
@[simp] theorem capDmx_fHi : (capDmx p raw s).fHi = s.fHi := rfl
@[simp] theorem capDmx_capPhase : (capDmx p raw s).capPhase = .pubLevel := rfl
@[simp] theorem capDmx_sumsq : (capDmx p raw s).sumsq = p.data.sumSquares (capDmx p raw s).mono := rfl
@[simp] theorem capDmx_peak : (capDmx p raw s).peak = p.data.peakOf (capDmx p raw s).mono := rfl
@[simp] theorem capDmx_nframes : (capDmx p raw s).nframes = BitVec.ofNat 24 (raw.length / s.channels.toNat) := rfl
@[simp] theorem capDmx_mono : (capDmx p raw s).mono = p.data.downmix s.channels.toNat s.encoding (raw.length / s.channels.toNat) s.fresh raw := rfl
@[simp] theorem capDmx_level : (capDmx p raw s).level = levelOf p (capDmx p raw s).mono := rfl
@[simp] theorem capDmx_lq : (capDmx p raw s).lq = s.lq := rfl
@[simp] theorem capDmx_fq : (capDmx p raw s).fq = s.fq := rfl
@[simp] theorem capDmx_sq : (capDmx p raw s).sq = s.sq := rfl
@[simp] theorem capDmx_anaPhase : (capDmx p raw s).anaPhase = s.anaPhase := rfl
@[simp] theorem capDmx_ring : (capDmx p raw s).ring = s.ring := rfl
@[simp] theorem capDmx_bandmap : (capDmx p raw s).bandmap = s.bandmap := rfl
@[simp] theorem capDmx_smDb : (capDmx p raw s).smDb = s.smDb := rfl
@[simp] theorem capDmx_smLin : (capDmx p raw s).smLin = s.smLin := rfl
@[simp] theorem capDmx_srcRx : (capDmx p raw s).srcRx = s.srcRx := rfl
@[simp] theorem capDmx_srcIn : (capDmx p raw s).srcIn = s.srcIn := rfl
@[simp] theorem capDmx_conIn : (capDmx p raw s).conIn = s.conIn := rfl
@[simp] theorem capDmx_conOut : (capDmx p raw s).conOut = s.conOut := rfl
@[simp] theorem capDmx_turns : (capDmx p raw s).turns = s.turns := rfl
@[simp] theorem capDmx_strayed : (capDmx p raw s).strayed = (s.strayed || strays s.encoding raw) := rfl
@[simp] theorem capDmx_fresh : (capDmx p raw s).fresh = s.fresh + raw.length := rfl

end

/-! ## `capPubl` -/

section
variable (s : State α) (p : Params α)

@[simp] theorem capPubl_status : (capPubl p s).status = s.status := rfl
@[simp] theorem capPubl_sampleRate : (capPubl p s).sampleRate = s.sampleRate := rfl
@[simp] theorem capPubl_channels : (capPubl p s).channels = s.channels := rfl
@[simp] theorem capPubl_encoding : (capPubl p s).encoding = s.encoding := rfl
@[simp] theorem capPubl_fHi : (capPubl p s).fHi = s.fHi := rfl
@[simp] theorem capPubl_capPhase : (capPubl p s).capPhase = .pubFrame := rfl
@[simp] theorem capPubl_sumsq : (capPubl p s).sumsq = s.sumsq := rfl
@[simp] theorem capPubl_peak : (capPubl p s).peak = s.peak := rfl
@[simp] theorem capPubl_nframes : (capPubl p s).nframes = s.nframes := rfl
@[simp] theorem capPubl_mono : (capPubl p s).mono = s.mono := rfl
@[simp] theorem capPubl_level : (capPubl p s).level = s.level := rfl
@[simp] theorem capPubl_lq : (capPubl p s).lq = fifoTryPush p.capLevel s.lq s.level := rfl
@[simp] theorem capPubl_fq : (capPubl p s).fq = s.fq := rfl
@[simp] theorem capPubl_sq : (capPubl p s).sq = s.sq := rfl
@[simp] theorem capPubl_anaPhase : (capPubl p s).anaPhase = s.anaPhase := rfl
@[simp] theorem capPubl_ring : (capPubl p s).ring = s.ring := rfl
@[simp] theorem capPubl_bandmap : (capPubl p s).bandmap = s.bandmap := rfl
@[simp] theorem capPubl_smDb : (capPubl p s).smDb = s.smDb := rfl
@[simp] theorem capPubl_smLin : (capPubl p s).smLin = s.smLin := rfl
@[simp] theorem capPubl_srcRx : (capPubl p s).srcRx = s.srcRx := rfl
@[simp] theorem capPubl_srcIn : (capPubl p s).srcIn = s.srcIn := rfl
@[simp] theorem capPubl_conIn : (capPubl p s).conIn = s.conIn := rfl
@[simp] theorem capPubl_conOut : (capPubl p s).conOut = s.conOut := rfl
@[simp] theorem capPubl_turns : (capPubl p s).turns = s.turns := rfl
@[simp] theorem capPubl_strayed : (capPubl p s).strayed = s.strayed := rfl
@[simp] theorem capPubl_fresh : (capPubl p s).fresh = s.fresh := rfl

end

/-! ## `capPubf` -/

section
variable (s : State α) (p : Params α)

@[simp] theorem capPubf_status : (capPubf p s).status = s.status := rfl
@[simp] theorem capPubf_sampleRate : (capPubf p s).sampleRate = s.sampleRate := rfl
@[simp] theorem capPubf_channels : (capPubf p s).channels = s.channels := rfl
@[simp] theorem capPubf_encoding : (capPubf p s).encoding = s.encoding := rfl
@[simp] theorem capPubf_fHi : (capPubf p s).fHi = s.fHi := rfl
@[simp] theorem capPubf_capPhase : (capPubf p s).capPhase = .ready := rfl
@[simp] theorem capPubf_sumsq : (capPubf p s).sumsq = s.sumsq := rfl
@[simp] theorem capPubf_peak : (capPubf p s).peak = s.peak := rfl
@[simp] theorem capPubf_nframes : (capPubf p s).nframes = s.nframes := rfl
@[simp] theorem capPubf_mono : (capPubf p s).mono = s.mono := rfl
@[simp] theorem capPubf_level : (capPubf p s).level = s.level := rfl
@[simp] theorem capPubf_lq : (capPubf p s).lq = s.lq := rfl
@[simp] theorem capPubf_fq : (capPubf p s).fq = fifoTryPush p.capFrame s.fq s.mono := rfl
@[simp] theorem capPubf_sq : (capPubf p s).sq = s.sq := rfl
@[simp] theorem capPubf_anaPhase : (capPubf p s).anaPhase = s.anaPhase := rfl
@[simp] theorem capPubf_ring : (capPubf p s).ring = s.ring := rfl
@[simp] theorem capPubf_bandmap : (capPubf p s).bandmap = s.bandmap := rfl
@[simp] theorem capPubf_smDb : (capPubf p s).smDb = s.smDb := rfl
@[simp] theorem capPubf_smLin : (capPubf p s).smLin = s.smLin := rfl
@[simp] theorem capPubf_srcRx : (capPubf p s).srcRx = s.srcRx := rfl
@[simp] theorem capPubf_srcIn : (capPubf p s).srcIn = s.srcIn := rfl
@[simp] theorem capPubf_conIn : (capPubf p s).conIn = s.conIn := rfl
@[simp] theorem capPubf_conOut : (capPubf p s).conOut = s.conOut := rfl
@[simp] theorem capPubf_turns : (capPubf p s).turns = s.turns := rfl
@[simp] theorem capPubf_strayed : (capPubf p s).strayed = s.strayed := rfl
@[simp] theorem capPubf_fresh : (capPubf p s).fresh = s.fresh := rfl

end

/-! ## `anaRecv` -/

section
variable (s : State α) (batch : List α) (rest : List (List α)) (p : Params α)

@[simp] theorem anaRecv_status : (anaRecv p batch rest s).status = s.status := rfl
@[simp] theorem anaRecv_sampleRate : (anaRecv p batch rest s).sampleRate = s.sampleRate := rfl
@[simp] theorem anaRecv_channels : (anaRecv p batch rest s).channels = s.channels := rfl
@[simp] theorem anaRecv_encoding : (anaRecv p batch rest s).encoding = s.encoding := rfl
@[simp] theorem anaRecv_fHi : (anaRecv p batch rest s).fHi = s.fHi := rfl
@[simp] theorem anaRecv_capPhase : (anaRecv p batch rest s).capPhase = s.capPhase := rfl
@[simp] theorem anaRecv_sumsq : (anaRecv p batch rest s).sumsq = s.sumsq := rfl
@[simp] theorem anaRecv_peak : (anaRecv p batch rest s).peak = s.peak := rfl
@[simp] theorem anaRecv_nframes : (anaRecv p batch rest s).nframes = s.nframes := rfl
@[simp] theorem anaRecv_mono : (anaRecv p batch rest s).mono = s.mono := rfl
@[simp] theorem anaRecv_level : (anaRecv p batch rest s).level = s.level := rfl
@[simp] theorem anaRecv_lq : (anaRecv p batch rest s).lq = s.lq := rfl
@[simp] theorem anaRecv_fq : (anaRecv p batch rest s).fq = rest := rfl
@[simp] theorem anaRecv_sq : (anaRecv p batch rest s).sq = s.sq := rfl
@[simp] theorem anaRecv_anaPhase : (anaRecv p batch rest s).anaPhase = loopTest p.data.fftSize (s.ring ++ batch) := rfl
@[simp] theorem anaRecv_ring : (anaRecv p batch rest s).ring = s.ring ++ batch := rfl
@[simp] theorem anaRecv_bandmap : (anaRecv p batch rest s).bandmap = s.bandmap := rfl
@[simp] theorem anaRecv_smDb : (anaRecv p batch rest s).smDb = s.smDb := rfl
@[simp] theorem anaRecv_smLin : (anaRecv p batch rest s).smLin = s.smLin := rfl
@[simp] theorem anaRecv_srcRx : (anaRecv p batch rest s).srcRx = s.srcRx := rfl
@[simp] theorem anaRecv_srcIn : (anaRecv p batch rest s).srcIn = s.srcIn := rfl
@[simp] theorem anaRecv_conIn : (anaRecv p batch rest s).conIn = s.conIn := rfl
@[simp] theorem anaRecv_conOut : (anaRecv p batch rest s).conOut = s.conOut := rfl
@[simp] theorem anaRecv_turns : (anaRecv p batch rest s).turns = s.turns := rfl
@[simp] theorem anaRecv_strayed : (anaRecv p batch rest s).strayed = s.strayed := rfl
@[simp] theorem anaRecv_fresh : (anaRecv p batch rest s).fresh = s.fresh := rfl

end

/-! ## `anaExit` -/

section
variable (s : State α)

@[simp] theorem anaExit_status : (anaExit s).status = s.status ||| anaExitedMask := rfl
@[simp] theorem anaExit_sampleRate : (anaExit s).sampleRate = s.sampleRate := rfl
@[simp] theorem anaExit_channels : (anaExit s).channels = s.channels := rfl
@[simp] theorem anaExit_encoding : (anaExit s).encoding = s.encoding := rfl
@[simp] theorem anaExit_fHi : (anaExit s).fHi = s.fHi := rfl
@[simp] theorem anaExit_capPhase : (anaExit s).capPhase = s.capPhase := rfl
@[simp] theorem anaExit_sumsq : (anaExit s).sumsq = s.sumsq := rfl
@[simp] theorem anaExit_peak : (anaExit s).peak = s.peak := rfl
@[simp] theorem anaExit_nframes : (anaExit s).nframes = s.nframes := rfl
@[simp] theorem anaExit_mono : (anaExit s).mono = s.mono := rfl
@[simp] theorem anaExit_level : (anaExit s).level = s.level := rfl
@[simp] theorem anaExit_lq : (anaExit s).lq = s.lq := rfl
@[simp] theorem anaExit_fq : (anaExit s).fq = s.fq := rfl
@[simp] theorem anaExit_sq : (anaExit s).sq = s.sq := rfl
@[simp] theorem anaExit_anaPhase : (anaExit s).anaPhase = .exited := rfl
@[simp] theorem anaExit_ring : (anaExit s).ring = s.ring := rfl
@[simp] theorem anaExit_bandmap : (anaExit s).bandmap = s.bandmap := rfl
@[simp] theorem anaExit_smDb : (anaExit s).smDb = s.smDb := rfl
@[simp] theorem anaExit_smLin : (anaExit s).smLin = s.smLin := rfl
@[simp] theorem anaExit_srcRx : (anaExit s).srcRx = s.srcRx := rfl
@[simp] theorem anaExit_srcIn : (anaExit s).srcIn = s.srcIn := rfl
@[simp] theorem anaExit_conIn : (anaExit s).conIn = s.conIn := rfl
@[simp] theorem anaExit_conOut : (anaExit s).conOut = s.conOut := rfl
@[simp] theorem anaExit_turns : (anaExit s).turns = s.turns := rfl
@[simp] theorem anaExit_strayed : (anaExit s).strayed = s.strayed := rfl
@[simp] theorem anaExit_fresh : (anaExit s).fresh = s.fresh := rfl

end

/-! ## `anaPass` -/

section
variable (s : State α) (x : List α) (p : Params α)

@[simp] theorem anaPass_status : (anaPass p x s).status = s.status := rfl
@[simp] theorem anaPass_sampleRate : (anaPass p x s).sampleRate = s.sampleRate := rfl
@[simp] theorem anaPass_channels : (anaPass p x s).channels = s.channels := rfl
@[simp] theorem anaPass_encoding : (anaPass p x s).encoding = s.encoding := rfl
@[simp] theorem anaPass_fHi : (anaPass p x s).fHi = s.fHi := rfl
@[simp] theorem anaPass_capPhase : (anaPass p x s).capPhase = s.capPhase := rfl
@[simp] theorem anaPass_sumsq : (anaPass p x s).sumsq = s.sumsq := rfl
@[simp] theorem anaPass_peak : (anaPass p x s).peak = s.peak := rfl
@[simp] theorem anaPass_nframes : (anaPass p x s).nframes = s.nframes := rfl
@[simp] theorem anaPass_mono : (anaPass p x s).mono = s.mono := rfl
@[simp] theorem anaPass_level : (anaPass p x s).level = s.level := rfl
@[simp] theorem anaPass_lq : (anaPass p x s).lq = s.lq := rfl
@[simp] theorem anaPass_fq : (anaPass p x s).fq = s.fq := rfl
@[simp] theorem anaPass_sq : (anaPass p x s).sq = fifoTryPush p.capSpec s.sq (analysis p s.bandmap x s.smDb s.smLin) := rfl
@[simp] theorem anaPass_anaPhase : (anaPass p x s).anaPhase = loopTest p.data.fftSize (ringDrop p.data.hop s.ring) := rfl
@[simp] theorem anaPass_ring : (anaPass p x s).ring = ringDrop p.data.hop s.ring := rfl
@[simp] theorem anaPass_bandmap : (anaPass p x s).bandmap = s.bandmap := rfl
@[simp] theorem anaPass_smDb : (anaPass p x s).smDb = (analysis p s.bandmap x s.smDb s.smLin).bands := rfl
@[simp] theorem anaPass_smLin : (anaPass p x s).smLin = (analysis p s.bandmap x s.smDb s.smLin).bandsLinear := rfl
@[simp] theorem anaPass_srcRx : (anaPass p x s).srcRx = s.srcRx := rfl
@[simp] theorem anaPass_srcIn : (anaPass p x s).srcIn = s.srcIn := rfl
@[simp] theorem anaPass_conIn : (anaPass p x s).conIn = s.conIn := rfl
@[simp] theorem anaPass_conOut : (anaPass p x s).conOut = s.conOut := rfl
@[simp] theorem anaPass_turns : (anaPass p x s).turns = s.turns := rfl
@[simp] theorem anaPass_strayed : (anaPass p x s).strayed = s.strayed := rfl
@[simp] theorem anaPass_fresh : (anaPass p x s).fresh = s.fresh := rfl

end

/-! ## `resetBlock` -/

section
variable (s : State α) (p : Params α)

@[simp] theorem resetBlock_status : (resetBlock p s).status = (State.resetAt p).status := rfl
@[simp] theorem resetBlock_sampleRate : (resetBlock p s).sampleRate = (State.resetAt p).sampleRate := rfl
@[simp] theorem resetBlock_channels : (resetBlock p s).channels = (State.resetAt p).channels := rfl
@[simp] theorem resetBlock_encoding : (resetBlock p s).encoding = (State.resetAt p).encoding := rfl
@[simp] theorem resetBlock_fHi : (resetBlock p s).fHi = (State.resetAt p).fHi := rfl
@[simp] theorem resetBlock_capPhase : (resetBlock p s).capPhase = (State.resetAt p).capPhase := rfl
@[simp] theorem resetBlock_sumsq : (resetBlock p s).sumsq = (State.resetAt p).sumsq := rfl
@[simp] theorem resetBlock_peak : (resetBlock p s).peak = (State.resetAt p).peak := rfl
@[simp] theorem resetBlock_nframes : (resetBlock p s).nframes = (State.resetAt p).nframes := rfl
@[simp] theorem resetBlock_mono : (resetBlock p s).mono = (State.resetAt p).mono := rfl
@[simp] theorem resetBlock_level : (resetBlock p s).level = (State.resetAt p).level := rfl
@[simp] theorem resetBlock_lq : (resetBlock p s).lq = (State.resetAt p).lq := rfl
@[simp] theorem resetBlock_fq : (resetBlock p s).fq = (State.resetAt p).fq := rfl
@[simp] theorem resetBlock_sq : (resetBlock p s).sq = (State.resetAt p).sq := rfl
@[simp] theorem resetBlock_anaPhase : (resetBlock p s).anaPhase = (State.resetAt p).anaPhase := rfl
@[simp] theorem resetBlock_ring : (resetBlock p s).ring = (State.resetAt p).ring := rfl
@[simp] theorem resetBlock_bandmap : (resetBlock p s).bandmap = (State.resetAt p).bandmap := rfl
@[simp] theorem resetBlock_smDb : (resetBlock p s).smDb = (State.resetAt p).smDb := rfl
@[simp] theorem resetBlock_smLin : (resetBlock p s).smLin = (State.resetAt p).smLin := rfl
@[simp] theorem resetBlock_srcRx : (resetBlock p s).srcRx = (State.resetAt p).srcRx := rfl
@[simp] theorem resetBlock_srcIn : (resetBlock p s).srcIn = s.srcIn.drop (partialPayload s.srcRx) := rfl
@[simp] theorem resetBlock_conIn : (resetBlock p s).conIn = s.conIn := rfl
@[simp] theorem resetBlock_conOut : (resetBlock p s).conOut = (State.resetAt p).conOut := rfl
@[simp] theorem resetBlock_turns : (resetBlock p s).turns = s.turns := rfl
@[simp] theorem resetBlock_strayed : (resetBlock p s).strayed = (State.resetAt p).strayed := rfl
@[simp] theorem resetBlock_fresh : (resetBlock p s).fresh = s.fresh := rfl

end

/-! ## The state after reset (R37) -/

section
variable (zero smoothInit : α) (bands nbins : Nat)

@[simp] theorem State.initial_status : (State.initial zero smoothInit bands nbins).status = 0x00000000#32 := rfl
@[simp] theorem State.initial_sampleRate : (State.initial zero smoothInit bands nbins).sampleRate = 0 := rfl
@[simp] theorem State.initial_channels : (State.initial zero smoothInit bands nbins).channels = 0 := rfl
@[simp] theorem State.initial_encoding : (State.initial zero smoothInit bands nbins).encoding = 0 := rfl
@[simp] theorem State.initial_fHi : (State.initial zero smoothInit bands nbins).fHi = zero := rfl
@[simp] theorem State.initial_capPhase : (State.initial zero smoothInit bands nbins).capPhase = .ready := rfl
@[simp] theorem State.initial_sumsq : (State.initial zero smoothInit bands nbins).sumsq = zero := rfl
@[simp] theorem State.initial_peak : (State.initial zero smoothInit bands nbins).peak = zero := rfl
@[simp] theorem State.initial_nframes : (State.initial zero smoothInit bands nbins).nframes = 0 := rfl
@[simp] theorem State.initial_mono : (State.initial zero smoothInit bands nbins).mono = [] := rfl
@[simp] theorem State.initial_level : (State.initial zero smoothInit bands nbins).level = ⟨zero, zero⟩ := rfl
@[simp] theorem State.initial_lq : (State.initial zero smoothInit bands nbins).lq = [] := rfl
@[simp] theorem State.initial_fq : (State.initial zero smoothInit bands nbins).fq = [] := rfl
@[simp] theorem State.initial_sq : (State.initial zero smoothInit bands nbins).sq = [] := rfl
@[simp] theorem State.initial_anaPhase : (State.initial zero smoothInit bands nbins).anaPhase = .idle := rfl
@[simp] theorem State.initial_ring : (State.initial zero smoothInit bands nbins).ring = [] := rfl
@[simp] theorem State.initial_bandmap : (State.initial zero smoothInit bands nbins).bandmap = List.replicate nbins 0 := rfl
@[simp] theorem State.initial_smDb : (State.initial zero smoothInit bands nbins).smDb = List.replicate bands smoothInit := rfl
@[simp] theorem State.initial_smLin : (State.initial zero smoothInit bands nbins).smLin = List.replicate bands smoothInit := rfl
@[simp] theorem State.initial_srcRx : (State.initial zero smoothInit bands nbins).srcRx = .header := rfl
@[simp] theorem State.initial_srcIn : (State.initial zero smoothInit bands nbins).srcIn = [] := rfl
@[simp] theorem State.initial_conIn : (State.initial zero smoothInit bands nbins).conIn = [] := rfl
@[simp] theorem State.initial_conOut : (State.initial zero smoothInit bands nbins).conOut = [] := rfl
@[simp] theorem State.initial_turns : (State.initial zero smoothInit bands nbins).turns = [] := rfl
@[simp] theorem State.initial_strayed : (State.initial zero smoothInit bands nbins).strayed = false := rfl
@[simp] theorem State.initial_fresh : (State.initial zero smoothInit bands nbins).fresh = 0 := rfl

end

theorem State.resetAt_eq (p : Params α) :
    State.resetAt p = State.initial p.data.zero p.data.smoothInit p.data.bands p.data.nbins := rfl

end Sys2Proof.Machine
end

