-- ==== Sys2Proof/Laws/Ops.lean ====
section
/-! SUPPORT. One lemma for each shared operation, saying once everything it can do: the tables, FIFOs, the ring, exceptions, the
receive side of port SRC, and the turns of the parties. -/

namespace Sys2Proof.Machine

variable {α : Type}

/-! ## Tables (R126, R220) -/

@[simp] theorem bandmapFor_length (p : Params α) (rate : Nat) : (bandmapFor p rate).length = p.data.nbins := by
  simp [bandmapFor]

theorem bandmapFor_getElem? (p : Params α) (rate : Nat) {i : Nat} (h : i < p.data.nbins) :
    (bandmapFor p rate)[i]? = some (p.data.bandOfBin rate i) := by
  simp [bandmapFor, h]

theorem bandEntry_le (bands : Nat) (b : Int) : bandEntry bands b ≤ bands - 1 := Nat.min_le_right _ _

theorem bandmapFor_le (p : Params α) (rate : Nat) : ∀ b ∈ bandmapFor p rate, b ≤ p.data.bands - 1 := by
  intro b hb
  obtain ⟨i, -, rfl⟩ := List.mem_map.mp hb
  exact bandEntry_le _ _

@[simp] theorem smoothAll_length (d : DataPath α) (new : Nat → α) (previous : List α) :
    (d.smoothAll new previous).length = d.bands := by
  simp [DataPath.smoothAll]

theorem smoothAll_getElem? (d : DataPath α) (new : Nat → α) (previous : List α) {b : Nat} (h : b < d.bands) :
    (d.smoothAll new previous)[b]? = some (d.smooth (new b) (previous.getD b d.zero)) := by
  simp [DataPath.smoothAll, h]

/-! ## FIFOs (R161 to R164) -/

theorem fifoTryPush_cases (cap : Nat) (q : List α) (m : α) :
    (q.length < cap ∧ fifoTryPush cap q m = q ++ [m]) ∨ (cap ≤ q.length ∧ fifoTryPush cap q m = q) := by
  unfold fifoTryPush
  split
  · exact .inl ⟨‹_›, rfl⟩
  · exact .inr ⟨by omega, rfl⟩

theorem fifoTryPush_room {cap : Nat} {q : List α} (h : q.length < cap) (m : α) :
    fifoTryPush cap q m = q ++ [m] := if_pos h

theorem fifoTryPush_full {cap : Nat} {q : List α} (h : cap ≤ q.length) (m : α) :
    fifoTryPush cap q m = q := if_neg (by omega)

theorem fifoTryPush_length {cap : Nat} {q : List α} (h : q.length ≤ cap) (m : α) :
    (fifoTryPush cap q m).length ≤ cap := by
  rcases fifoTryPush_cases cap q m with ⟨hlt, e⟩ | ⟨-, e⟩ <;> rw [e]
  · simpa using hlt
  · exact h

theorem mem_fifoTryPush {cap : Nat} {q : List α} {m x : α} (h : x ∈ fifoTryPush cap q m) :
    x ∈ q ∨ x = m := by
  rcases fifoTryPush_cases cap q m with ⟨-, e⟩ | ⟨-, e⟩ <;> rw [e] at h
  · simpa using h
  · exact .inl h

@[simp] theorem fifoTryPop_nil : fifoTryPop ([] : List α) = (none, []) := rfl

@[simp] theorem fifoTryPop_cons (m : α) (q : List α) : fifoTryPop (m :: q) = (some m, q) := rfl

@[simp] theorem fifoTakeLatest_snd (q : List α) : (fifoTakeLatest q).2 = [] := rfl

@[simp] theorem fifoTakeLatest_nil : fifoTakeLatest ([] : List α) = (none, []) := rfl

@[simp] theorem fifoTakeLatest_append (q : List α) (m : α) :
    fifoTakeLatest (q ++ [m]) = (some m, []) := by
  simp [fifoTakeLatest]

/-! ## The ring (R177, R179, R186, R187) -/

theorem ringPeek_length (f : Nat) (ring : List α) : (ringPeek f ring).length = min f ring.length := by
  simp [ringPeek]

theorem ringPeek_length_eq {f : Nat} {ring : List α} (h : f ≤ ring.length) : (ringPeek f ring).length = f := by
  rw [ringPeek_length, Nat.min_eq_left h]

@[simp] theorem ringDrop_length (hop : Nat) (ring : List α) : (ringDrop hop ring).length = ring.length - hop := by
  simp [ringDrop]

@[simp] theorem loopTest_eq_loop (f : Nat) (ring : List α) : loopTest f ring = .loop ↔ f ≤ ring.length := by
  unfold loopTest; split <;> simp_all

@[simp] theorem loopTest_eq_wait (f : Nat) (ring : List α) : loopTest f ring = .wait ↔ ring.length < f := by
  unfold loopTest; split <;> simp_all

theorem loopTest_cases (f : Nat) (ring : List α) : loopTest f ring = .loop ∨ loopTest f ring = .wait := by
  unfold loopTest; split <;> simp

/-! ## Exceptions (R260, R185, R262) -/

/-- Raising an exception changes `STATUS`, and `ANA.phase` for the transform mismatch alone. -/
theorem raise_frame (e : Exc) (s : State α) :
    ∃ status phase, raise e s = { s with status := status, anaPhase := phase }
      ∧ (e ≠ .transformShapeMismatch → phase = s.anaPhase) := by
  cases e <;> exact ⟨_, _, rfl, by simp⟩

theorem raise_illegal_eq (s : State α) : raise .illegalCommand s = { s with status := s.status ||| illMask } := rfl

/-! ## The receive side of port SRC (R34, R103, R120) -/

/-- Everything `runSource` can do: hold the command, refuse it, or run it on its payload. -/
theorem runSource_cases (i : Instr) (refused : Bool) (run : List Word → State α → State α) (s : State α) :
    (runSource i refused run s = holdCommand i s
        ∧ (s.capPhase ≠ .ready ∨ (refused = false ∧ s.srcIn.length < i.payloadWords)))
      ∨ (runSource i refused run s = discardPayload i.payloadWords (raise .illegalCommand s)
        ∧ s.capPhase = .ready ∧ refused = true)
      ∨ (runSource i refused run s
          = run (s.srcIn.take i.payloadWords)
              { s with srcIn := s.srcIn.drop i.payloadWords, srcRx := .header }
        ∧ s.capPhase = .ready ∧ refused = false ∧ i.payloadWords ≤ s.srcIn.length) := by
  unfold runSource
  split
  · exact .inl ⟨rfl, .inl ‹_›⟩
  · rename_i hready
    have hr : s.capPhase = .ready := by simpa using hready
    split
    · exact .inr (.inl ⟨rfl, hr, ‹_›⟩)
    · rename_i href
      have hf : refused = false := by simpa using href
      split
      · exact .inl ⟨rfl, .inr ⟨hf, ‹_›⟩⟩
      · exact .inr (.inr ⟨rfl, hr, hf, by omega⟩)

theorem runSource_refused (i : Instr) (run : List Word → State α → State α) {s : State α} (h : s.capPhase = .ready) :
    runSource i true run s = discardPayload i.payloadWords (raise .illegalCommand s) := by
  simp [runSource, h]

theorem runSource_ready (i : Instr) (run : List Word → State α → State α) {s : State α} (h : s.capPhase = .ready)
    (hp : i.payloadWords ≤ s.srcIn.length) :
    runSource i false run s
      = run (s.srcIn.take i.payloadWords) { s with srcIn := s.srcIn.drop i.payloadWords, srcRx := .header } := by
  simp [runSource, h, Nat.not_lt.mpr hp]

/-! ## `CFG` past its legality (R121, R123, R260) -/

/-- Everything `cfgBody` can do: one of the three errors in their order, or the configuration. -/
theorem cfgBody_cases (p : Params α) (channels enc : Nat) (rate : Word) (s : State α) :
    (2 < enc ∧ cfgBody p channels enc rate s = raise .cfgUnsupportedEncoding s)
      ∨ (enc ≤ 2 ∧ channels = 0 ∧ cfgBody p channels enc rate s = raise .cfgZeroChannels s)
      ∨ (enc ≤ 2 ∧ channels ≠ 0 ∧ rate.toNat < p.minRate
          ∧ cfgBody p channels enc rate s = raise .cfgBadSampleRate s)
      ∨ (enc ≤ 2 ∧ channels ≠ 0 ∧ p.minRate ≤ rate.toNat
          ∧ cfgBody p channels enc rate s = configure p channels enc rate s) := by
  unfold cfgBody
  split
  · exact .inl ⟨‹_›, rfl⟩
  · split
    · exact .inr (.inl ⟨by omega, ‹_›, rfl⟩)
    · split
      · exact .inr (.inr (.inl ⟨by omega, ‹_›, ‹_›, rfl⟩))
      · exact .inr (.inr (.inr ⟨by omega, ‹_›, by omega, rfl⟩))

/-! ## Responses (R99, R100, R107) -/

/-- A word of a response is what may cross the port. -/
theorem portWord_sends (s : State α) (k : Nat) (image : F32) : Sends s image (portWord s k image) := by
  have hlt := (Config.outgoing s.fresh (s.conOut.length + k)).isLt
  unfold portWord
  cases hs : s.strayed <;> cases hf : NumF32.isFinite image <;>
    simp [Sends, hs, hf, NumF32.isFinite_pack false hlt,
      NumF32.toInt_pack false (show _ < 2 ^ 31 from lt_trans hlt (by decide))]

@[simp] theorem portWord_finite (s : State α) (k : Nat) {image : F32} (h : NumF32.isFinite image = true) :
    portWord s k image = image := (portWord_sends s k image).1 (.inr h)

@[simp] theorem portWords_length (p : Params α) (s : State α) (values : List α) :
    (portWords p s values).length = values.length := List.length_mapIdx

/-- Every word of a response is what may cross the port for its value, in order. -/
theorem portWords_sends (p : Params α) (s : State α) (values : List α) :
    List.Forall₂ (Sends s) (values.map p.data.image) (portWords p s values) := by
  rw [List.forall₂_iff_get]
  refine ⟨by simp, fun i h₁ h₂ => ?_⟩
  simp only [List.get_eq_getElem, List.getElem_map, portWords, List.getElem_mapIdx]
  exact portWord_sends _ _ _

/-! ## `RDREG` (R240) -/

/-- Everything `RDREG` can do: answer a word, or refuse a reserved number. -/
theorem runRdreg_cases (p : Params α) (r : Nat) (s : State α) :
    (∃ w, readRegister p r s = some w ∧ runRdreg p r s = respond [w] s)
      ∨ (readRegister p r s = none ∧ runRdreg p r s = raise .illegalCommand s) := by
  unfold runRdreg
  cases h : readRegister p r s with
  | none => exact .inr ⟨rfl, rfl⟩
  | some w => exact .inl ⟨w, rfl, rfl⟩

theorem readRegister_none_iff (p : Params α) (r : Nat) (s : State α) : readRegister p r s = none ↔ 16 < r := by
  constructor
  · intro h
    by_contra hr
    have hr : r ≤ 16 := by omega
    interval_cases r <;> simp [readRegister] at h
  · intro h
    unfold readRegister
    split <;> first | omega | rfl

/-! ## The downmix (R142, R143) -/

@[simp] theorem downmix_length (d : DataPath α) (c : Nat) (enc : BitVec 8)
    (frames base : Nat) (raw : List Word) : (d.downmix c enc frames base raw).length = frames := by
  induction frames generalizing base raw with
  | zero => rfl
  | succ k ih => simp [DataPath.downmix, ih]

/-- The mono sample of frame `k` is the downmix of the frame that starts `k·C` raw samples on. -/
theorem downmix_getElem? (d : DataPath α) (c : Nat) (enc : BitVec 8)
    (frames base : Nat) (raw : List Word) (k : Nat) (h : k < frames) :
    (d.downmix c enc frames base raw)[k]? = some (d.dmxFrame c enc (base + k * c) (raw.drop (k * c))) := by
  induction frames generalizing base raw k with
  | zero => omega
  | succ n ih =>
    cases k with
    | zero => simp [DataPath.downmix]
    | succ j =>
      rw [DataPath.downmix, List.getElem?_cons_succ, ih _ _ j (by omega), List.drop_drop]
      rw [show base + c + j * c = base + (j + 1) * c by ring, show c + j * c = (j + 1) * c by ring]

/-! ## The turns of the parties -/

/-- Everything the analyzer's turn can do (R23). -/
theorem stepAna_cases (p : Params α) (s : State α) :
    (stepAna p s = s ∧ s.anaEnabled = false)
      ∨ (∃ batch rest, s.anaPhase = .wait ∧ s.fq = batch :: rest ∧ stepAna p s = anaRecv p batch rest s)
      ∨ (s.anaPhase = .wait ∧ s.fq = [] ∧ s.closed = true ∧ stepAna p s = anaExit s)
      ∨ (s.anaPhase = .loop ∧ p.data.fftSize ≤ s.ring.length ∧ stepAna p s = anaPass p (ringPeek p.data.fftSize s.ring) s)
      ∨ (s.anaPhase = .loop ∧ s.ring.length < p.data.fftSize
          ∧ stepAna p s = raise .transformShapeMismatch s) := by
  cases hp : s.anaPhase with
  | idle => exact .inl ⟨by simp [stepAna, hp], by simp [State.anaEnabled, hp]⟩
  | exited => exact .inl ⟨by simp [stepAna, hp], by simp [State.anaEnabled, hp]⟩
  | aborted => exact .inl ⟨by simp [stepAna, hp], by simp [State.anaEnabled, hp]⟩
  | loop =>
    refine .inr (.inr (.inr ?_))
    by_cases h : p.data.fftSize ≤ s.ring.length
    · exact .inl ⟨rfl, h, by simp [stepAna, hp, anaStep, ringPeek_length_eq h]⟩
    · refine .inr ⟨rfl, by omega, ?_⟩
      have hne : (ringPeek p.data.fftSize s.ring).length ≠ p.data.fftSize := by rw [ringPeek_length]; omega
      simp [stepAna, hp, anaStep, hne]
  | wait =>
    cases hq : s.fq with
    | cons batch rest => exact .inr (.inl ⟨batch, rest, rfl, rfl, by simp [stepAna, hp, anaWait, hq]⟩)
    | nil =>
      cases hc : s.closed with
      | true => exact .inr (.inr (.inl ⟨rfl, rfl, rfl, by simp [stepAna, hp, anaWait, hq, hc]⟩))
      | false => exact .inl ⟨by simp [stepAna, hp, anaWait, hq, hc], by simp [State.anaEnabled, hp, hq, hc]⟩

/-- Everything the capture context's turn can do (R24). -/
theorem stepCap_cases (p : Params α) (s : State α) :
    (s.capPhase = .ready ∧ stepCap p s = s) ∨ (s.capPhase = .pubLevel ∧ stepCap p s = capPubl p s)
      ∨ (s.capPhase = .pubFrame ∧ stepCap p s = capPubf p s) := by
  cases h : s.capPhase <;> simp [stepCap, h]

/-- A turn never touches the block: it only takes the mover off the schedule, or counts a free value. -/
theorem takeTurn_cases (s : State α) :
    (s.turns = [] ∧ takeTurn s = (Config.freeMove s.fresh, { s with fresh := s.fresh + 1 }))
      ∨ (∃ m rest, s.turns = m :: rest ∧ takeTurn s = (m, { s with turns := rest })) := by
  unfold takeTurn
  cases h : s.turns with
  | nil => exact .inl ⟨rfl, rfl⟩
  | cons m rest => exact .inr ⟨m, rest, rfl, rfl⟩

theorem takeTurn_of_turns {s : State α} {m : Move} {rest : List Move} (h : s.turns = m :: rest) :
    takeTurn s = (m, { s with turns := rest }) := by
  simp [takeTurn, h]

theorem step_of_turns {s : State} {m : Move} {rest : List Move} (h : s.turns = m :: rest) :
    step s = turn Params.default exec m { s with turns := rest } := by
  simp [step, takeTurn_of_turns h]

/-- A scheduled turn of the capture context (R24). -/
theorem step_of_cap {s : State} {rest : List Move} (h : s.turns = .cap :: rest) :
    step s = .next (stepCap Params.default { s with turns := rest }) := step_of_turns h

/-- A scheduled turn of the analyzer (R23). -/
theorem step_of_ana {s : State} {rest : List Move} (h : s.turns = .ana :: rest) :
    step s = .next (stepAna Params.default { s with turns := rest }) := step_of_turns h

/-- A scheduled turn of the capture source (R120). -/
theorem step_of_src {s : State} {rest : List Move} (h : s.turns = .src :: rest) :
    step s = stepSrc exec { s with turns := rest } := step_of_turns h

/-- A scheduled turn of the consumer (R235). -/
theorem step_of_con {s : State} {rest : List Move} (h : s.turns = .con :: rest) :
    step s = stepCon exec { s with turns := rest } := step_of_turns h

end Sys2Proof.Machine
end

