-- ==== Sys2Proof/Laws/PerInstr.lean ====
section
/-! SUPPORT. The per-instruction family `HeaderRow`: the header word of every well-formed command lies in the row that the
opcode map gives the command (the match and mask columns of R87). -/

namespace Sys2Proof

/-- Bit `i` of a header with an operand below 2^k, for `k` at most 24: an operand bit below `k`, from `k` on a bit that
only the opcode decides. -/
theorem header_getLsbD (op a k : Nat) (hk : k ≤ 24) (ha : a < 2 ^ k) (i : Nat) :
    (header op a).getLsbD i = (decide (i < 32) && if i < k then a.testBit i else (op * 2 ^ (24 - k)).testBit (i - k)) := by
  have e : op * 2 ^ 24 + a = 2 ^ k * (op * 2 ^ (24 - k)) + a := by
    rw [show (2 : Nat) ^ 24 = 2 ^ (24 - k) * 2 ^ k by rw [← Nat.pow_add]; congr 1; omega]; ring
  rw [header, BitVec.getLsbD_ofNat, e, Nat.testBit_two_pow_mul_add _ ha]

/-- Masking out the operand field of a header leaves the header with operand 0. -/
theorem header_and_mask (op a k : Nat) (hk : k ≤ 24) (ha : a < 2 ^ k) (mask : Word)
    (hm : ∀ i < 32, mask.getLsbD i = decide (k ≤ i)) : header op a &&& mask = header op 0 := by
  apply BitVec.eq_of_getLsbD_eq
  intro i hi
  rw [BitVec.getLsbD_and, hm i hi, header_getLsbD op a k hk ha, header_getLsbD op 0 k hk (by positivity)]
  by_cases h : i < k
  · simp [h, Nat.not_le.mpr h]
  · simp [h, Nat.not_lt.mp h]

namespace Laws.HeaderRow

/-- The header of a well-formed command matches its row of the opcode map (R87). -/
def Statement (i : Instr) : Prop := i.wellFormed = true → encode i &&& i.rowMask = i.rowMatch

theorem cfg (channels enc : Nat) : Statement (.cfg channels enc) := by
  intro h
  simp only [Instr.wellFormed, Bool.and_eq_true, decide_eq_true_eq] at h
  exact (header_and_mask 1 (channels * 2 ^ 8 + enc) 24 (by omega) (by omega) 0xFF000000 (by decide)).trans rfl

theorem batch (n : Nat) : Statement (.batch n) := by
  intro h
  simp only [Instr.wellFormed, decide_eq_true_eq] at h
  exact (header_and_mask 2 n 24 (by omega) h 0xFF000000 (by decide)).trans rfl

theorem close : Statement .close := fun _ => by decide

theorem lvlPop : Statement .lvlPop := fun _ => by decide

theorem lvlLatest : Statement .lvlLatest := fun _ => by decide

theorem spcPop : Statement .spcPop := fun _ => by decide

theorem spcLatest : Statement .spcLatest := fun _ => by decide

theorem rdreg (r : Nat) : Statement (.rdreg r) := by
  intro h
  simp only [Instr.wellFormed, decide_eq_true_eq] at h
  exact (header_and_mask 0x18 r 8 (by omega) h 0xFFFFFF00 (by decide)).trans rfl

end Laws.HeaderRow

end Sys2Proof
end

