-- ==== Sys2Proof/Laws/Reference.lean ====
section
/-! SUPPORT. How close the fixed-point functions are to the real ones: `cosTurn` to the cosine, `lnRatio`, `lnRef` and `log10Ref` to
the logarithms, and what follows for the transform's sums, the window and the rounded results. -/

namespace Sys2Proof.NumF32

/-! ## The cosine -/

/-- The terms of the cosine's series. -/
noncomputable def cosTerm (x : ℝ) (k : Nat) : ℝ := x ^ (2 * k) / (2 * k).factorial

theorem cosTerm_succ (x : ℝ) (k : Nat) :
    cosTerm x (k + 1) = cosTerm x k * x ^ 2 / (((2 * k + 1) * (2 * k + 2) : Nat) : ℝ) := by
  have h : (2 * (k + 1)).factorial = (2 * k).factorial * ((2 * k + 1) * (2 * k + 2)) := by
    rw [show 2 * (k + 1) = 2 * k + 1 + 1 by ring, Nat.factorial_succ, Nat.factorial_succ]; ring
  unfold cosTerm
  rw [h, show 2 * (k + 1) = 2 * k + 2 by ring, pow_add, Nat.cast_mul]
  have h1 : (((2 * k).factorial : Nat) : ℝ) ≠ 0 := by positivity
  have h2 : (((2 * k + 1) * (2 * k + 2) : Nat) : ℝ) ≠ 0 := by positivity
  field_simp

/-- 45 terms of the series give the cosine. -/
theorem cos_taylor {x : ℝ} (hx : |x| ≤ 7) :
    |Real.cos x - ∑ k ∈ Finset.range 45, (-1) ^ k * cosTerm x k| ≤ 1 / 2 ^ 100 := by
  have hn : ‖(x : ℂ) * Complex.I‖ = |x| := by simp
  have h := Complex.exp_bound' (x := (x : ℂ) * Complex.I) (n := 90) (by rw [hn]; push_cast; linarith)
  have hsum : ∀ K : Nat, (∑ m ∈ Finset.range (2 * K), ((x : ℂ) * Complex.I) ^ m / (m.factorial : ℂ)).re
      = ∑ k ∈ Finset.range K, (-1) ^ k * cosTerm x k := by
    intro K
    induction K with
    | zero => simp
    | succ K ih =>
      rw [show 2 * (K + 1) = 2 * K + 1 + 1 by ring, Finset.sum_range_succ, Finset.sum_range_succ, Finset.sum_range_succ,
        Complex.add_re, Complex.add_re, ih]
      have e1 : ((x : ℂ) * Complex.I) ^ (2 * K) / ((2 * K).factorial : ℂ)
          = (((-1) ^ K * cosTerm x K : ℝ) : ℂ) := by
        rw [mul_pow, pow_mul Complex.I, Complex.I_sq]; unfold cosTerm; push_cast; ring
      have e2 : ((x : ℂ) * Complex.I) ^ (2 * K + 1) / ((2 * K + 1).factorial : ℂ)
          = (((-1) ^ K * (x ^ (2 * K + 1) / (2 * K + 1).factorial) : ℝ) : ℂ) * Complex.I := by
        rw [mul_pow, pow_succ Complex.I, pow_mul Complex.I, Complex.I_sq]; push_cast; ring
      rw [e1, e2, Complex.ofReal_re, Complex.re_ofReal_mul, Complex.I_re]; ring
  have hre := (Complex.abs_re_le_norm _).trans h
  rw [Complex.sub_re, Complex.exp_ofReal_mul_I_re, show (90 : Nat) = 2 * 45 by rfl, hsum 45, hn] at hre
  refine hre.trans ?_
  have h7 : |x| ^ (2 * 45) ≤ 7 ^ (2 * 45) := by gcongr
  have hf : (0 : ℝ) < ((2 * 45).factorial : Nat) := by positivity
  calc |x| ^ (2 * 45) / ((2 * 45).factorial : Nat) * 2 ≤ 7 ^ (2 * 45) / ((2 * 45).factorial : Nat) * 2 := by gcongr
    _ ≤ 1 / 2 ^ 100 := by
      norm_num [Nat.factorial]

/-- One step of the series' loop, `t` being close to a term. -/
theorem cosStep_close {a t k : Nat} {c : ℝ} (ha : a * a ≤ 40 * fix * fix) (ht : t ≤ 2 ^ 10 * fix)
    (h : |(t : ℝ) - fix * cosTerm (a / fix) k| ≤ c) :
    |((t * (a * a / fix) / fix / ((2 * k + 1) * (2 * k + 2)) : Nat) : ℝ) - fix * cosTerm (a / fix) (k + 1)|
        ≤ 40 / (((2 * k + 1) * (2 * k + 2) : Nat) : ℝ) * c + 2 ^ 11
      ∧ t * (a * a / fix) / fix / ((2 * k + 1) * (2 * k + 2)) ≤ t * 40 / ((2 * k + 1) * (2 * k + 2)) := by
  have hfix : 0 < fix := by positivity
  have hsq : a * a / fix ≤ 40 * fix := by
    apply Nat.div_le_of_le_mul; linarith
  have hts : t * (a * a / fix) / fix ≤ t * 40 := by
    apply Nat.div_le_of_le_mul; nlinarith
  refine ⟨?_, Nat.div_le_div_right hts⟩
  generalize hD : (2 * k + 1) * (2 * k + 2) = D
  have hD2 : 2 ≤ D := by rw [← hD]; nlinarith
  have hDpos : (0 : ℝ) < D := by positivity
  have hfr : (0 : ℝ) < (fix : ℝ) := by positivity
  rw [cosTerm_succ, hD]
  set x : ℝ := a / fix with hx
  set T := cosTerm x k
  -- the floors as reals
  have floor_lo : ∀ n d : Nat, 0 < d → (n : ℝ) / d - 1 ≤ ((n / d : Nat) : ℝ) := by
    intro n d hd
    have : n < (n / d + 1) * d := by
      have := Nat.lt_div_mul_add hd (a := n); linarith
    have h2 : (n : ℝ) < ((n / d : Nat) + 1) * d := by exact_mod_cast this
    rw [sub_le_iff_le_add, div_le_iff₀ (by positivity)]; exact h2.le
  have floor_hi : ∀ n d : Nat, ((n / d : Nat) : ℝ) ≤ (n : ℝ) / d := fun n d => Nat.cast_div_le
  set sq := a * a / fix with hsqdef
  have hx2 : x ^ 2 = ((a * a : Nat) : ℝ) / fix / fix := by rw [hx]; push_cast; field_simp
  have s1 : (sq : ℝ) / fix ≤ x ^ 2 := by
    have := floor_hi (a * a) fix
    rw [hx2]; gcongr
  have s2 : x ^ 2 - 1 / fix ≤ (sq : ℝ) / fix := by
    have := floor_lo (a * a) fix hfix
    rw [hx2, ← sub_div]; gcongr
  have hx40 : x ^ 2 ≤ 40 := by
    have : (a : ℝ) * a ≤ 40 * fix * fix := by exact_mod_cast ha
    rw [hx, div_pow, div_le_iff₀ (by positivity)]; nlinarith
  have hx0 : 0 ≤ x ^ 2 := sq_nonneg x
  have htr : (t : ℝ) ≤ 2 ^ 10 * fix := by exact_mod_cast ht
  have ht0 : (0 : ℝ) ≤ t := by positivity
  set u := ((t * sq / fix / D : Nat) : ℝ) with hu
  have u_hi : u ≤ t * ((sq : ℝ) / fix) / D := by
    have h1 := floor_hi (t * sq / fix) D
    have h2 := floor_hi (t * sq) fix
    refine h1.trans ?_
    gcongr
    refine h2.trans (le_of_eq ?_)
    push_cast; ring
  have u_lo : t * ((sq : ℝ) / fix) / D - 2 ≤ u := by
    have h1 := floor_lo (t * sq / fix) D (by omega)
    have h2 := floor_lo (t * sq) fix hfix
    have h3 : (((t * sq : Nat) : ℝ) / fix - 1) / D ≤ ((t * sq / fix : Nat) : ℝ) / D := by gcongr
    have h4 : (t : ℝ) * ((sq : ℝ) / fix) / D = ((t * sq : Nat) : ℝ) / fix / D := by push_cast; ring
    have h5 : (1 : ℝ) / D ≤ 1 := by rw [div_le_one hDpos]; exact_mod_cast (by omega : 1 ≤ D)
    rw [sub_div] at h3
    rw [h4]; linarith [hu]
  have key : |(t : ℝ) * ((sq : ℝ) / fix) / D - fix * (T * x ^ 2 / D)| ≤ 40 / D * c + 2 ^ 10 := by
    have e : (t : ℝ) * ((sq : ℝ) / fix) / D - fix * (T * x ^ 2 / D)
        = (t - fix * T) * (x ^ 2 / D) - t * (x ^ 2 - (sq : ℝ) / fix) / D := by ring
    have b1 : |(t - fix * T) * (x ^ 2 / D)| ≤ 40 / D * c := by
      rw [abs_mul, abs_of_nonneg (div_nonneg hx0 hDpos.le), mul_comm]
      have : x ^ 2 / D ≤ 40 / D := by gcongr
      have hc : 0 ≤ c := (abs_nonneg _).trans h
      exact mul_le_mul this h (abs_nonneg _) (by positivity)
    have b2 : |t * (x ^ 2 - (sq : ℝ) / fix) / D| ≤ 2 ^ 10 := by
      have p : 0 ≤ x ^ 2 - (sq : ℝ) / fix := by linarith
      rw [abs_of_nonneg (by positivity), div_le_iff₀ hDpos]
      have p2 : x ^ 2 - (sq : ℝ) / fix ≤ 1 / fix := by linarith
      have hD1 : (1 : ℝ) ≤ D := by exact_mod_cast (by omega : 1 ≤ D)
      calc (t : ℝ) * (x ^ 2 - (sq : ℝ) / fix) ≤ 2 ^ 10 * fix * (1 / fix) := by gcongr
        _ = 2 ^ 10 := by field_simp
        _ ≤ 2 ^ 10 * D := by nlinarith
    rw [e]
    exact (abs_sub _ _).trans (by linarith)
  have : |u - (t : ℝ) * ((sq : ℝ) / fix) / D| ≤ 2 := by rw [abs_le]; constructor <;> linarith
  calc |u - fix * (T * x ^ 2 / D)| ≤ |u - (t : ℝ) * ((sq : ℝ) / fix) / D| + |(t : ℝ) * ((sq : ℝ) / fix) / D - fix * (T * x ^ 2 / D)| :=
        abs_sub_le _ _ _
    _ ≤ _ := by linarith

/-- The loop from its fourth term on, where each factor of the recurrence is below 1. -/
theorem cosSeries_close {a : Nat} (ha : a * a ≤ 40 * fix * fix) (fuel k t even odd : Nat) {c : ℝ} (hk : 3 ≤ k)
    (ht : t ≤ 2 ^ 10 * fix) (h : |(t : ℝ) - fix * cosTerm (a / fix) k| ≤ c) :
    |(cosSeries (a * a / fix) fuel k t even odd : ℝ)
        - ((even : ℝ) - odd + fix * ∑ j ∈ Finset.range fuel, (-1) ^ (k + j) * cosTerm (a / fix) (k + j))|
      ≤ fuel * (c + 2 ^ 11 * fuel) := by
  induction fuel generalizing k t even odd c with
  | zero => simp [cosSeries]
  | succ n ih =>
    obtain ⟨h1, h2⟩ := cosStep_close ha ht h
    have hc : 0 ≤ c := (abs_nonneg _).trans h
    have hD : 40 ≤ (2 * k + 1) * (2 * k + 2) := by nlinarith
    have hDr : (40 : ℝ) ≤ (((2 * k + 1) * (2 * k + 2) : Nat) : ℝ) := by exact_mod_cast hD
    have h1' := h1.trans (b := _) (c := c + 2 ^ 11) (by
      have : 40 / (((2 * k + 1) * (2 * k + 2) : Nat) : ℝ) ≤ 1 := by rw [div_le_one (by linarith)]; exact hDr
      nlinarith)
    have ht' : t * (a * a / fix) / fix / ((2 * k + 1) * (2 * k + 2)) ≤ 2 ^ 10 * fix := by
      refine h2.trans (le_trans ?_ ht)
      apply Nat.div_le_of_le_mul; nlinarith
    have := ih (k + 1) _ (if k % 2 = 0 then even + t else even) (if k % 2 = 0 then odd else odd + t) (by omega) ht' h1'
    rw [cosSeries, Finset.sum_range_succ']
    set R : ℝ := (cosSeries (a * a / fix) n (k + 1) (t * (a * a / fix) / fix / ((2 * k + 1) * (2 * k + 2)))
      (if k % 2 = 0 then even + t else even) (if k % 2 = 0 then odd else odd + t) : ℝ)
    have es : ∑ j ∈ Finset.range n, (-1 : ℝ) ^ (k + (j + 1)) * cosTerm (a / fix) (k + (j + 1))
        = ∑ j ∈ Finset.range n, (-1) ^ (k + 1 + j) * cosTerm (a / fix) (k + 1 + j) :=
      Finset.sum_congr rfl fun j _ => by rw [show k + (j + 1) = k + 1 + j by ring]
    rw [es]
    set S := ∑ j ∈ Finset.range n, (-1 : ℝ) ^ (k + 1 + j) * cosTerm (a / fix) (k + 1 + j)
    have e : (((if k % 2 = 0 then even + t else even : Nat) : ℝ) - ((if k % 2 = 0 then odd else odd + t : Nat) : ℝ))
        = (even : ℝ) - odd + (-1) ^ k * t := by
      rcases Nat.even_or_odd k with hp | hp
      · rw [if_pos (Nat.even_iff.mp hp), if_pos (Nat.even_iff.mp hp), hp.neg_one_pow]; push_cast; ring
      · have := Nat.odd_iff.mp hp
        rw [if_neg (by omega), if_neg (by omega), hp.neg_one_pow]; push_cast; ring
    rw [e] at this
    have split : R - ((even : ℝ) - odd + fix * (S + (-1) ^ (k + 0) * cosTerm (a / fix) (k + 0)))
        = (R - ((even : ℝ) - odd + (-1) ^ k * t + fix * S)) + (-1) ^ k * (t - fix * cosTerm (a / fix) k) := by
      simp only [add_zero]; ring
    rw [split]
    have b : |(-1 : ℝ) ^ k * (t - fix * cosTerm (a / fix) k)| ≤ c := by
      rw [abs_mul, abs_neg_one_pow, one_mul]; exact h
    refine (abs_add_le _ _).trans ((add_le_add this b).trans ?_)
    rw [Nat.cast_add_one]
    have hn : (0 : ℝ) ≤ n := by positivity
    linarith [show ((n : ℝ) + 1) * (c + 2 ^ 11 * (n + 1)) = n * (c + 2 ^ 11 + 2 ^ 11 * n) + c + 2 ^ 11 * (n + 1) by ring]

/-- π in fixed point. -/
theorem piFix_close : |(piFix : ℝ) / fix - Real.pi| ≤ 1 / 2 ^ 65 := by
  have h1 := Real.pi_gt_d20
  have h2 := Real.pi_lt_d20
  have l : (3.14159265358979323846 : ℝ) - 1 / 2 ^ 67 ≤ (piFix : ℝ) / fix := by
    unfold piFix; norm_num
  have u : (piFix : ℝ) / fix ≤ 3.14159265358979323847 + 1 / 2 ^ 67 := by
    unfold piFix; norm_num
  have : (3.14159265358979323847 : ℝ) - 3.14159265358979323846 + 1 / 2 ^ 67 ≤ 1 / 2 ^ 65 := by norm_num
  rw [abs_le]; constructor <;> linarith

/-- `cosTurn` is the cosine of the fraction of a turn, to within 2^−60. -/
theorem cosTurn_close (p q : Nat) (hq : 0 < q) :
    |(cosTurn p q : ℝ) / fix - Real.cos (2 * Real.pi * p / q)| ≤ 1 / 2 ^ 60 := by
  have hfix : (0 : ℝ) < (fix : ℝ) := by positivity
  have hqr : (0 : ℝ) < q := by positivity
  set m := p % q with hm
  have hmq : m < q := Nat.mod_lt _ hq
  set a := 2 * piFix * m / q with ha
  -- the angle
  have hpi := piFix_close
  have hmr : (m : ℝ) / q ≤ 1 := by rw [div_le_one hqr]; exact_mod_cast hmq.le
  have hm0 : (0 : ℝ) ≤ (m : ℝ) / q := by positivity
  have a_hi : (a : ℝ) ≤ 2 * piFix * (m / q) := by
    have := Nat.cast_div_le (m := 2 * piFix * m) (n := q) (α := ℝ)
    refine this.trans (le_of_eq ?_); push_cast; ring
  have a_lo : 2 * piFix * ((m : ℝ) / q) - 1 ≤ a := by
    have h := Nat.lt_div_mul_add hq (a := 2 * piFix * m)
    have h2 : ((2 * piFix * m : Nat) : ℝ) < ((2 * piFix * m / q : Nat) + 1) * q := by
      have : 2 * piFix * m < (2 * piFix * m / q + 1) * q := by linarith
      exact_mod_cast this
    have : 2 * (piFix : ℝ) * (m / q) ≤ a + 1 := by
      rw [← mul_div_assoc, div_le_iff₀ hqr]; push_cast at h2; exact h2.le
    linarith
  have hang : |(a : ℝ) / fix - 2 * Real.pi * (m / q)| ≤ 1 / 2 ^ 63 := by
    have e1 : (a : ℝ) / fix ≤ 2 * (piFix / fix) * (m / q) := by
      rw [div_le_iff₀ hfix]; refine a_hi.trans (le_of_eq ?_); field_simp
    have e2 : 2 * ((piFix : ℝ) / fix) * (m / q) - 1 / fix ≤ a / fix := by
      rw [le_div_iff₀ hfix]; refine le_trans (le_of_eq ?_) a_lo; field_simp
    have e3 : (1 : ℝ) / fix ≤ 1 / 2 ^ 66 := by norm_num
    rw [abs_le] at hpi ⊢
    constructor <;> nlinarith
  have hx : |(a : ℝ) / fix| ≤ 7 := by
    rw [abs_of_nonneg (by positivity)]
    have h4 := Real.pi_lt_d2
    have := (abs_le.mp hang).2
    have h5 : 2 * Real.pi * ((m : ℝ) / q) ≤ 2 * 3.15 := by nlinarith [Real.pi_pos]
    norm_num at this; linarith
  have hcos := Real.abs_cos_sub_cos_le ((a : ℝ) / fix) (2 * Real.pi * (m / q))
  have hper : Real.cos (2 * Real.pi * p / q) = Real.cos (2 * Real.pi * (m / q)) := by
    have : (p : ℝ) = m + q * (p / q : Nat) := by
      have := Nat.mod_add_div p q; rw [hm]; exact_mod_cast this.symm
    rw [show 2 * Real.pi * (p : ℝ) / q = 2 * Real.pi * (m / q) + (p / q : Nat) * (2 * Real.pi) by
      rw [this]; field_simp]
    exact Real.cos_add_nat_mul_two_pi _ _
  rw [hper]
  -- the series
  have hsq : a * a ≤ 40 * fix * fix := by
    have h6 : 4 * piFix * piFix ≤ 40 * fix * fix := by decide +kernel
    have h7 : a ≤ 2 * piFix := by
      rw [ha]; apply Nat.div_le_of_le_mul; nlinarith
    nlinarith
  have h0 : |((fix : Nat) : ℝ) - fix * cosTerm (a / fix) 0| ≤ 0 := by simp [cosTerm]
  obtain ⟨h1, t1⟩ := cosStep_close (k := 0) hsq (by norm_num) h0
  set u1 := fix * (a * a / fix) / fix / ((2 * 0 + 1) * (2 * 0 + 2)) with hu1
  have t1' : u1 ≤ 20 * fix := by omega
  obtain ⟨h2, t2⟩ := cosStep_close (k := 1) hsq (by omega) h1
  set u2 := u1 * (a * a / fix) / fix / ((2 * 1 + 1) * (2 * 1 + 2)) with hu2
  have t2' : u2 ≤ 67 * fix := by omega
  obtain ⟨h3, t3⟩ := cosStep_close (k := 2) hsq (by omega) h2
  set u3 := u2 * (a * a / fix) / fix / ((2 * 2 + 1) * (2 * 2 + 2)) with hu3
  have t3' : u3 ≤ 2 ^ 10 * fix := by omega
  have hmain := cosSeries_close hsq 42 3 u3 (fix + u2) u1 le_rfl t3' h3
  have eC : cosTurn p q = cosSeries (a * a / fix) 42 3 u3 (fix + u2) u1 := by
    show cosSeries (a * a / fix) (42 + 1 + 1 + 1) 0 fix 0 0 = _
    rw [cosSeries, cosSeries, cosSeries]
    simp only [hu3, hu2, hu1]
    norm_num
  have hT := cos_taylor hx
  rw [show 45 = 3 + 42 by rfl, Finset.sum_range_add] at hT
  set S := ∑ j ∈ Finset.range 42, (-1 : ℝ) ^ (3 + j) * cosTerm (a / fix) (3 + j)
  have hfirst : ∑ j ∈ Finset.range 3, (-1 : ℝ) ^ j * cosTerm (a / fix) j
      = cosTerm (a / fix) 0 - cosTerm (a / fix) 1 + cosTerm (a / fix) 2 := by
    simp [Finset.sum_range_succ]; ring
  rw [hfirst] at hT
  rw [eC]
  set R : ℝ := (cosSeries (a * a / fix) 42 3 u3 (fix + u2) u1 : ℝ)
  set x : ℝ := a / fix with hxdef
  have b1 : |(u1 : ℝ) - fix * cosTerm x 1| ≤ 2 ^ 11 := h1.trans (by norm_num)
  have b2 : |(u2 : ℝ) - fix * cosTerm x 2| ≤ 2 ^ 14 := h2.trans (by norm_num)
  have b3 : |R - (((fix + u2 : Nat) : ℝ) - u1 + fix * S)| ≤ 2 ^ 23 := hmain.trans (by norm_num)
  have b0 : (fix : ℝ) * cosTerm x 0 = fix := by simp [cosTerm]
  have btot : |R - fix * (cosTerm x 0 - cosTerm x 1 + cosTerm x 2 + S)| ≤ 2 ^ 24 := by
    rw [Nat.cast_add] at b3
    rw [abs_le] at b1 b2 b3 ⊢
    constructor <;> linarith
  have bdiv : |R / fix - (cosTerm x 0 - cosTerm x 1 + cosTerm x 2 + S)| ≤ 1 / 2 ^ 100 := by
    have e : R / fix - (cosTerm x 0 - cosTerm x 1 + cosTerm x 2 + S)
        = (R - fix * (cosTerm x 0 - cosTerm x 1 + cosTerm x 2 + S)) / fix := by field_simp
    rw [e, abs_div, abs_of_pos hfix, div_le_iff₀ hfix]
    exact btot.trans (by norm_num)
  have hcos' := hcos.trans hang
  have : (1 : ℝ) / 2 ^ 100 + 1 / 2 ^ 100 + 1 / 2 ^ 63 ≤ 1 / 2 ^ 60 := by norm_num
  rw [abs_le] at bdiv hT hcos' ⊢
  constructor <;> linarith

/-! ## The logarithms -/

/-- 60 terms of the series of the inverse hyperbolic tangent, twice, give `log(1+y) − log(1−y)`. -/
theorem atanh_taylor {y : ℝ} (h0 : 0 ≤ y) (h1 : y ≤ 1 / 3) :
    |Real.log (1 + y) - Real.log (1 - y) - 2 * ∑ k ∈ Finset.range 60, y ^ (2 * k + 1) / (2 * k + 1 : Nat)|
      ≤ 1 / 2 ^ 180 := by
  have hy : |y| < 1 := by rw [abs_of_nonneg h0]; linarith
  have a1 := Real.abs_log_sub_add_sum_range_le hy 120
  have a2 := Real.abs_log_sub_add_sum_range_le (x := -y) (by rwa [abs_neg]) 120
  rw [sub_neg_eq_add] at a2
  have hsum : ∀ K : Nat, ∑ i ∈ Finset.range (2 * K), y ^ (i + 1) / ((i : ℝ) + 1)
      - ∑ i ∈ Finset.range (2 * K), (-y) ^ (i + 1) / ((i : ℝ) + 1)
      = 2 * ∑ k ∈ Finset.range K, y ^ (2 * k + 1) / (2 * k + 1 : Nat) := by
    intro K
    induction K with
    | zero => simp
    | succ K ih =>
      rw [show 2 * (K + 1) = 2 * K + 1 + 1 by ring, Finset.sum_range_succ, Finset.sum_range_succ, Finset.sum_range_succ,
        Finset.sum_range_succ, Finset.sum_range_succ, mul_add, ← ih]
      have e1 : (-y) ^ (2 * K + 1) = -y ^ (2 * K + 1) := (odd_two_mul_add_one K).neg_pow y
      have e2 : (-y) ^ (2 * K + 1 + 1) = y ^ (2 * K + 1 + 1) := Even.neg_pow ⟨K + 1, by ring⟩ y
      rw [e1, e2]; push_cast; ring
  have := hsum 60
  rw [show 2 * 60 = 120 by rfl] at this
  have hb : |y| ^ (120 + 1) / (1 - |y|) ≤ 1 / 2 ^ 181 := by
    rw [abs_of_nonneg h0, div_le_div_iff₀ (by linarith) (by positivity)]
    calc y ^ (120 + 1) * 2 ^ 181 ≤ (1 / 3) ^ (120 + 1) * 2 ^ 181 := by gcongr
      _ ≤ 1 * (1 - 1 / 3) := by norm_num
      _ ≤ 1 * (1 - y) := by linarith
  rw [abs_neg] at a2
  have a1' := a1.trans hb
  have a2' := a2.trans hb
  have e : (1 : ℝ) / 2 ^ 181 + 1 / 2 ^ 181 ≤ 1 / 2 ^ 180 := by norm_num
  rw [← this]
  rw [abs_le] at a1' a2' ⊢
  constructor <;> linarith

/-- The loop of the inverse hyperbolic tangent. -/
theorem atanhSeries_close {z : Nat} (hz : 3 * z ≤ fix) (fuel k p acc : Nat) (hp : p ≤ fix)
    (h : |(p : ℝ) - fix * (z / fix : ℝ) ^ (2 * k + 1)| ≤ 3) :
    |(atanhSeries (z * z / fix) fuel k p acc : ℝ)
        - (acc + fix * ∑ j ∈ Finset.range fuel, (z / fix : ℝ) ^ (2 * (k + j) + 1) / (2 * (k + j) + 1 : Nat))|
      ≤ 4 * fuel := by
  induction fuel generalizing k p acc with
  | zero => simp [atanhSeries]
  | succ n ih =>
    have hfix : 0 < fix := by positivity
    have hfr : (0 : ℝ) < (fix : ℝ) := by positivity
    set y : ℝ := z / fix with hy
    have hy0 : 0 ≤ y := by positivity
    have hy3 : y ≤ 1 / 3 := by
      rw [hy, div_le_div_iff₀ hfr (by norm_num)]; have : (3 * z : ℝ) ≤ fix := by exact_mod_cast hz
      linarith
    have floor_lo : ∀ n d : Nat, 0 < d → (n : ℝ) / d - 1 ≤ ((n / d : Nat) : ℝ) := by
      intro n d hd
      have : n < (n / d + 1) * d := by
        have := Nat.lt_div_mul_add hd (a := n); linarith
      have h2 : (n : ℝ) < ((n / d : Nat) + 1) * d := by exact_mod_cast this
      rw [sub_le_iff_le_add, div_le_iff₀ (by positivity)]; exact h2.le
    have floor_hi : ∀ n d : Nat, ((n / d : Nat) : ℝ) ≤ (n : ℝ) / d := fun n d => Nat.cast_div_le
    have hsq1 : ((z * z / fix : Nat) : ℝ) / fix ≤ y ^ 2 := by
      have := floor_hi (z * z) fix
      have e : y ^ 2 = ((z * z : Nat) : ℝ) / fix / fix := by rw [hy]; push_cast; field_simp
      rw [e]; gcongr
    have hsq2 : y ^ 2 - 1 / fix ≤ ((z * z / fix : Nat) : ℝ) / fix := by
      have := floor_lo (z * z) fix hfix
      have e : y ^ 2 = ((z * z : Nat) : ℝ) / fix / fix := by rw [hy]; push_cast; field_simp
      rw [e, ← sub_div]; gcongr
    have hpr : (p : ℝ) ≤ fix := by exact_mod_cast hp
    have hp0 : (0 : ℝ) ≤ p := by positivity
    set sq := z * z / fix
    have u1 := floor_hi (p * sq) fix
    have u2 := floor_lo (p * sq) fix hfix
    have ue : ((p * sq : Nat) : ℝ) / fix = p * (sq / fix) := by push_cast; ring
    rw [ue] at u1 u2
    have hpow : y ^ (2 * (k + 1) + 1) = y ^ (2 * k + 1) * y ^ 2 := by rw [← pow_add]; congr 1
    have hnext : |((p * sq / fix : Nat) : ℝ) - fix * y ^ (2 * (k + 1) + 1)| ≤ 3 := by
      rw [hpow]
      have hy2 : y ^ 2 ≤ 1 / 9 := by nlinarith
      have hy20 : 0 ≤ y ^ 2 := sq_nonneg y
      have m1 : (p : ℝ) * ((sq : ℝ) / fix) ≤ p * y ^ 2 := by gcongr
      have m2 : (p : ℝ) * y ^ 2 - 1 ≤ p * ((sq : ℝ) / fix) := by
        have : (p : ℝ) * (y ^ 2 - 1 / fix) ≤ p * ((sq : ℝ) / fix) := by gcongr
        have e : (p : ℝ) * (1 / fix) ≤ 1 := by rw [mul_one_div, div_le_one hfr]; exact hpr
        nlinarith
      have k1 : |((p : ℝ) - fix * y ^ (2 * k + 1)) * y ^ 2| ≤ 3 * (1 / 9) := by
        rw [abs_mul, abs_of_nonneg hy20]; gcongr
      rw [abs_le] at k1 ⊢
      have e : (fix : ℝ) * (y ^ (2 * k + 1) * y ^ 2) = p * y ^ 2 - (p - fix * y ^ (2 * k + 1)) * y ^ 2 := by ring
      rw [e]
      constructor <;> linarith [k1.1, k1.2]
    have hle : p * sq / fix ≤ fix := by
      have hs : sq ≤ fix := by
        apply Nat.div_le_of_le_mul; nlinarith
      apply Nat.div_le_of_le_mul; nlinarith
    have := ih (k + 1) (p * sq / fix) (acc + p / (2 * k + 1)) hle hnext
    rw [atanhSeries, Finset.sum_range_succ']
    have es : ∑ j ∈ Finset.range n, y ^ (2 * (k + (j + 1)) + 1) / ((2 * (k + (j + 1)) + 1 : Nat) : ℝ)
        = ∑ j ∈ Finset.range n, y ^ (2 * (k + 1 + j) + 1) / ((2 * (k + 1 + j) + 1 : Nat) : ℝ) :=
      Finset.sum_congr rfl fun j _ => by rw [show k + (j + 1) = k + 1 + j by ring]
    rw [es]
    set S := ∑ j ∈ Finset.range n, y ^ (2 * (k + 1 + j) + 1) / ((2 * (k + 1 + j) + 1 : Nat) : ℝ)
    have hD : (1 : ℝ) ≤ ((2 * k + 1 : Nat) : ℝ) := by exact_mod_cast (by omega : 1 ≤ 2 * k + 1)
    have q1 := floor_hi p (2 * k + 1)
    have q2 := floor_lo p (2 * k + 1) (by omega)
    have q3 : |(p : ℝ) / ((2 * k + 1 : Nat) : ℝ) - fix * (y ^ (2 * k + 1) / ((2 * k + 1 : Nat) : ℝ))| ≤ 3 := by
      have e : (p : ℝ) / ((2 * k + 1 : Nat) : ℝ) - fix * (y ^ (2 * k + 1) / ((2 * k + 1 : Nat) : ℝ))
          = (p - fix * y ^ (2 * k + 1)) / ((2 * k + 1 : Nat) : ℝ) := by ring
      rw [e, abs_div, Nat.abs_cast]
      exact (div_le_self (abs_nonneg _) hD).trans h
    rw [Nat.cast_add] at this
    simp only [add_zero]
    rw [Nat.cast_add_one n, mul_add]
    rw [abs_le] at this q3 ⊢
    constructor <;> linarith

/-- `lnRatio` is the natural logarithm of the ratio, to within 2^−140. -/
theorem lnRatio_close {a b : Nat} (hb : 0 < b) (h1 : b ≤ a) (h2 : a ≤ 2 * b) :
    |(lnRatio a b : ℝ) / fix - Real.log ((a : ℝ) / b)| ≤ 1 / 2 ^ 140 := by
  have hfix : 0 < fix := by positivity
  have hfr : (0 : ℝ) < (fix : ℝ) := by positivity
  have hbr : (0 : ℝ) < b := by exact_mod_cast hb
  have har : (b : ℝ) ≤ a := by exact_mod_cast h1
  have har2 : (a : ℝ) ≤ 2 * b := by exact_mod_cast h2
  set z := (a - b) * fix / (a + b) with hz
  set y : ℝ := z / fix with hy
  set w : ℝ := ((a : ℝ) - b) / (a + b) with hw
  have hw0 : 0 ≤ w := by apply div_nonneg <;> linarith
  have hw3 : w ≤ 1 / 3 := by rw [hw, div_le_div_iff₀ (by linarith) (by norm_num)]; linarith
  have ew : (((a - b) * fix : Nat) : ℝ) / ((a + b : Nat) : ℝ) = w * fix := by
    rw [Nat.cast_mul, Nat.cast_sub h1, Nat.cast_add, hw]; ring
  have z1 : (z : ℝ) ≤ w * fix := by rw [← ew]; exact Nat.cast_div_le
  have z2 : w * fix - 1 ≤ z := by
    have h : (a - b) * fix < (z + 1) * (a + b) := by
      have := Nat.lt_div_mul_add (a := (a - b) * fix) (b := a + b) (by omega); rw [hz]; linarith
    have h' : (((a - b) * fix : Nat) : ℝ) < (z + 1) * ((a + b : Nat) : ℝ) := by exact_mod_cast h
    rw [← ew, sub_le_iff_le_add, div_le_iff₀ (by positivity)]; exact h'.le
  have hz3 : 3 * z ≤ fix := by
    have : (3 * z : ℝ) ≤ fix := by nlinarith
    exact_mod_cast this
  have yw : y ≤ w := by rw [hy, div_le_iff₀ hfr]; exact z1
  have wy : w - 1 / fix ≤ y := by
    rw [hy, le_div_iff₀ hfr, sub_mul]; field_simp; linarith
  have hy0 : 0 ≤ y := by positivity
  have loop := atanhSeries_close hz3 60 0 z 0 (by omega) (by
    rw [show 2 * 0 + 1 = 1 from rfl, pow_one, mul_div_cancel₀ _ hfr.ne', sub_self]; norm_num)
  have tay := atanh_taylor hy0 (yw.trans hw3)
  simp only [zero_add, CharP.cast_eq_zero] at loop
  have elog : Real.log ((a : ℝ) / b) = Real.log (1 + w) - Real.log (1 - w) := by
    rw [← Real.log_div (by linarith) (by linarith)]
    have hab : (0 : ℝ) < a + b := by linarith
    have e1 : 1 + w = 2 * a / (a + b) := by rw [hw]; field_simp; ring
    have e2 : 1 - w = 2 * b / (a + b) := by rw [hw]; field_simp; ring
    rw [e1, e2, div_div_div_cancel_right₀ hab.ne', mul_div_mul_left _ _ (by norm_num)]
  have l1 : Real.log (1 + w) - Real.log (1 + y) ≤ 2 / fix ∧ 0 ≤ Real.log (1 + w) - Real.log (1 + y) := by
    constructor
    · rw [← Real.log_div (by linarith) (by linarith)]
      refine (Real.log_le_sub_one_of_pos (by apply div_pos <;> linarith)).trans ?_
      rw [show (1 + w) / (1 + y) - 1 = (w - y) / (1 + y) by field_simp; ring, div_le_iff₀ (by linarith)]
      have : 2 / (fix : ℝ) = 2 * (1 / fix) := by ring
      rw [this]
      have h1f : (0 : ℝ) < 1 / fix := by positivity
      nlinarith
    · have := Real.log_le_log (by linarith) (by linarith : 1 + y ≤ 1 + w); linarith
  have l2 : Real.log (1 - y) - Real.log (1 - w) ≤ 2 / fix ∧ 0 ≤ Real.log (1 - y) - Real.log (1 - w) := by
    constructor
    · rw [← Real.log_div (by linarith) (by linarith)]
      refine (Real.log_le_sub_one_of_pos (by apply div_pos <;> linarith)).trans ?_
      have hw1 : (0 : ℝ) < 1 - w := by linarith
      rw [show (1 - y) / (1 - w) - 1 = (w - y) / (1 - w) by field_simp; ring, div_le_iff₀ (by linarith)]
      have : 2 / (fix : ℝ) = 2 * (1 / fix) := by ring
      rw [this]
      have h1f : (0 : ℝ) < 1 / fix := by positivity
      nlinarith
    · have := Real.log_le_log (by linarith) (by linarith : 1 - w ≤ 1 - y); linarith
  rw [elog]
  have er : (lnRatio a b : ℝ) = 2 * (atanhSeries (z * z / fix) 60 0 z 0 : ℝ) := by
    unfold lnRatio; push_cast; rfl
  rw [er]
  set A : ℝ := (atanhSeries (z * z / fix) 60 0 z 0 : ℝ)
  set S : ℝ := ∑ k ∈ Finset.range 60, y ^ (2 * k + 1) / ((2 * k + 1 : Nat) : ℝ)
  have hA : |2 * A / fix - 2 * S| ≤ 1 / 2 ^ 150 := by
    have e : 2 * A / fix - 2 * S = 2 * (A - fix * S) / fix := by field_simp
    rw [e, abs_div, abs_of_pos hfr, div_le_iff₀ hfr, abs_mul, abs_two]
    refine (mul_le_mul_of_nonneg_left loop (by norm_num)).trans ?_
    norm_num
  have f1 : (2 : ℝ) / fix ≤ 1 / 2 ^ 150 := by norm_num
  have : (1 : ℝ) / 2 ^ 180 + 3 * (1 / 2 ^ 150) ≤ 1 / 2 ^ 140 := by norm_num
  rw [abs_le] at hA tay ⊢
  constructor <;> linarith [l1.1, l1.2, l2.1, l2.2]

/-- A finite value is below 2^128. -/
theorem mag_lt (a : F32) (h : isFinite a = true) : mag a < 2 ^ 24 * 2 ^ 253 := by
  have h1 : expo a < 256 := (a.extractLsb' 23 8).isLt
  have h2 : frac a < 2 ^ 23 := (a.extractLsb' 0 23).isLt
  simp only [isFinite, bne_iff_ne, ne_eq] at h
  unfold mag
  split
  · exact h2.trans (by norm_num)
  · exact Nat.mul_lt_mul_of_lt_of_le (by omega) (Nat.pow_le_pow_right (by norm_num) (by omega)) (by positivity)

/-- `lnRef` is the natural logarithm of a finite positive value, to within 2^−130. -/
theorem lnRef_close {a : F32} (hf : isFinite a = true) (hm : 0 < mag a) :
    |(lnRef a : ℝ) / fix - Real.log ((mag a : ℝ) / 2 ^ 149)| ≤ 1 / 2 ^ 130 := by
  have hfr : (0 : ℝ) < (fix : ℝ) := by positivity
  have hlt := mag_lt a hf
  set m := mag a
  set e := Nat.log2 m with he
  have hlo : 2 ^ e ≤ m := Nat.log2_self_le (by omega)
  have hhi : m < 2 ^ (e + 1) := Nat.lt_log2_self
  have he277 : e < 277 := by
    by_contra hc
    have h2 : 2 ^ 24 ≤ 2 ^ (e - 253) := Nat.pow_le_pow_right (by norm_num) (by clear hlt; omega)
    have h3 : 2 ^ e = 2 ^ (e - 253) * 2 ^ 253 := by rw [← pow_add]; congr 1; clear hlt; omega
    have h4 : 2 ^ 24 * 2 ^ 253 ≤ 2 ^ e := by rw [h3]; exact Nat.mul_le_mul_right _ h2
    generalize 2 ^ 24 * 2 ^ 253 = C at hlt h4
    omega
  have c1 := lnRatio_close (a := m) (b := 2 ^ e) (by positivity) hlo (by rw [pow_succ] at hhi; omega)
  have c2 := lnRatio_close (a := 2) (b := 1) (by norm_num) (by norm_num) (by norm_num)
  have hmr : (0 : ℝ) < m := by exact_mod_cast hm
  have hlog : Real.log ((m : ℝ) / 2 ^ 149)
      = Real.log ((m : ℝ) / ((2 ^ e : Nat) : ℝ)) + ((e : ℝ) - 149) * Real.log 2 := by
    rw [Real.log_div hmr.ne' (by positivity), Real.log_div hmr.ne' (by positivity), Real.log_pow, Nat.cast_pow,
      Real.log_pow]
    push_cast; ring
  have href : (lnRef a : ℝ) = lnRatio m (2 ^ e) + ((e : ℝ) - 149) * lnRatio 2 1 := by
    show (((lnRatio m (2 ^ e) : Int) + ((e : Int) - 149) * ln2 : Int) : ℝ) = _
    unfold ln2; push_cast; ring
  rw [hlog, href]
  simp only [Nat.cast_ofNat, Nat.cast_one, div_one] at c2
  set L : ℝ := Real.log ((m : ℝ) / ((2 ^ e : Nat) : ℝ))
  set l2 : ℝ := Real.log 2
  have eq : ((lnRatio m (2 ^ e) : ℝ) + ((e : ℝ) - 149) * lnRatio 2 1) / fix - (L + ((e : ℝ) - 149) * l2)
      = ((lnRatio m (2 ^ e) : ℝ) / fix - L) + ((e : ℝ) - 149) * ((lnRatio 2 1 : ℝ) / fix - l2) := by
    field_simp; ring
  have hE : |(e : ℝ) - 149| ≤ 150 := by
    have : (e : ℝ) < 277 := by exact_mod_cast he277
    have h0 : (0 : ℝ) ≤ e := by positivity
    rw [abs_le]; constructor <;> linarith
  rw [eq]
  refine (abs_add_le _ _).trans ?_
  rw [abs_mul]
  have : |(e : ℝ) - 149| * |(lnRatio 2 1 : ℝ) / fix - l2| ≤ 150 * (1 / 2 ^ 140) := by gcongr
  have n : (1 : ℝ) / 2 ^ 140 + 150 * (1 / 2 ^ 140) ≤ 1 / 2 ^ 130 := by norm_num
  linarith

/-- `log10Ref` is the base-ten logarithm of a finite positive value, to within 2^−120. -/
theorem log10Ref_close {a : F32} (hf : isFinite a = true) (hm : 0 < mag a) :
    |(log10Ref a : ℝ) / fix - Real.logb 10 ((mag a : ℝ) / 2 ^ 149)| ≤ 1 / 2 ^ 120 := by
  have hfr : (0 : ℝ) < (fix : ℝ) := by positivity
  have hL := lnRef_close hf hm
  have c2 := lnRatio_close (a := 2) (b := 1) (by norm_num) (by norm_num) (by norm_num)
  have c5 := lnRatio_close (a := 5) (b := 4) (by norm_num) (by norm_num) (by norm_num)
  simp only [Nat.cast_ofNat, Nat.cast_one, div_one] at c2 c5
  have h10 : Real.log 10 = 3 * Real.log 2 + Real.log (5 / 4) := by
    rw [show (10 : ℝ) = 2 ^ 3 * (5 / 4) by norm_num, Real.log_mul (by norm_num) (by norm_num), Real.log_pow]
    push_cast; ring
  have hln10 : |(ln10 : ℝ) / fix - Real.log 10| ≤ 1 / 2 ^ 138 := by
    have e : (ln10 : ℝ) = 3 * lnRatio 2 1 + lnRatio 5 4 := by unfold ln10 ln2; push_cast; ring
    rw [h10, e]
    have e2 : (3 * (lnRatio 2 1 : ℝ) + lnRatio 5 4) / fix = 3 * ((lnRatio 2 1 : ℝ) / fix) + (lnRatio 5 4 : ℝ) / fix := by
      ring
    have n : (4 : ℝ) * (1 / 2 ^ 140) ≤ 1 / 2 ^ 138 := by norm_num
    rw [e2]
    rw [abs_le] at c2 c5 ⊢
    constructor <;> linarith
  have hlo10 : (2 : ℝ) ≤ Real.log 10 := by
    have h2 := Real.log_two_gt_d9
    have h54 : 0 ≤ Real.log (5 / 4) := Real.log_nonneg (by norm_num)
    rw [h10]; linarith
  have hlt := mag_lt a hf
  have hmr : (0 : ℝ) < (mag a : ℝ) / 2 ^ 149 := by positivity
  have hbig : |Real.log ((mag a : ℝ) / 2 ^ 149)| ≤ 150 := by
    have h2 := Real.log_two_lt_d9
    have h2' := Real.log_two_gt_d9
    have u : Real.log ((mag a : ℝ) / 2 ^ 149) ≤ 128 * Real.log 2 := by
      rw [show (128 : ℝ) * Real.log 2 = Real.log (2 ^ 128) by rw [Real.log_pow]; norm_num]
      apply Real.log_le_log hmr
      rw [div_le_iff₀ (by positivity)]
      have : (mag a : ℝ) < 2 ^ 24 * 2 ^ 253 := by exact_mod_cast hlt
      exact this.le.trans (by norm_num)
    have l : -(149 * Real.log 2) ≤ Real.log ((mag a : ℝ) / 2 ^ 149) := by
      rw [show -((149 : ℝ) * Real.log 2) = Real.log (1 / 2 ^ 149) by rw [Real.log_div (by norm_num) (by positivity), Real.log_pow]; norm_num]
      apply Real.log_le_log (by positivity)
      have : (1 : ℝ) ≤ mag a := by exact_mod_cast hm
      gcongr
    rw [abs_le]; constructor <;> linarith
  set L : ℝ := Real.log ((mag a : ℝ) / 2 ^ 149)
  set T : ℝ := Real.log 10
  set t : ℝ := (ln10 : ℝ) / fix with ht
  set l : ℝ := (lnRef a : ℝ) / fix with hl
  have htT : 1 ≤ t := by have := (abs_le.mp hln10).1; norm_num at this; linarith
  have hlogb : Real.logb 10 ((mag a : ℝ) / 2 ^ 149) = L / T := rfl
  -- the quotient of the two
  have hq : |l / t - L / T| ≤ 1 / 2 ^ 125 := by
    have e : l / t - L / T = ((l - L) - L / T * (t - T)) / t := by
      have : T ≠ 0 := by linarith
      have : t ≠ 0 := by linarith
      field_simp; ring
    have hLT : |L / T| ≤ 75 := by
      rw [abs_div, abs_of_pos (by linarith : (0 : ℝ) < T), div_le_iff₀ (by linarith)]; nlinarith
    rw [e, abs_div, abs_of_pos (by linarith : (0 : ℝ) < t), div_le_iff₀ (by linarith)]
    have b := abs_sub (l - L) (L / T * (t - T))
    rw [abs_mul] at b
    have b2 : |L / T| * |t - T| ≤ 75 * (1 / 2 ^ 138) := by gcongr
    have n : (1 : ℝ) / 2 ^ 130 + 75 * (1 / 2 ^ 138) ≤ 1 / 2 ^ 125 * 1 := by norm_num
    have : (1 : ℝ) / 2 ^ 125 * 1 ≤ 1 / 2 ^ 125 * t := by gcongr
    linarith
  -- the floor of the division
  have hln10pos : (0 : ℤ) < (ln10 : ℤ) := by
    have : (0 : ℝ) < ln10 := by
      have h : (1 : ℝ) * fix ≤ ln10 := by rw [← le_div_iff₀ hfr]; exact htT
      linarith
    exact_mod_cast this
  have hdiv1 := Int.ediv_mul_le (lnRef a * fix) hln10pos.ne'
  have hdiv2 := Int.lt_ediv_add_one_mul_self (lnRef a * fix) hln10pos
  have d1 : (log10Ref a : ℝ) * ln10 ≤ lnRef a * fix := by
    have h : ((log10Ref a * (ln10 : ℤ) : ℤ) : ℝ) ≤ ((lnRef a * ((fix : ℕ) : ℤ) : ℤ) : ℝ) := Int.cast_le.mpr hdiv1
    rwa [Int.cast_mul, Int.cast_mul, Int.cast_natCast, Int.cast_natCast] at h
  have d2 : (lnRef a : ℝ) * fix ≤ (log10Ref a + 1) * ln10 := by
    have h : ((lnRef a * ((fix : ℕ) : ℤ) : ℤ) : ℝ) ≤ (((log10Ref a + 1) * (ln10 : ℤ) : ℤ) : ℝ) :=
      Int.cast_le.mpr (le_of_lt hdiv2)
    rwa [Int.cast_mul, Int.cast_mul, Int.cast_natCast, Int.cast_natCast, Int.cast_add, Int.cast_one] at h
  have hlpos : (0 : ℝ) < ln10 := by exact_mod_cast hln10pos
  have elt : l / t = (lnRef a : ℝ) * fix / ln10 / fix := by rw [hl, ht]; field_simp
  have f1 : (log10Ref a : ℝ) / fix ≤ l / t := by
    rw [elt]; gcongr; rw [le_div_iff₀ hlpos]; exact d1
  have f2 : l / t - 1 / fix ≤ (log10Ref a : ℝ) / fix := by
    rw [elt, ← sub_div]; gcongr
    rw [sub_le_iff_le_add, div_le_iff₀ hlpos]; exact d2
  have n : (1 : ℝ) / 2 ^ 125 + 1 / fix ≤ 1 / 2 ^ 120 := by norm_num
  rw [hlogb]
  rw [abs_le] at hq ⊢
  constructor <;> linarith

end Sys2Proof.NumF32
end

