-- ==== Sys2Proof/Laws/Step.lean ====
section
/-! SUPPORT. Everything one step can do, said once: `step_moved` takes a step apart into its mover and one transition, with
the guards of that transition; a claim about every step is then a case analysis over `Moved` and `Ran`. -/

namespace Sys2Proof.Machine

variable {α : Type}

/-! ## Running a command -/

/-- What running a command in a state can lead to, with the guards of each way. -/
inductive Ran (p : Params α) : Instr → State α → State α → Prop
  | held (i s) (src : i.port = .src) : Ran p i s (holdCommand i s)
  | refused (i s) (src : i.port = .src) (ready : s.capPhase = .ready) :
      Ran p i s (discardPayload i.payloadWords (raise .illegalCommand s))
  | cfgFailed (channels enc rate rest s e) (ready : s.capPhase = .ready) (words : s.srcIn = rate :: rest)
      (cfgOk : s.cfgOk = false) (cfgErr : s.cfgErr = false) (isOpen : s.closed = false)
      (error : e = .cfgUnsupportedEncoding ∨ e = .cfgZeroChannels ∨ e = .cfgBadSampleRate) :
      Ran p (.cfg channels enc) s (raise e { s with srcIn := rest, srcRx := .header })
  | cfgDone (channels enc rate rest s) (ready : s.capPhase = .ready) (words : s.srcIn = rate :: rest)
      (cfgOk : s.cfgOk = false) (cfgErr : s.cfgErr = false) (isOpen : s.closed = false)
      (encoding : enc ≤ 2) (channel : channels ≠ 0) (sampleRate : p.minRate ≤ rate.toNat) :
      Ran p (.cfg channels enc) s (configure p channels enc rate { s with srcIn := rest, srcRx := .header })
  | batch (n s) (ready : s.capPhase = .ready) (cfgOk : s.cfgOk = true) (cfgErr : s.cfgErr = false)
      (isOpen : s.closed = false) (words : n ≤ s.srcIn.length) :
      Ran p (.batch n) s (capDmx p (s.srcIn.take n) { s with srcIn := s.srcIn.drop n, srcRx := .header })
  | closed (s) (ready : s.capPhase = .ready) (isOpen : s.closed = false) :
      Ran p .close s ({ s with srcRx := .header }.setStatus closedMask)
  | lvlPop (s) : Ran p .lvlPop s (answerLevel p (fifoTryPop s.lq) s)
  | lvlLatest (s) : Ran p .lvlLatest s (answerLevel p (fifoTakeLatest s.lq) s)
  | spcPop (s) : Ran p .spcPop s (answerSpectrum p (fifoTryPop s.sq) s)
  | spcLatest (s) : Ran p .spcLatest s (answerSpectrum p (fifoTakeLatest s.sq) s)
  | register (r w s) (word : readRegister p r s = some w) : Ran p (.rdreg r) s (respond [w] s)
  | noRegister (r s) (reserved : 16 < r) : Ran p (.rdreg r) s (raise .illegalCommand s)

/-- The dispatch runs the commands under the default parameters. -/
theorem exec_eq (i : Instr) (s : State) : exec i s = execAt Params.default i s := by
  cases i <;> rfl

/-- The step is the one of the machine with the default parameters. -/
theorem step_eq (s : State) : step s = stepAt Params.default s := by
  have : exec = execAt Params.default := funext fun i => funext fun t => exec_eq i t
  unfold step stepAt
  rw [this]

/-- Every command answers a next state, one of those `Ran` names. -/
theorem execAt_ran (p : Params α) (i : Instr) (s : State α) : ∃ t, execAt p i s = .next t ∧ Ran p i s t := by
  cases i with
  | cfg channels enc =>
    refine ⟨_, rfl, ?_⟩
    unfold runCfg
    rcases runSource_cases (.cfg channels enc) s.refusesCfg
      (fun payload => cfgBody p channels enc (payload.headD 0)) s with ⟨e, -⟩ | ⟨e, hr, -⟩ | ⟨e, hr, hf, hw⟩
    · rw [e]; exact .held _ _ rfl
    · rw [e]; exact .refused _ _ rfl hr
    · rw [e]
      simp only [State.refusesCfg, Bool.or_eq_false_iff] at hf
      obtain ⟨⟨h1, h2⟩, h3⟩ := hf
      match hi : s.srcIn with
      | [] => simp [hi, Instr.payloadWords] at hw
      | rate :: rest =>
        simp only [Instr.payloadWords, List.take_succ_cons, List.take_zero, List.drop_succ_cons, List.drop_zero,
          List.headD_cons]
        rcases cfgBody_cases p channels enc rate { s with srcIn := rest, srcRx := .header } with
          ⟨-, e⟩ | ⟨-, -, e⟩ | ⟨-, -, -, e⟩ | ⟨a, b, c, e⟩ <;> rw [e]
        · exact .cfgFailed _ _ _ _ _ _ hr hi h1 h2 h3 (by simp)
        · exact .cfgFailed _ _ _ _ _ _ hr hi h1 h2 h3 (by simp)
        · exact .cfgFailed _ _ _ _ _ _ hr hi h1 h2 h3 (by simp)
        · exact .cfgDone _ _ _ _ _ hr hi h1 h2 h3 a b c
  | batch n =>
    refine ⟨_, rfl, ?_⟩
    unfold runBatch
    rcases runSource_cases (.batch n) s.refusesBatch (fun payload => capDmx p payload) s with ⟨e, -⟩ | ⟨e, hr, -⟩ | ⟨e, hr, hf, hw⟩
    · rw [e]; exact .held _ _ rfl
    · rw [e]; exact .refused _ _ rfl hr
    · rw [e]
      simp only [State.refusesBatch, Bool.not_eq_false', Bool.and_eq_true, Bool.not_eq_true'] at hf
      exact .batch _ _ hr hf.1.1 hf.1.2 hf.2 hw
  | close =>
    refine ⟨_, rfl, ?_⟩
    unfold runClose
    rcases runSource_cases .close s.refusesClose (fun _ t => t.setStatus closedMask) s with
      ⟨e, -⟩ | ⟨e, hr, -⟩ | ⟨e, hr, hf, -⟩
    · rw [e]; exact .held _ _ rfl
    · rw [e]; exact .refused _ _ rfl hr
    · rw [e]; exact .closed _ hr hf
  | lvlPop => exact ⟨_, rfl, .lvlPop s⟩
  | lvlLatest => exact ⟨_, rfl, .lvlLatest s⟩
  | spcPop => exact ⟨_, rfl, .spcPop s⟩
  | spcLatest => exact ⟨_, rfl, .spcLatest s⟩
  | rdreg r =>
    rcases runRdreg_cases p r s with ⟨w, hw, e⟩ | ⟨hn, e⟩
    · exact ⟨_, congrArg Host.Outcome.next e, .register _ _ _ hw⟩
    · exact ⟨_, congrArg Host.Outcome.next e, .noRegister _ _ ((readRegister_none_iff p r s).mp hn)⟩

theorem exec_ran (i : Instr) (s : State) : ∃ t, exec i s = .next t ∧ Ran Params.default i s t := by
  rw [exec_eq]; exact execAt_ran _ i s

theorem ran_of_execAt {p : Params α} {i : Instr} {s t : State α} (h : execAt p i s = .next t) : Ran p i s t := by
  obtain ⟨t', h', r⟩ := execAt_ran p i s
  rw [h] at h'; cases h'; exact r

theorem ran_of_exec {i : Instr} {s t : State} (h : exec i s = .next t) : Ran Params.default i s t := by
  rw [exec_eq] at h; exact ran_of_execAt h

/-! ## One turn -/

/-- What one turn of a mover can lead to, from the state its turn was taken from. -/
inductive Moved (p : Params α) : Move → State α → State α → Prop
  | idleSrc (s) : Moved p .src s s
  | heldRan (i s t) (ready : s.capPhase = .ready) (held : s.srcRx = .held i) (ran : Ran p i s t) : Moved p .src s t
  | discarded (n s) (ready : s.capPhase = .ready) (discard : s.srcRx = .discard n) : Moved p .src s (discardPayload n s)
  | headerRan (w rest i s t) (ready : s.capPhase = .ready) (header : s.srcRx = .header) (words : s.srcIn = w :: rest)
      (decoded : decode .src w = .ok i) (ran : Ran p i { s with srcIn := rest } t) : Moved p .src s t
  | headerIllegal (w rest e s) (ready : s.capPhase = .ready) (header : s.srcRx = .header) (words : s.srcIn = w :: rest)
      (illegal : decode .src w = .error e) : Moved p .src s (raise .illegalCommand { s with srcIn := rest })
  | idleCon (s) (words : s.conIn = []) : Moved p .con s s
  | conRan (w rest i s t) (words : s.conIn = w :: rest) (decoded : decode .con w = .ok i)
      (ran : Ran p i { s with conIn := rest } t) : Moved p .con s t
  | conIllegal (w rest e s) (words : s.conIn = w :: rest) (illegal : decode .con w = .error e) :
      Moved p .con s (raise .illegalCommand { s with conIn := rest })
  | idleCap (s) (ready : s.capPhase = .ready) : Moved p .cap s s
  | publ (s) (phase : s.capPhase = .pubLevel) : Moved p .cap s (capPubl p s)
  | pubf (s) (phase : s.capPhase = .pubFrame) : Moved p .cap s (capPubf p s)
  | idleAna (s) (disabled : s.anaEnabled = false) : Moved p .ana s s
  | received (b rest s) (phase : s.anaPhase = .wait) (queue : s.fq = b :: rest) : Moved p .ana s (anaRecv p b rest s)
  | exited (s) (phase : s.anaPhase = .wait) (queue : s.fq = []) (isClosed : s.closed = true) : Moved p .ana s (anaExit s)
  | passed (s) (phase : s.anaPhase = .loop) (full : p.data.fftSize ≤ s.ring.length) :
      Moved p .ana s (anaPass p (ringPeek p.data.fftSize s.ring) s)
  | aborted (s) (phase : s.anaPhase = .loop) (short : s.ring.length < p.data.fftSize) :
      Moved p .ana s (raise .transformShapeMismatch s)
  | reset (s) : Moved p .reset s (resetBlock p s)

theorem turn_moved {p : Params α} {m : Move} {s t : State α} (h : turn p (execAt p) m s = .next t) : Moved p m s t := by
  cases m with
  | src =>
    simp only [turn, stepSrc] at h
    split at h
    · cases h; exact .idleSrc s
    · rename_i hr
      have hr : s.capPhase = .ready := by simpa using hr
      split at h
      · exact .heldRan _ _ _ hr ‹_› (ran_of_execAt h)
      · cases h; exact .discarded _ _ hr ‹_›
      · split at h
        · cases h; exact .idleSrc s
        · unfold acceptSource at h
          split at h
          · exact .headerRan _ _ _ _ _ hr ‹_› ‹_› ‹_› (ran_of_execAt h)
          · cases h; exact .headerIllegal _ _ _ _ hr ‹_› ‹_› ‹_›
  | cap =>
    simp only [turn] at h
    cases h
    rcases stepCap_cases p s with ⟨h, e⟩ | ⟨h, e⟩ | ⟨h, e⟩ <;> rw [e]
    · exact .idleCap s h
    · exact .publ s h
    · exact .pubf s h
  | con =>
    simp only [turn, stepCon] at h
    split at h
    · cases h; exact .idleCon s ‹_›
    · unfold acceptConsumer at h
      split at h
      · exact .conRan _ _ _ _ _ ‹_› ‹_› (ran_of_execAt h)
      · cases h; exact .conIllegal _ _ _ _ ‹_› ‹_›
  | ana =>
    simp only [turn] at h
    cases h
    rcases stepAna_cases p s with ⟨e, h⟩ | ⟨b, rest, h, hq, e⟩ | ⟨h, hq, hc, e⟩ | ⟨h, hf, e⟩ | ⟨h, hf, e⟩ <;> rw [e]
    · exact .idleAna s h
    · exact .received b rest s h hq
    · exact .exited s h hq hc
    · exact .passed s h hf
    · exact .aborted s h hf
  | reset =>
    simp only [turn] at h
    cases h; exact .reset s

/-- Taking a turn changes the schedule and the count of free values only. -/
theorem takeTurn_frame (s : State α) : ∃ ts fr, (takeTurn s).2 = { s with turns := ts, fresh := fr } := by
  rcases takeTurn_cases s with ⟨-, e⟩ | ⟨m, r, -, e⟩ <;> rw [e]
  · exact ⟨s.turns, _, rfl⟩
  · exact ⟨r, s.fresh, rfl⟩

/-- A step is a turn of its mover, from the state with the turn taken. -/
theorem stepAt_moved {p : Params α} {s t : State α} (h : stepAt p s = .next t) :
    ∃ ts fr, Moved p (takeTurn s).1 { s with turns := ts, fresh := fr } t := by
  obtain ⟨ts, fr, e⟩ := takeTurn_frame s
  exact ⟨ts, fr, by rw [← e]; exact turn_moved h⟩

theorem step_moved {s t : State} (h : step s = .next t) :
    ∃ ts fr, Moved Params.default (takeTurn s).1 { s with turns := ts, fresh := fr } t := by
  rw [step_eq] at h; exact stepAt_moved h

end Sys2Proof.Machine
end

