-- ==== Sys2Proof/Tests/Slice0.lean ====
section
/-! SUPPORT. The model's own tests: ill-formed terms the check refuses, words written out from the encoding of the spec, one
or two small steps for each command with the expected values of spec/95_test_vectors.md, and a witness that the hypotheses
of each obligation can be met together. -/

namespace Sys2Proof.Tests

open Sys2Proof.Machine

/-! ## WellFormed: every check refuses an ill-formed term (R88, R90, R98) -/

theorem test_illFormed_channels : (Instr.cfg 65536 0).wellFormed = false := by decide
theorem test_illFormed_encoding : (Instr.cfg 0 256).wellFormed = false := by decide
theorem test_illFormed_batch : (Instr.batch 16777216).wellFormed = false := by decide
theorem test_illFormed_register : (Instr.rdreg 256).wellFormed = false := by decide

/-! ## Decoding: words from 95_test_vectors.md section 2.1 and from the fields of R88, R90, R98 bit by bit -/

/-- `cfg ch=2, enc=i16`: op 00000001, channels 0000000000000010, enc 00000001. -/
theorem test_decode_cfg : decode .src 0b00000001_0000000000000010_00000001 = .ok (.cfg 2 1) := by decide
/-- Every operand bit of `CFG` set but the lowest of each field. -/
theorem test_decode_cfg_fields : decode .src 0x01FFFEFE = .ok (.cfg 65534 254) := by decide
/-- `batch` of four samples: op 00000010, n 000000000000000000000100. -/
theorem test_decode_batch : decode .src 0b00000010_000000000000000000000100 = .ok (.batch 4) := by decide
theorem test_decode_batch_max : decode .src 0x02FFFFFF = .ok (.batch 16777215) := by decide
theorem test_decode_close : decode .src 0b00000011_000000000000000000000000 = .ok .close := by decide
theorem test_decode_lvlPop : decode .con 0b00010000_000000000000000000000000 = .ok .lvlPop := by decide
theorem test_decode_lvlLatest : decode .con 0b00010001_000000000000000000000000 = .ok .lvlLatest := by decide
theorem test_decode_spcPop : decode .con 0b00010010_000000000000000000000000 = .ok .spcPop := by decide
theorem test_decode_spcLatest : decode .con 0b00010011_000000000000000000000000 = .ok .spcLatest := by decide
/-- `rdreg 16`: op 00011000, a[23:8] 0, r 00010000. -/
theorem test_decode_rdreg : decode .con 0b00011000_0000000000000000_00010000 = .ok (.rdreg 16) := by decide
/-- The refused words of section 2.1. -/
theorem test_decode_illegal :
    decode .src 0x00000000 = .error .unassignedOpcode ∧ decode .con 0x00000000 = .error .unassignedOpcode
    ∧ decode .src 0x04000000 = .error .unassignedOpcode ∧ decode .src 0x03000001 = .error .reservedOperand
    ∧ decode .con 0x10000001 = .error .reservedOperand ∧ decode .con 0x14000000 = .error .unassignedOpcode
    ∧ decode .con 0x18000100 = .error .reservedOperand ∧ decode .src 0x10000000 = .error .wrongPort
    ∧ decode .con 0x02000001 = .error .wrongPort ∧ decode .src 0xFF000000 = .error .unassignedOpcode := by decide
/-- Least significant byte first on a byte transport (R62). -/
theorem test_decode_bytes : decodeBytes .src [0x01, 0x02, 0x00, 0x01, 0x80] = .ok (.cfg 2 1, [0x80]) := by decide
theorem test_decode_truncated : decodeBytes .src [0x01, 0x02, 0x00] = .error .truncated := by decide
theorem test_decodeTableWord : decodeTableWord 32 0x18000010 = some (.rdreg 16) := by decide
theorem test_decodeTableWord_cfg : decodeTableWord 64 0x0000BB80_01000201 = some (.cfg 2 1) := by decide
theorem test_decodeTableWord_none : decodeTableWord 32 0x03000001 = none := by decide

/-- Section 4, P2: `silence 512` in a `f32` stream, shortened to two samples, and in a `u16` stream (R106). -/
theorem test_silence_words :
    silenceWords 0 2 = [0x02000002, 0x00000000, 0x00000000] ∧ silenceWords 2 1 = [0x02000001, 0x00008000]
    ∧ pollWords = [0x11000000, 0x13000000] ∧ drainLvlWords 1 = [0x10000000, 0x10000000] := by decide

/-! ## Helpers -/

/-- The state an outcome answers. -/
def after (o : Host.Outcome State Fault Refusal) : Option State :=
  match o with
  | .next t => some t
  | .fault _ => none
  | .refused _ => none

/-- A state that can run `BATCH`: running at 48000 Hz, with these words on port SRC. -/
def running (channels : BitVec 16) (enc : BitVec 8) (words : List Word) : State :=
  { State.reset with
    status := 0x00000001
    sampleRate := 48000
    channels := channels
    encoding := enc
    fHi := dataF32.fHi 48000
    bandmap := bandmapFor Params.default 48000
    anaPhase := .wait
    srcIn := words }

/-- What a batch leaves: frames, mono samples, and the level. -/
def metered (channels : BitVec 16) (enc : BitVec 8) (words : List Word) : Option (Nat × List F32 × F32 × F32) :=
  (after (exec (.batch words.length) (running channels enc words))).map
    fun t => (t.nframes.toNat, t.mono, t.level.rms, t.level.peak)

/-- A snapshot with one value in every band. -/
def flat (v : F32) : Snapshot := ⟨List.replicate 96 v, List.replicate 96 v⟩

/-- `F` zeros. -/
def silence : List F32 := List.replicate 1024 0x00000000#32

/-! ## One step of each command (95_test_vectors.md) -/

/-- Section 2.9, row 4, and section 2.8: `cfg ch=2, enc=0, rate=41` from reset. -/
theorem test_cfg_smallest_rate :
    (after (exec (.cfg 2 0) { State.reset with srcIn := [41, 7] })).map
        (fun t => (t.status, t.fHi, t.channels, t.anaPhase, t.srcIn))
      = some (0x00000001, 0x41A40000, 2, .wait, [7]) := by decide +kernel
/-- Section 2.9, row 5: the encoding is tested first; nothing else is written. -/
theorem test_cfg_encoding_first :
    (after (exec (.cfg 0 9) { State.reset with srcIn := [0] })).map
        (fun t => (t.status, t.channels, t.anaPhase, t.srcIn))
      = some (0x00000102, 0, .idle, []) := by decide +kernel
/-- Section 2.2, M1. -/
theorem test_batch_m1 :
    metered 2 1 [0x00004000, 0x00004000, 0x00008000, 0x00000000]
      = some (2, [0x3F000000, 0xBF000000], 0x3F000000, 0x3F000000) := by decide +kernel
/-- Section 2.2, M4: the odd third sample is ignored. -/
theorem test_batch_m4 :
    metered 2 0 [0x3F000000, 0x3F000000, 0x3E800000] = some (1, [0x3F000000], 0x3F000000, 0x3F000000) := by
  decide +kernel
/-- Section 2.9, last row: `close` twice. -/
theorem test_close :
    (after (exec .close (running 2 1 []))).map (·.status) = some 0x00000005
    ∧ (after (exec .close { running 2 1 [] with status := 0x00000005 })).map (·.status) = some 0x00000025 := by
  decide +kernel
/-- Section 2.8: `LQ = [(0.5, 0.5)]`. -/
theorem test_lvlPop :
    (after (exec .lvlPop { State.reset with lq := [⟨0x3F000000, 0x3F000000⟩] })).map (fun t => (t.lq, t.conOut))
      = some ([], [0x00000001, 0x3F000000, 0x3F000000]) := by decide
/-- Section 2.3, Q2. -/
theorem test_lvlLatest :
    (after (exec .lvlLatest { State.reset with lq := [⟨1, 2⟩, ⟨3, 4⟩, ⟨5, 6⟩] })).map (fun t => (t.lq, t.conOut))
      = some ([], [0x00000001, 5, 6]) := by decide
/-- Section 2.8 and R100: the oldest snapshot, band 0 of `bands` in word 1 and of `bands_linear` in word 97. -/
theorem test_spcPop :
    (after (exec .spcPop { State.reset with
        sq := [⟨List.replicate 96 0x3F000000, List.replicate 96 0x3E800000⟩, flat 0] })).map
        (fun t => (t.sq.length, t.conOut.length, t.conOut[0]?, t.conOut[96]?, t.conOut[97]?))
      = some (1, 193, some 0x00000001, some 0x3F000000, some 0x3E800000) := by decide +kernel
/-- R239: the newest snapshot; `SQ` is emptied. -/
theorem test_spcLatest :
    (after (exec .spcLatest { State.reset with sq := [flat 0, flat 0x3F000000] })).map
        (fun t => (t.sq.length, t.conOut[1]?, t.conOut[192]?))
      = some (0, some 0x3F000000, some 0x3F000000) := by decide +kernel
/-- Section 2.8: register 3 after `cfg ch=2, enc=i16`. -/
theorem test_rdreg : (after (exec (.rdreg 3) (running 2 1 []))).map (·.conOut) = some [0x00000001] := by decide +kernel
/-- Section 2.1: `RDREG 17` is refused without a response. -/
theorem test_rdreg_reserved :
    (after (exec (.rdreg 17) State.reset)).map (fun t => (t.status, t.conOut)) = some (0x00000020, []) := by decide

/-! ## One step of each internal agent -/

/-- Section 2.3, Q4: the seventeenth batch is lost. -/
theorem test_pubf_full :
    (stepCap Params.default { running 2 1 [] with
        capPhase := .pubFrame, mono := [1], fq := List.replicate 16 [] }).fq = List.replicate 16 [] := by decide +kernel
/-- Section 2.4, `S = 1024`: the receive that makes the analyzer ready for a step. -/
theorem test_recv :
    (fun t => (t.ring.length, t.anaPhase, t.fq)) (stepAna Params.default { running 1 0 [] with
        ring := List.replicate 1023 0, fq := [[0], [0]] }) = (1024, .loop, [[0]]) := by decide +kernel
/-- Section 2.4, `S = 1024`: the step leaves 512 samples and publishes one snapshot. -/
theorem test_step :
    (fun t => (t.ring.length, t.anaPhase, t.sq.length)) (stepAna Params.default { running 1 0 [] with
        ring := silence, anaPhase := .loop }) = (512, .wait, 1) := by decide +kernel

/-- A block with a window of 512 samples and 48 bands (U13). -/
def smaller : Params :=
  { Params.default with data := { dataF32 with fftSize := 512, bands := 48, window := NumF32.window 512 } }
/-- The loop test, the hop and the tables follow `F` and `B` (R9, R10, R187). -/
theorem test_smaller_block :
    (fun t => (t.ring.length, t.anaPhase)) (stepAna smaller { running 1 0 [] with
        ring := List.replicate 511 0, fq := [[0, 0]] }) = (513, .loop)
    ∧ (fun t => (t.ring.length, t.anaPhase, t.smDb.length)) (stepAna smaller { running 1 0 [] with
        ring := List.replicate 512 0, anaPhase := .loop }) = (256, .wait, 48)
    ∧ (State.resetAt smaller).bandmap.length = 257 ∧ readRegister smaller 5 State.reset = some 0x00000100 := by
  decide +kernel

/-! ## The host's words -/

/-- A word placed for the next step is the one it runs: `rdreg 4` answers 1024 (section 2.8). -/
theorem test_withFetchWord_con :
    (after (step (State.reset.withFetchWord 32 0x18000004))).map (·.conOut) = some [0x00000400] := by decide +kernel
/-- `close` from reset sets `CLOSED` (R131). -/
theorem test_withFetchWord_src :
    (after (step (State.reset.withFetchWord 32 0x03000000))).map (·.status) = some 0x00000004 := by decide +kernel

/-! ## Values -/

/-- `CONV`, section 2.2. -/
theorem test_conv :
    [0x00000000, 0x00004000, 0x00007FFF, 0x00008000, 0x0000FFFF, 0xABCD4000].map (conv 1 · 0)
      = [0x00000000, 0x3F000000, 0x3F7FFE00, 0xBF800000, 0xB8000000, 0x3F000000]
    ∧ [0x00008000, 0x00000000, 0x0000FFFF, 0x0000C000].map (conv 2 · 0)
      = [0x00000000, 0xBF800000, 0x3F7FFE00, 0x3F000000]
    ∧ [0x3F800000, 0xBF000000, 0x40000000].map (conv 0 · 0) = [0x3F800000, 0xBF000000, 0x40000000] := by decide +kernel
/-- The binary32 column of section 2.7, chained. -/
theorem test_smooth :
    dataF32.smooth 0x3F800000 0x00000000 = 0x3F19999A ∧ dataF32.smooth 0x3F800000 0x3F19999A = 0x3F570A3E
    ∧ dataF32.smooth 0x3F800000 0x3F570A3E = 0x3F6F9DB2 ∧ dataF32.smooth 0x3F800000 0x3F6F9DB2 = 0x3F797247
    ∧ dataF32.smooth 0x00000000 0x3F797247 = 0x3EC78E9E ∧ dataF32.smooth 0x00000000 0x3EC78E9E = 0x3E1FA54B
    ∧ dataF32.smooth 0x3F800000 0x3F800000 = 0x3F800000 := by decide +kernel
/-- Section 2.5, rounded to binary32 by hand. -/
theorem test_window :
    [1, 2, 255, 256, 511].map (NumF32.hann 1024) = [0x371E38D8, 0x381E3877, 0x3EFED21D, 0x3F003251, 0x3F7FFFD8] := by
  decide +kernel
/-- R17 (c): ties to even (2^24 + 1, 2^24 + 3), and overflow from 2^128 − 2^103 on. -/
theorem test_rounding :
    NumF32.add 0x4B800000 0x3F800000 = 0x4B800000 ∧ NumF32.add 0x4B800001 0x3F800000 = 0x4B800002
    ∧ NumF32.ofInt 16777217 = 0x4B800000 ∧ NumF32.ofInt (-16777219) = 0xCB800002
    ∧ NumF32.add 0x7F7FFFFF 0x72FFFFFF = 0x7F7FFFFF ∧ NumF32.add 0x7F7FFFFF 0x73000000 = 0x7F800000
    ∧ NumF32.mul 0xFF7FFFFF 0x40000000 = 0xFF800000 ∧ NumF32.sub 0xFF7FFFFF 0x7F7FFFFF = 0xFF800000 := by
  decide +kernel
/-- The bins nearest a rounding tie (section 3.1). -/
theorem test_bands :
    NumF32.bandOfBin 44100 174 = 81 ∧ NumF32.bandOfBin 48000 286 = 89 ∧ NumF32.bandOfBin 16000 319 = 87
    ∧ NumF32.bandOfBin 96000 143 = 89 := by decide +kernel
/-- The same bins in the default arithmetic, and section 3.3's band of 1000 Hz. -/
theorem test_bands_f32 :
    dataF32.bandOfBin 44100 174 = 81 ∧ dataF32.bandOfBin 48000 286 = 89 ∧ dataF32.bandOfBin 16000 319 = 87
    ∧ dataF32.bandOfBin 96000 143 = 89 ∧ dataF32.bandOfFreq (dataF32.fHi 48000) (NumF32.ofNat 1000) = 54 := by
  decide +kernel
/-- Section 2.6: `NEW_LIN` of magnitudes 0, 5 and 255.75, and `NEW_DB` of 0. -/
theorem test_levels :
    dataF32.linearLevel 0x00000000 = 0x00000000 ∧ dataF32.linearLevel 0x40A00000 = 0x3F4CCCCD ∧ dataF32.linearLevel 0x437FC000 = 0x3F800000
    ∧ dataF32.dbLevel 0x00000000 = 0x00000000 := by decide +kernel

/-! ## Witnesses: for each obligation with hypotheses, a state and operands that meet all of them -/

theorem witness_DecodeOfEncodeIsTheCommand :
    (Instr.cfg 65535 255).wellFormed = true ∧ (Instr.batch 16777215).wellFormed = true
    ∧ (Instr.rdreg 255).wellFormed = true ∧ Instr.close.wellFormed = true := by decide

theorem witness_DecodedWordIsTheCommandsHeader : decode .con 0x180000FF = .ok (.rdreg 255) := by decide

/-- One witness a clause; the last one at both ends of its range. -/
theorem witness_IllegalHeadersRaiseIllegalCommand :
    (let s := { State.reset with turns := [.src], srcIn := [0x04000000] };
      s.turns = [.src] ∧ s.capPhase = .ready ∧ s.srcRx = .header ∧ s.srcIn = [0x04000000]
        ∧ decode .src 0x04000000 = .error .unassignedOpcode)
    ∧ (let s := { State.reset with turns := [.con], conIn := [0x02000001] };
      s.turns = [.con] ∧ s.conIn = [0x02000001] ∧ decode .con 0x02000001 = .error .wrongPort)
    ∧ 17 ≤ 17 ∧ 17 < 256 ∧ 17 ≤ 255 ∧ 255 < 256 := by decide +kernel

theorem witness_TurnRunsTheDecodedCommand :
    (let s := { State.reset with turns := [.src], srcIn := [0x03000000] };
      s.turns = [.src] ∧ s.capPhase = .ready ∧ s.srcRx = .header ∧ s.srcIn = [0x03000000]
        ∧ decode .src 0x03000000 = .ok .close)
    ∧ (let s := { State.reset with turns := [.src], srcRx := .held (.cfg 1 0) };
      s.turns = [.src] ∧ s.capPhase = .ready ∧ s.srcRx = .held (.cfg 1 0))
    ∧ (let s := { State.reset with turns := [.con], conIn := [0x10000000] };
      s.turns = [.con] ∧ s.conIn = [0x10000000] ∧ decode .con 0x10000000 = .ok .lvlPop)
    ∧ (State.reset.capPhase = .ready ∧ State.reset.closed = false ∧ State.reset.cfgErr = false ∧ State.reset.cfgOk = false
      ∧ State.reset.srcIn.length < (Instr.cfg 1 0).payloadWords)
    ∧ (let s := running 2 1 [0];
      s.capPhase = .ready ∧ s.closed = false ∧ s.cfgErr = false ∧ s.cfgOk = true
        ∧ s.srcIn.length < (Instr.batch 2).payloadWords) := by decide +kernel

/-- One witness for each thing port SRC may be expecting. -/
theorem witness_ResetEventRestoresTheBlock :
    (let s := { running 2 1 [] with turns := [.reset] };
      s.turns = [.reset] ∧ s.srcRx = .header)
    ∧ (let s := { running 2 1 [0] with turns := [.reset], srcRx := .held (.batch 2) };
      s.turns = [.reset] ∧ s.srcRx = .held (.batch 2))
    ∧ (let s := { running 2 1 [0] with turns := [.reset], srcRx := .discard 3 };
      s.turns = [.reset] ∧ s.srcRx = .discard 3) := by decide +kernel

theorem running_bandmap (channels : BitVec 16) (enc : BitVec 8) (words : List Word) :
    (running channels enc words).bandmap = bandmapFor Params.default 48000 := by rw [running]

/-- The tables of a state with the ones of a running state. -/
theorem running_tables {s : State} (b : s.bandmap = (running 1 0 []).bandmap) (f : s.smDb = State.reset.smDb)
    (g : s.smLin = State.reset.smLin) (q : s.sq = []) : TableInv s Params.default where
  bandmap := by rw [b, running_bandmap, bandmapFor_length]
  entries := by rw [b, running_bandmap]; exact bandmapFor_le _ _
  smoothing := by rw [f, g]; exact ⟨List.length_replicate, List.length_replicate⟩
  snapshots := by rw [q]; exact fun _ h => absurd h List.not_mem_nil

/-- Its table is the one of its rate, with parameters whose data path is the default one. -/
theorem running_table {s : State} {p : Params} (b : s.bandmap = (running 1 0 []).bandmap) (r : s.sampleRate = 48000)
    (d : p.data = Params.default.data) : s.bandmap = bandmapFor p s.sampleRate.toNat := by
  rw [b, r, running_bandmap, bandmapFor, bandmapFor, d]; simp only [BitVec.reduceToNat]

/-- A running state with a batch of one sample in progress. -/
def busy : State := { running 2 1 [] with capPhase := .pubLevel, mono := [0], nframes := 1, turns := [.cap] }

theorem busy_inv : busy.Inv Params.default where
  status := ⟨by decide, by decide, by decide, by decide, by decide⟩
  unconfigured := fun h => absurd h (by decide)
  configured := fun _ => ⟨by decide, by decide, by decide, rfl, running_table (by rw [busy, running, running]) rfl rfl, by decide⟩
  tables := running_tables (by rw [busy, running, running]) rfl rfl rfl
  analyzer := ⟨by decide, by decide, by decide, by decide, by decide, by decide⟩
  fifos := ⟨by decide, by decide, by decide, by decide, by decide⟩
  port := ⟨fun _ => by decide, fun i h => (by cases h), fun n h => (by cases h)⟩

/-- Parameters other than the defaults: FIFOs of one message. -/
def narrow : Params := { Params.default with capLevel := 1, capFrame := 1, capSpec := 1 }

theorem busy_inv_narrow : busy.Inv narrow where
  status := busy_inv.status
  unconfigured := fun h => absurd h (by decide)
  configured := fun _ => ⟨by decide, by decide, by decide, rfl, running_table (by rw [busy, running, running]) rfl rfl, by decide⟩
  tables := ⟨busy_inv.tables.bandmap, busy_inv.tables.entries, busy_inv.tables.smoothing, busy_inv.tables.snapshots⟩
  analyzer := ⟨by decide, by decide, by decide, by decide, by decide, by decide⟩
  fifos := ⟨by decide, by decide, by decide, by decide, by decide⟩
  port := busy_inv.port

/-- One witness a clause: with the default parameters, and with others. -/
theorem witness_EveryStepKeepsTheInvariant :
    (∃ s t, State.Inv s Params.default ∧ step s = .next t)
    ∧ ∃ (p : Params) (s t : State), 0 < p.data.fftSize ∧ State.Inv s p ∧ stepAt p s = .next t :=
  ⟨⟨busy, _, busy_inv, step_of_cap rfl⟩, ⟨narrow, busy, _, by decide, busy_inv_narrow, rfl⟩⟩

/-- Boundary operands: the largest channel count, the last encoding, the smallest rate. -/
theorem witness_ConfigurationWritesTheRegisters :
    let s := { State.reset with srcIn := [41#32] }
    s.capPhase = .ready ∧ s.cfgOk = false ∧ s.cfgErr = false ∧ s.closed = false ∧ s.srcIn = [41#32]
      ∧ 2 ≤ 2 ∧ 0 < 65535 ∧ 65535 < 2 ^ 16 ∧ 41 ≤ (41#32).toNat := by decide +kernel

/-- One witness a cause, each at the end of its range; no operands fall under two of them. -/
theorem witness_ConfigurationErrorsInOrder :
    (let s := { State.reset with srcIn := [40#32] };
      s.capPhase = .ready ∧ s.cfgOk = false ∧ s.cfgErr = false ∧ s.closed = false ∧ s.srcIn = [40#32])
    ∧ 2 < 3 ∧ (2 ≤ 2 ∧ 0 = 0) ∧ (2 ≤ 2 ∧ 1 ≠ 0 ∧ (40#32).toNat < 41) := by decide +kernel

theorem witness_SourceCommandsRefusedByState :
    (State.reset.capPhase = .ready ∧ ¬(State.reset.cfgOk = true ∧ State.reset.cfgErr = false ∧ State.reset.closed = false))
    ∧ (running 2 1 []).capPhase = .ready ∧ (running 2 1 []).cfgOk = true
    ∧ (let s := { State.reset with status := 0x00000102 };
      s.capPhase = .ready ∧ s.cfgErr = true)
    ∧ (let s := { State.reset with status := 0x00000004 };
      s.capPhase = .ready ∧ s.closed = true)
    ∧ (let s := { State.reset with turns := [.src], srcRx := .discard 2, srcIn := [7, 8, 9] };
      s.turns = [.src] ∧ s.capPhase = .ready ∧ s.srcRx = .discard 2 ∧ 2 ≤ s.srcIn.length) := by decide +kernel

theorem witness_ConfigurationIsWrittenAtMostOnce :
    ∃ s t, s.cfgOk = true ∧ (takeTurn s).1 ≠ .reset ∧ step s = .next t :=
  ⟨{ running 2 1 [] with turns := [.cap] }, _, by decide, by decide, step_of_cap rfl⟩

theorem witness_BandOfBinIsTheLogarithmicFormula : 41 ≤ 41 ∧ 512 ≤ 512 ∧ 0 ≤ 512 := by decide

theorem witness_BandMapIsMonotoneAndAnchored :
    41 ≤ 41 ∧ 0 ≤ 512 ∧ min 41 40000 * 1024 ≤ 2 * (512 * 41) ∧ 499 * 41 ≤ 20 * 1024
    ∧ min 48000 40000 * 1024 ≤ 2 * (427 * 48000) ∧ 0 * 48000 ≤ 20 * 1024 ∧ 4294967295 < 2 ^ 32
    ∧ min 4294967295 40000 * 1024 ≤ 2 * (1 * 4294967295) ∧ 0 * 4294967295 ≤ 20 * 1024 := by decide

theorem witness_ReferenceBandMapIsTheExactOne : 41 ≤ 41 ∧ 0 ≤ 512 ∧ 512 ≤ 512 ∧ 0 < 1 := by decide

/-- A batch of three samples, and an empty one. -/
theorem witness_BatchDownmixesAndMeters :
    (let s := running 2 1 [0x00004000, 0x00004000, 0x00008000];
      s.capPhase = .ready ∧ s.cfgOk = true ∧ s.cfgErr = false ∧ s.closed = false
        ∧ 3 < 2 ^ 24 ∧ 3 ≤ s.srcIn.length ∧ 0 ≤ s.srcIn.length ∧ 0 < 3 / s.channels.toNat) := by decide +kernel

theorem witness_EmptyBatchStillPublishesZeroLevel :
    (let s := running 2 1 [0x00004000];
      s.capPhase = .ready ∧ s.cfgOk = true ∧ s.cfgErr = false ∧ s.closed = false
        ∧ 1 < s.channels.toNat ∧ 1 ≤ s.srcIn.length ∧ s.lq.length < 32 ∧ s.fq.length < 16) := by decide +kernel

/-- The largest finite word, and the smallest above 0. -/
theorem witness_SampleConversionIsExact :
    NumF32.isFinite 0x7F7FFFFF = true ∧ NumF32.isFinite 0x00000001 = true := by decide +kernel

/-- One witness a clause: the largest finite sample, a sample whose square is finite, and −1. -/
theorem witness_LevelsAreNotNegative :
    (∀ m ∈ [0xFF7FFFFF#32], NumF32.isNaN m = false ∧ NumF32.isFinite m = true) ∧ [0xFF7FFFFF#32].length < 2 ^ 24
    ∧ NumF32.isFinite (dataF32.sumSquares [0x5F000000#32]) = true ∧ NumF32.isNaN 0x5F000000#32 = false
    ∧ ∀ m ∈ [0xBF800000#32], normalized m = true :=
  ⟨List.forall_mem_singleton.mpr (by decide), by decide, by decide +kernel, by decide,
    List.forall_mem_singleton.mpr (by decide +kernel)⟩

/-- R153 (b), U3: a payload with an infinity is noted, and then an infinite level crosses the port as it is. -/
theorem test_strayed :
    (after (exec (.batch 1) (running 1 0 [0x7F800000]))).map (·.strayed) = some true
    ∧ (after (exec (.batch 1) (running 1 1 [0x7F800000]))).map (·.strayed) = some false
    ∧ (after (exec .lvlPop { State.reset with lq := [⟨0x7F800000, 0⟩], strayed := true })).map (·.conOut)
      = some [0x00000001, 0x7F800000, 0] := by decide +kernel

/-- R17 (c), R145: a level beyond binary32 is an infinity, and the peak of the same batch is still finite. -/
theorem test_level_overflow :
    levelOf Params.default [0x7F7FFFFF, 0x7F7FFFFF] = ⟨0x7F800000, 0x7F7FFFFF⟩ := by decide +kernel

theorem witness_CapturePublishesNeverWait :
    (let s := { running 2 1 [] with turns := [.cap], capPhase := .pubLevel, lq := List.replicate 32 ⟨0, 0⟩ };
      s.turns = [.cap] ∧ s.capPhase = .pubLevel ∧ ¬s.lq.length < 32)
    ∧ (let s := { running 2 1 [] with turns := [.cap], capPhase := .pubFrame, fq := List.replicate 15 [] };
      s.turns = [.cap] ∧ s.capPhase = .pubFrame ∧ s.fq.length < 16) := by decide +kernel

/-- A closed source, a drained `FQ` and a waiting analyzer. -/
def drained : State := { running 1 0 [] with status := 0x00000005, turns := [.ana] }

theorem witness_CloseSetsClosedOnly :
    (State.reset.capPhase = .ready ∧ State.reset.closed = false)
    ∧ (drained.capPhase = .ready ∧ drained.closed = true) := by decide +kernel

/-- A closed source that sends a batch. -/
def closedSource : State := { running 2 1 [0x02000001, 0] with status := 0x00000005 }

theorem witness_ClosedSourceFeedsNothing :
    ∃ s t, s.closed = true ∧ s.capPhase = .ready ∧ (∀ i, s.srcRx = .held i → i.port = .src) ∧ s.turns = [.src]
      ∧ step s = .next t :=
  ⟨{ closedSource with turns := [.src] }, _, by decide, rfl, fun i h => (by cases h), rfl,
    (step_of_src rfl).trans rfl⟩

theorem witness_TakeLatestIsDrainingByPops : [1, 2].length ≤ 2 ∧ ([] : List Nat).length ≤ 0 := by decide

theorem witness_ReceiveAppendsOneBatch :
    let s := { running 1 0 [] with turns := [.ana], fq := [[0x3F000000]] }
    s.turns = [.ana] ∧ s.anaPhase = .wait ∧ s.fq = [[0x3F000000]] := by decide +kernel

theorem witness_ExitOnlyWhenClosedAndDrained :
    (drained.turns = [.ana] ∧ drained.anaPhase = .wait ∧ drained.fq = [] ∧ drained.closed = true)
    ∧ ∃ s t, step s = .next t ∧ s.anaPhase ≠ .exited ∧ t.anaPhase = .exited :=
  ⟨by decide +kernel, drained, _, step_of_ana rfl, by decide, by decide⟩

theorem witness_AnalysisStepPublishesAndHops :
    let s := { running 1 0 [] with turns := [.ana], anaPhase := .loop, ring := silence }
    s.turns = [.ana] ∧ s.anaPhase = .loop ∧ 1024 ≤ s.ring.length := by decide +kernel

theorem witness_AnalysisComputesEachBand : 0 < 96 ∧ 95 < 96 := by decide

theorem witness_EveryBinIsInOneBand :
    (List.replicate 513 95).length = 513 ∧ (∀ b ∈ List.replicate 513 95, b ≤ 95)
    ∧ (List.replicate 513 0x00000000#32).length = 513 :=
  ⟨by decide +kernel, fun b hb => (List.eq_of_mem_replicate hb).le, by decide +kernel⟩

theorem witness_TransformApproximatesTheSums :
    silence.all NumF32.isZero = true
    ∧ [0x3F800000#32].all NumF32.isZero = false ∧ [0x3F800000#32].all NumF32.isFinite = true
    ∧ ([0x3F800000#32].map NumF32.mag).sum < 2 ^ 276 ∧ 0 < [0x3F800000#32].length / 2 + 1 := by
  decide +kernel

theorem witness_WindowIsASymmetricTaper :
    (0 < 1024 ∧ (NumF32.window 1024)[0]? = some 0x00000000)
    ∧ (1 < 1024 ∧ (NumF32.window 1024)[1]? = some 0x371E38D8) := by
  decide +kernel

theorem witness_ShortWindowAbortsTheAnalyzer :
    let s := { running 1 0 [] with turns := [.ana], anaPhase := .loop, ring := List.replicate 1023 0 }
    s.turns = [.ana] ∧ s.anaPhase = .loop ∧ s.ring.length < 1024 := by decide +kernel

/-- Section 2.4, `S = 1536` in two batches; and a ring that no batch fills. -/
theorem witness_EmissionCountIsTheFormula :
    (let s := { running 1 0 [] with
        turns := List.replicate (2 + 2) .ana, fq := [List.replicate 1024 0, List.replicate 512 0] };
      s.anaPhase = .wait ∧ s.ring.length < 1024 ∧ 1536 = s.ring.length + (s.fq.map List.length).sum
        ∧ 2 = (if 1536 < 1024 then 0 else (1536 - 1024) / 512 + 1)
        ∧ s.turns = List.replicate (s.fq.length + 2) .ana ++ [] ∧ s.sq.length ≤ 8)
    ∧ (let s := { running 1 0 [] with ring := [0] };
      s.anaPhase = .wait ∧ s.ring.length < 1024 ∧ 1 = s.ring.length + (s.fq.map List.length).sum
        ∧ 0 = (if 1 < 1024 then 0 else (1 - 1024) / 512 + 1)
        ∧ s.turns = List.replicate (s.fq.length + 0) .ana ++ [] ∧ s.sq.length ≤ 8) := by decide +kernel

/-- An analyzer with one window of silence. -/
def looping : State := { running 1 0 [] with anaPhase := .loop, ring := silence }

/-- Two states with different rings and FIFOs, and the same window. -/
theorem witness_AnalysisDependsOnTheWindowOnly :
    ∃ s₁ s₂ t₁ t₂ : State, s₁.anaPhase = .loop ∧ s₂.anaPhase = .loop
      ∧ 1024 ≤ s₁.ring.length ∧ 1024 ≤ s₂.ring.length ∧ s₁.ring.take 1024 = s₂.ring.take 1024
      ∧ s₁.smDb = s₂.smDb ∧ s₁.smLin = s₂.smLin ∧ s₁.bandmap = s₂.bandmap
      ∧ (takeTurn s₁).1 = .ana ∧ (takeTurn s₂).1 = .ana ∧ step s₁ = .next t₁ ∧ step s₂ = .next t₂
      ∧ s₁.fq ≠ s₂.fq ∧ s₁.ring ≠ s₂.ring :=
  ⟨{ looping with turns := [.ana] }, { looping with turns := [.ana], ring := silence ++ [1], fq := [[1]] },
    _, _,
    rfl, rfl, by decide +kernel, by decide +kernel, by decide +kernel, rfl, rfl, rfl, rfl, rfl,
    step_of_ana rfl, step_of_ana rfl, by decide +kernel, by decide +kernel⟩

/-- Operands whose exact results are in range for every operation, at its end for the sums; and the ends of the logarithms'. -/
theorem witness_ElementaryOperationsRoundToNearest :
    NumF32.isFinite 0x7F7FFFFF = true ∧ NumF32.isFinite 0x72FFFFFF = true
    ∧ (NumF32.toInt 0x7F7FFFFF + NumF32.toInt 0x72FFFFFF).natAbs < overflowBound
    ∧ (NumF32.toInt 0x7F7FFFFF - NumF32.toInt 0x72FFFFFF).natAbs < overflowBound
    ∧ NumF32.isFinite 0x3F800000 = true ∧ NumF32.isFinite 0x3DCCCCCD = true
    ∧ (NumF32.toInt 0x3F800000 * NumF32.toInt 0x3DCCCCCD).natAbs < overflowBound * 2 ^ 149
    ∧ NumF32.toInt 0x3DCCCCCD ≠ 0
    ∧ (NumF32.toInt 0x3F800000).natAbs * 2 ^ 149 < overflowBound * (NumF32.toInt 0x3DCCCCCD).natAbs
    ∧ NumF32.isFinite 0x00000001 = true ∧ 0 < NumF32.toInt 0x00000001
    ∧ NumF32.isFinite 0x3A83126F = true ∧ 2 ^ 149 < 1000 * NumF32.toInt 0x3A83126F
    ∧ (-16777217 : Int).natAbs * 2 ^ 149 < overflowBound := by decide +kernel

/-- The largest finite value, which overflows when doubled, squared or divided by the least one above 0; and results in range. -/
theorem witness_OverflowIsInfinityOfTheExactSign :
    NumF32.isFinite 0x7F7FFFFF = true ∧ NumF32.isFinite 0x00000001 = true ∧ NumF32.toInt 0x00000001 ≠ 0
    ∧ overflowBound * 1 ≤ (NumF32.toInt 0x7F7FFFFF + NumF32.toInt 0x7F7FFFFF).natAbs
    ∧ overflowBound * 2 ^ 149 ≤ (NumF32.toInt 0x7F7FFFFF * NumF32.toInt 0xFF7FFFFF).natAbs
    ∧ overflowBound * (NumF32.toInt 0x00000001).natAbs
        ≤ (NumF32.toInt 0x7F7FFFFF * (2 ^ 149 : Nat) * (NumF32.toInt 0x00000001).sign).natAbs
    ∧ overflowBound * 1 ≤ ((2 ^ 128 : Int) * (2 ^ 149 : Nat)).natAbs
    ∧ (NumF32.toInt 0x7F7FFFFF - NumF32.toInt 0x7F7FFFFF).natAbs < overflowBound * 1
    ∧ 0 ≤ NumF32.toInt 0x7F7FFFFF ∧ 0 < NumF32.toInt 0x7F7FFFFF := by decide +kernel

/-- Of a transform's inputs. -/
theorem witness_OverflowIsInfinityOfTheExactSign_dft :
    (∀ v ∈ silence, NumF32.isFinite v = true) ∧ (silence.map NumF32.mag).sum < 2 ^ 276
    ∧ (0x00000000#32, 0x00000000#32) ∈ NumF32.dft silence :=
  ⟨fun v hv => by rw [List.eq_of_mem_replicate hv]; decide, by decide +kernel, by decide +kernel⟩

theorem witness_SqrtRoundsToNearest :
    NumF32.isFinite 0x7F7FFFFF = true ∧ 0 ≤ NumF32.toInt 0x7F7FFFFF ∧ NumF32.isFinite 0x5F7FFFFF = true
    ∧ NumF32.isFinite 0x80000000 = true ∧ 0 ≤ NumF32.toInt 0x80000000 := by decide +kernel

/-- Both ends of the interval. -/
theorem witness_SmoothingKeepsTheUnitInterval : NumF32.inUnit 0x00000000 = true ∧ NumF32.inUnit 0x3F800000 = true := by decide +kernel

theorem witness_BandLevelsLieInTheUnitInterval :
    NumF32.isNaN 0x7F800000 = false ∧ NumF32.isNaN 0x00000000 = false := by decide +kernel

/-- 0, and the largest binary32 number that is at most 0.001. -/
theorem witness_AmplitudesUpToTheFloorGiveZero :
    (NumF32.isFinite 0x00000000 = true ∧ 0 ≤ NumF32.toInt 0x00000000 ∧ 1000 * NumF32.toInt 0x00000000 ≤ (2 ^ 149 : Nat))
    ∧ (NumF32.isFinite 0x3A83126E = true ∧ 0 ≤ NumF32.toInt 0x3A83126E ∧ 1000 * NumF32.toInt 0x3A83126E ≤ (2 ^ 149 : Nat)) := by
  decide +kernel

theorem witness_SilenceDecaysEveryFilter :
    silence.length = 1024 ∧ (∀ v ∈ silence, NumF32.isZero v = true) ∧ 95 < 96
    ∧ (flat 0x3F800000).bands[95]? = some 0x3F800000 ∧ (flat 0x3F800000).bandsLinear[95]? = some 0x3F800000
    ∧ NumF32.inUnit 0x3F800000 = true :=
  ⟨by decide +kernel, fun v hv => by rw [List.eq_of_mem_replicate hv]; decide +kernel, by decide, by decide, by decide,
    by decide +kernel⟩

/-- A running mono source about to send a batch of one `F32` sample, 1.0. -/
def feeding : State := { running 1 0 [0x02000001, 0x3F800000] with turns := [.src] }

theorem feeding_inv : feeding.Inv Params.default where
  status := ⟨by decide, by decide, by decide, by decide, by decide⟩
  unconfigured := fun h => absurd h (by decide)
  configured := fun _ => ⟨by decide, by decide, by decide, rfl, running_table (by rw [feeding, running, running]) rfl rfl, by decide⟩
  tables := running_tables (by rw [feeding, running, running]) rfl rfl rfl
  analyzer := ⟨by decide, by decide, by decide, by decide, by decide, by decide⟩
  fifos := ⟨by decide, by decide, by decide, by decide, by decide⟩
  port := ⟨by decide, fun i h => (by cases h), fun n h => (by cases h)⟩

theorem zero_nonneg : nonneg 0x00000000 = true ∧ NumF32.inUnit 0x00000000 = true := by decide

/-- A state that holds no data is in every range that zero is in. -/
theorem feeding_dataInv (r : Range F32) (meter : r.meter 0x00000000) (level : r.level 0x00000000)
    (unit : r.unit 0x00000000) : feeding.DataInv r where
  mono := fun m h => absurd h List.not_mem_nil
  queued := fun b h => absurd h List.not_mem_nil
  ring := fun m h => absurd h List.not_mem_nil
  meter := ⟨meter, meter⟩
  level := ⟨level, level⟩
  levels := fun l h => absurd h List.not_mem_nil
  filters := fun v h => by
    rcases List.mem_append.mp h with h | h <;> rw [List.eq_of_mem_replicate h] <;> exact unit
  snapshots := fun q h => absurd h List.not_mem_nil

/-- The one sample that `feeding` sends keeps every promise that 1.0 keeps. -/
theorem feeding_input (promise : F32 → Bool) (h : promise 0x3F800000 = true) : feeding.InputMeets promise := fun _ _ w hw => by
  rw [show feeding.incomingSamples = [0x3F800000#32] by decide] at hw
  rw [List.mem_singleton.mp hw]; exact h

/-- The machine of the reference semantics after reset, the consumer to move. -/
noncomputable def referenceReset : State ℝ := { State.resetAt Params.reference with turns := [.con] }

theorem referenceReset_dataInv : referenceReset.DataInv Range.real := by
  have zero : Params.reference.data.zero = 0 := Int.cast_zero
  refine ⟨fun m h => trivial, fun b h => absurd h List.not_mem_nil, fun m h => trivial, ?_, ?_,
    fun l h => absurd h List.not_mem_nil, fun v h => ?_, fun q h => absurd h List.not_mem_nil⟩
  · exact ⟨zero.ge, zero.ge⟩
  · exact ⟨zero.ge, zero.ge⟩
  · have h : v ∈ List.replicate 96 (0 : ℝ) ++ List.replicate 96 (0 : ℝ) := h
    have : v = 0 := by
      rcases List.mem_append.mp h with h | h <;> exact List.eq_of_mem_replicate h
    rw [this]; exact ⟨le_refl _, zero_le_one⟩

/-- One witness a clause. -/
theorem witness_EveryStepKeepsTheDataInvariant :
    (∃ s t, State.Inv s Params.default ∧ s.DataInv Range.f32 ∧ s.InputMeets NumF32.isFinite
      ∧ s.incomingSamples = [0x3F800000] ∧ step s = .next t)
    ∧ (∃ s t, State.Inv s Params.default ∧ s.DataInv Range.f32Normalized ∧ s.InputMeets normalized
      ∧ s.incomingSamples = [0x3F800000] ∧ step s = .next t)
    ∧ ∃ s t : State ℝ, s.DataInv Range.real ∧ stepAt Params.reference s = .next t :=
  ⟨⟨feeding, _, feeding_inv, feeding_dataInv Range.f32 zero_nonneg.1 zero_nonneg.1 zero_nonneg.2,
      feeding_input _ (by decide), by decide, (step_of_src rfl).trans rfl⟩,
    ⟨feeding, _, feeding_inv, feeding_dataInv Range.f32Normalized zero_nonneg.1 zero_nonneg.2 zero_nonneg.2,
      feeding_input _ (by decide), by decide, (step_of_src rfl).trans rfl⟩,
    ⟨referenceReset, _, referenceReset_dataInv, rfl⟩⟩

theorem witness_ReferenceSemanticsHasTheDerivedProperties : 
    ([1] : List ℝ) ≠ [] ∧ 512 < (List.replicate 1024 (1 : ℝ)).length / 2 + 1 :=
  ⟨List.cons_ne_nil _ _, by rw [List.length_replicate]; decide⟩

theorem witness_LevelPopAnswersTheOldest :
    { State.reset with lq := [⟨1, 2⟩, ⟨3, 4⟩] }.lq = ⟨1, 2⟩ :: [⟨3, 4⟩] ∧ State.reset.lq = [] := by decide +kernel

theorem witness_LevelLatestAnswersTheNewest :
    { State.reset with lq := [⟨1, 2⟩, ⟨3, 4⟩] }.lq = [⟨1, 2⟩] ++ [⟨3, 4⟩] ∧ State.reset.lq = [] := by decide +kernel

theorem witness_SpectrumPopAnswersTheOldest :
    { State.reset with sq := [flat 1, flat 2] }.sq = flat 1 :: [flat 2] ∧ State.reset.sq = []
    ∧ (flat 1).bands.length = 96 ∧ (flat 1).bandsLinear.length = 96 := by decide +kernel

theorem witness_SpectrumLatestAnswersTheNewest :
    { State.reset with sq := [flat 1, flat 2] }.sq = [flat 1] ++ [flat 2] ∧ State.reset.sq = [] := by decide +kernel

/-- The last register of the table and the first reserved one. -/
theorem witness_ReadRegisterAnswersTheTable :
    (let s := State.reset;
      [s.status, s.sampleRate, s.channels.zeroExtend 32, s.encoding.zeroExtend 32, 0x00000400#32, 0x00000200#32,
        0x00000060#32, 0x41A00000#32, s.fHi, 0x3F19999A#32, 0x3E4CCCCD#32, 0x3F4CCCCD#32, 0x42700000#32,
        0x00000020#32, 0x00000010#32, 0x00000008#32, 0x469C4000#32][16]? = some 0x469C4000#32)
    ∧ 16 < 17 := by decide +kernel

theorem witness_ConsumerCommandsTouchOnlyTheirFifo :
    Instr.lvlPop.port = .con ∧ Instr.lvlLatest.port = .con ∧ Instr.spcPop.port = .con ∧ Instr.spcLatest.port = .con
    ∧ (Instr.rdreg 17).port = .con := by decide

/-- A state with every flag's premise of the statement set. -/
theorem witness_FlagsAreStickyUntilReset :
    ∃ s t, (takeTurn s).1 ≠ .reset ∧ step s = .next t ∧ s.cfgErr = true ∧ s.anaAborted = true ∧ s.anaExited = true
      ∧ s.closed = true ∧ s.ill = true ∧ s.cfgOk = true :=
  ⟨{ State.reset with status := 0x0000013F, turns := [.ana] }, _, by decide, step_of_ana rfl, by decide, by decide, by decide, by decide, by decide, by decide⟩

theorem witness_DataFlowsOneWay :
    (∃ s t, step s = .next t ∧ (takeTurn s).1 = .con) ∧ (∃ s t, step s = .next t ∧ (takeTurn s).1 = .ana)
    ∧ ∃ s t, step s = .next t ∧ (takeTurn s).1 = .src ∧ ∀ i, s.srcRx = .held i → i.port = .src :=
  ⟨⟨{ State.reset with turns := [.con] }, State.reset, step_of_con rfl, rfl⟩,
    ⟨{ State.reset with turns := [.ana] }, _, step_of_ana rfl, rfl⟩,
    ⟨{ State.reset with turns := [.src] }, State.reset, step_of_src rfl, rfl, fun i h => (by cases h)⟩⟩

theorem witness_SourceWaitsForTheBatch :
    let s := { running 1 0 [] with turns := [.src], capPhase := .pubLevel }
    s.capPhase ≠ .ready ∧ s.turns = [.src] := by decide +kernel

/-- One witness a clause. -/
theorem witness_ParametersGovernTheStep :
    (let s := { running 2 1 [] with turns := [.cap], capPhase := .pubLevel };
      s.turns = [.cap] ∧ s.capPhase = .pubLevel)
    ∧ (let s := { running 2 1 [] with turns := [.cap], capPhase := .pubFrame };
      s.turns = [.cap] ∧ s.capPhase = .pubFrame)
    ∧ (let s := { running 1 0 [] with turns := [.ana], anaPhase := .loop, ring := silence };
      s.turns = [.ana] ∧ s.anaPhase = .loop ∧ 1024 ≤ s.ring.length)
    ∧ (let s := { running 1 0 [] with turns := [.ana], fq := [[0x3F000000]] };
      s.turns = [.ana] ∧ s.anaPhase = .wait ∧ s.fq = [[0x3F000000]])
    ∧ { State.reset with turns := [.reset] }.turns = [.reset]
    ∧ (let s := { State.reset with lq := [⟨1, 2⟩], sq := [flat 1] };
      s.lq = ⟨1, 2⟩ :: [] ∧ s.sq = flat 1 :: [] ∧ s.lq = [] ++ [⟨1, 2⟩] ∧ s.sq = [] ++ [flat 1])
    ∧ (40#32).toNat < 41
    ∧ (let s := { State.reset with srcIn := [41#32] };
      s.capPhase = .ready ∧ s.cfgOk = false ∧ s.cfgErr = false ∧ s.closed = false ∧ s.srcIn = [41#32]
        ∧ 2 ≤ 2 ∧ 0 < 1 ∧ 41 ≤ (41#32).toNat)
    ∧ (let s := running 2 1 [0x00004000, 0x00004000];
      s.capPhase = .ready ∧ s.cfgOk = true ∧ s.cfgErr = false ∧ s.closed = false ∧ 2 ≤ s.srcIn.length
        ∧ 0 < 2 / s.channels.toNat) := by decide +kernel

/-! ## Witnesses: fair runs -/

/-- The agent that the alternating schedule lets move at step `k`. -/
def alternate (k : Nat) : Move := if k % 2 = 0 then .cap else .ana

/-- The run from `s` in which the capture context and the analyzer take turns. -/
def alternating (s : State) : Nat → State
  | 0 => { s with turns := [alternate 0] }
  | k + 1 =>
    let u := { alternating s k with turns := [] }
    { (if k % 2 = 0 then stepCap Params.default u else stepAna Params.default u) with turns := [alternate (k + 1)] }

theorem alternating_turns (s : State) (k : Nat) : (alternating s k).turns = [alternate k] := by
  cases k <;> rfl

theorem alternating_mover (s : State) (k : Nat) : moverAt (alternating s) k = alternate k := by
  rw [moverAt, takeTurn_of_turns (alternating_turns s k)]

theorem alternating_isRun (s : State) : IsRun (alternating s) := by
  intro k
  have frame : ∀ u : State, u.turns = [] → (stepCap Params.default u).turns = [] ∧ (stepAna Params.default u).turns = [] := by
    intro u hu
    constructor
    · rcases stepCap_cases Params.default u with ⟨-, e⟩ | ⟨-, e⟩ | ⟨-, e⟩ <;> rw [e] <;> simp [hu]
    · rcases stepAna_cases Params.default u with ⟨e, -⟩ | ⟨b, q, -, -, e⟩ | ⟨-, -, -, e⟩ | ⟨-, -, e⟩ | ⟨-, -, e⟩ <;> rw [e] <;>
        simp [hu, raise]
  have ht := alternating_turns s k
  by_cases hk : k % 2 = 0
  · refine ⟨stepCap Params.default { alternating s k with turns := [] }, step_of_cap (by rw [ht, alternate, if_pos hk]), [], [],
      [alternate (k + 1)], ?_⟩
    simp only [alternating, if_pos hk, List.append_nil, (frame { alternating s k with turns := [] } rfl).1, List.nil_append]
  · refine ⟨stepAna Params.default { alternating s k with turns := [] }, step_of_ana (by rw [ht, alternate, if_neg hk]), [], [],
      [alternate (k + 1)], ?_⟩
    simp only [alternating, if_neg hk, List.append_nil, (frame { alternating s k with turns := [] } rfl).2, List.nil_append]

theorem alternating_fair (s : State) : WeaklyFair (alternating s) where
  cap := fun k _ => ⟨2 * k, by omega, by rw [alternating_mover, alternate, if_pos (by omega)]⟩
  ana := fun k _ => ⟨2 * k + 1, by omega, by rw [alternating_mover, alternate, if_neg (by omega)]⟩

theorem alternating_noReset (s : State) (k : Nat) : moverAt (alternating s) k ≠ .reset := by
  rw [alternating_mover, alternate]; split <;> decide

/-- One witness for each publish that may be due. -/
theorem witness_BatchInProgressIsPublished :
    (∃ r, IsRun r ∧ WeaklyFair r ∧ (∀ j, 0 ≤ j → moverAt r j ≠ .reset) ∧ (r 0).capPhase = .pubLevel)
    ∧ ∃ r, IsRun r ∧ WeaklyFair r ∧ (∀ j, 0 ≤ j → moverAt r j ≠ .reset) ∧ (r 0).capPhase = .pubFrame :=
  ⟨⟨alternating busy, alternating_isRun _, alternating_fair _, fun j _ => alternating_noReset _ j, rfl⟩,
    ⟨alternating { busy with capPhase := .pubFrame }, alternating_isRun _, alternating_fair _,
      fun j _ => alternating_noReset _ j, rfl⟩⟩

/-- A closed source and two queued batches, one of a whole window. -/
def closing : State := { running 1 0 [] with status := 0x00000005, fq := [silence, [0x3F800000]], turns := [alternate 0] }

theorem closing_inv : closing.Inv Params.default where
  status := ⟨by decide, by decide, by decide, by decide, by decide⟩
  unconfigured := fun h => absurd h (by decide)
  configured := fun _ => ⟨by decide, by decide, by decide, rfl, running_table (by rw [closing, running]) rfl rfl, by decide⟩
  tables := running_tables (by rw [closing, running]) rfl rfl rfl
  analyzer := ⟨by decide, by decide, by decide, by decide, by decide, by decide⟩
  fifos := ⟨by decide, by decide, by decide, by decide +kernel, by decide⟩
  port := ⟨by decide, fun i h => (by cases h), fun n h => (by cases h)⟩

theorem alternating_closing : alternating closing 0 = closing := by rw [alternating, closing]

theorem witness_ClosedAnalyzerExits :
    ∃ r, IsRun r ∧ WeaklyFair r ∧ (∀ j, 0 ≤ j → moverAt r j ≠ .reset) ∧ (r 0).Inv Params.default ∧ (r 0).cfgOk = true
      ∧ (r 0).closed = true :=
  ⟨alternating closing, alternating_isRun _, alternating_fair _, fun j _ => alternating_noReset _ j,
    alternating_closing.symm ▸ closing_inv,
    by decide, by decide⟩

end Sys2Proof.Tests
end

/-! The flags of `STATUS` under every write of it (R32, R256, R260). -/

namespace Sys2Proof.Machine

variable {α : Type}

section
variable (s : State α) (mask : BitVec 32)

@[simp] theorem setStatus_cfgOk : (s.setStatus mask).cfgOk = (s.cfgOk || mask.getLsbD 0) := BitVec.getLsbD_or
@[simp] theorem setStatus_cfgErr : (s.setStatus mask).cfgErr = (s.cfgErr || mask.getLsbD 1) := BitVec.getLsbD_or
@[simp] theorem setStatus_closed : (s.setStatus mask).closed = (s.closed || mask.getLsbD 2) := BitVec.getLsbD_or
@[simp] theorem setStatus_anaExited : (s.setStatus mask).anaExited = (s.anaExited || mask.getLsbD 3) := BitVec.getLsbD_or
@[simp] theorem setStatus_anaAborted : (s.setStatus mask).anaAborted = (s.anaAborted || mask.getLsbD 4) := BitVec.getLsbD_or
@[simp] theorem setStatus_errCause : (s.setStatus mask).errCause = s.errCause ||| mask.extractLsb' 8 4 := BitVec.extractLsb'_or
@[simp] theorem setStatus_statusReserved :
    (s.setStatus mask).statusReserved = s.statusReserved ||| (mask &&& 0xFFFFF0C0#32) := by
  simp only [State.statusReserved, State.setStatus_status]
  ext i
  simp [Bool.and_or_distrib_right]

end

/-- A status write of any kind, as `writeErrCause` makes it, read bit by bit. -/
theorem writeErrCause_getLsbD (s : State α) (code : BitVec 4) {i : Nat} (h : i < 8) :
    (s.writeErrCause code).status.getLsbD i = s.status.getLsbD i := by
  have hm : (0xFFFFF0FF#32).getLsbD i = true := by interval_cases i <;> rfl
  have hs : ¬ 8 ≤ i := by omega
  simp [State.writeErrCause, hm, h]

section
variable (s : State α) (code : BitVec 4)

@[simp] theorem writeErrCause_cfgOk : (s.writeErrCause code).cfgOk = s.cfgOk := writeErrCause_getLsbD s code (by decide)
@[simp] theorem writeErrCause_cfgErr : (s.writeErrCause code).cfgErr = s.cfgErr := writeErrCause_getLsbD s code (by decide)
@[simp] theorem writeErrCause_closed : (s.writeErrCause code).closed = s.closed := writeErrCause_getLsbD s code (by decide)
@[simp] theorem writeErrCause_anaExited : (s.writeErrCause code).anaExited = s.anaExited :=
  writeErrCause_getLsbD s code (by decide)
@[simp] theorem writeErrCause_anaAborted : (s.writeErrCause code).anaAborted = s.anaAborted :=
  writeErrCause_getLsbD s code (by decide)

@[simp] theorem writeErrCause_errCause : (s.writeErrCause code).errCause = code := by
  have hm : (0xFFFFF0FF#32).extractLsb' 8 4 = 0#4 := by decide
  simp only [State.errCause, State.writeErrCause_status, BitVec.extractLsb'_or, BitVec.extractLsb'_and, hm]
  ext i hi
  simp [show 8 + i < 32 by omega, hi]

@[simp] theorem writeErrCause_statusReserved : (s.writeErrCause code).statusReserved = s.statusReserved := by
  simp only [State.statusReserved, State.writeErrCause_status]
  ext i hi
  interval_cases i <;> simp
end

/-! ## Exceptions as status writes (R260, R262) -/

section
variable (s : State α)

@[simp] theorem raise_illegalCommand : raise .illegalCommand s = s.setStatus illMask := rfl
@[simp] theorem raise_cfgUnsupportedEncoding :
    raise .cfgUnsupportedEncoding s = (s.setStatus cfgErrMask).writeErrCause 1 := rfl
@[simp] theorem raise_cfgZeroChannels : raise .cfgZeroChannels s = (s.setStatus cfgErrMask).writeErrCause 2 := rfl
@[simp] theorem raise_cfgBadSampleRate : raise .cfgBadSampleRate s = (s.setStatus cfgErrMask).writeErrCause 3 := rfl

end

/-- A configuration error latches its code, from 1 to 3 (R256, R260). -/
theorem raise_cfgError {e : Exc} (he : e = .cfgUnsupportedEncoding ∨ e = .cfgZeroChannels ∨ e = .cfgBadSampleRate)
    (s : State α) : ∃ code : BitVec 4, code ≠ 0 ∧ code.toNat ≤ 3 ∧ raise e s = (s.setStatus cfgErrMask).writeErrCause code := by
  rcases he with rfl | rfl | rfl
  · exact ⟨1, by decide, by decide, rfl⟩
  · exact ⟨2, by decide, by decide, rfl⟩
  · exact ⟨3, by decide, by decide, rfl⟩

/-! ## The flags after a `CFG` and after an exit (R124, R188) -/

section
variable (p : Params α) (channels enc : Nat) (rate : Word) (s : State α)

@[simp] theorem configure_cfgOk : (configure p channels enc rate s).cfgOk = true :=
  (setStatus_cfgOk s cfgOkMask).trans (by simp [cfgOkMask])
@[simp] theorem configure_cfgErr : (configure p channels enc rate s).cfgErr = s.cfgErr :=
  (setStatus_cfgErr s cfgOkMask).trans (by simp [cfgOkMask])
@[simp] theorem configure_closed : (configure p channels enc rate s).closed = s.closed :=
  (setStatus_closed s cfgOkMask).trans (by simp [cfgOkMask])
@[simp] theorem configure_anaExited : (configure p channels enc rate s).anaExited = s.anaExited :=
  (setStatus_anaExited s cfgOkMask).trans (by simp [cfgOkMask])
@[simp] theorem configure_anaAborted : (configure p channels enc rate s).anaAborted = s.anaAborted :=
  (setStatus_anaAborted s cfgOkMask).trans (by simp [cfgOkMask])
@[simp] theorem configure_errCause : (configure p channels enc rate s).errCause = s.errCause :=
  (setStatus_errCause s cfgOkMask).trans (by simp [cfgOkMask])
@[simp] theorem configure_statusReserved : (configure p channels enc rate s).statusReserved = s.statusReserved :=
  (setStatus_statusReserved s cfgOkMask).trans (by simp [cfgOkMask])

end

section
variable (s : State α)

@[simp] theorem anaExit_cfgOk : (anaExit s).cfgOk = s.cfgOk :=
  (setStatus_cfgOk s anaExitedMask).trans (by simp [anaExitedMask])
@[simp] theorem anaExit_cfgErr : (anaExit s).cfgErr = s.cfgErr :=
  (setStatus_cfgErr s anaExitedMask).trans (by simp [anaExitedMask])
@[simp] theorem anaExit_closed : (anaExit s).closed = s.closed :=
  (setStatus_closed s anaExitedMask).trans (by simp [anaExitedMask])
@[simp] theorem anaExit_anaExited : (anaExit s).anaExited = true :=
  (setStatus_anaExited s anaExitedMask).trans (by simp [anaExitedMask])
@[simp] theorem anaExit_anaAborted : (anaExit s).anaAborted = s.anaAborted :=
  (setStatus_anaAborted s anaExitedMask).trans (by simp [anaExitedMask])
@[simp] theorem anaExit_errCause : (anaExit s).errCause = s.errCause :=
  (setStatus_errCause s anaExitedMask).trans (by simp [anaExitedMask])
@[simp] theorem anaExit_statusReserved : (anaExit s).statusReserved = s.statusReserved :=
  (setStatus_statusReserved s anaExitedMask).trans (by simp [anaExitedMask])

end

end Sys2Proof.Machine

/-! Every transition keeps the invariant. -/

namespace Sys2Proof.Machine

variable {α : Type} {p : Params α} {s : State α}

/-! ## The reset state (R37) -/

theorem resetAt_inv (p : Params α) : (State.resetAt p).Inv p where
  status := ⟨by simp [State.statusReserved, State.resetAt], by simp [State.cfgOk, State.resetAt],
    by simp [State.errCause, State.cfgErr, State.resetAt], by simp [State.errCause, State.resetAt],
    by simp [State.anaAborted, State.resetAt]⟩
  unconfigured := fun _ => ⟨⟨rfl, rfl, rfl, rfl⟩, rfl, ⟨rfl, rfl⟩, ⟨rfl, rfl, rfl, rfl⟩, rfl, rfl⟩
  configured := fun h => by simp [State.cfgOk, State.resetAt] at h
  tables := ⟨by simp [State.resetAt], by simp [State.resetAt], by simp [State.resetAt], by simp [State.resetAt]⟩
  analyzer := by constructor <;> simp [State.resetAt, State.anaExited]
  fifos := by constructor <;> simp [State.resetAt]
  port := by constructor <;> simp [State.resetAt]

/-! ## Ports, schedule, flags (R34, R262, R269) -/

/-- The invariant does not speak of what the parties have sent or received, of the schedule or of the free values. -/
theorem State.Inv.io (h : s.Inv p) (srcIn conIn conOut : List Word) (turns : List Move) (fresh : Nat) :
    ({ s with srcIn, conIn, conOut, turns, fresh } : State α).Inv p where
  status := { h.status with }
  unconfigured := fun hc => { h.unconfigured hc with }
  configured := fun hc => { h.configured hc with }
  tables := { h.tables with }
  analyzer := { h.analyzer with }
  fifos := { h.fifos with }
  port := { h.port with }

/-- What port SRC may expect when no batch is in progress (R34, R103). -/
theorem State.Inv.expect (h : s.Inv p) (ready : s.capPhase = .ready) {rx : SrcRx}
    (held : ∀ i, rx = .held i → i.wellFormed = true ∧ i.port = .src) (discard : ∀ n, rx = .discard n → n ≤ Config.nmax) :
    ({ s with srcRx := rx } : State α).Inv p where
  status := { h.status with }
  unconfigured := fun hc => { h.unconfigured hc with }
  configured := fun hc => { h.configured hc with }
  tables := { h.tables with }
  analyzer := { h.analyzer with }
  fifos := { h.fifos with }
  port := ⟨fun hb => absurd ready hb, held, discard⟩

theorem State.Inv.header (h : s.Inv p) (ready : s.capPhase = .ready) : ({ s with srcRx := .header } : State α).Inv p :=
  h.expect ready (fun _ e => by cases e) (fun _ e => by cases e)

/-- Payload words are discarded as they arrive (R103). -/
theorem State.Inv.afterDiscard (h : s.Inv p) (ready : s.capPhase = .ready) {n : Nat} (hn : n ≤ Config.nmax) :
    (discardPayload n s).Inv p :=
  State.Inv.io (h.expect ready (rx := (discardPayload n s).srcRx)
    (fun i e => by rw [discardPayload_srcRx] at e; split at e <;> cases e)
    (fun k e => by
      rw [discardPayload_srcRx] at e
      split at e
      · cases e
      · cases e; exact (Nat.sub_le _ _).trans hn)) (s.srcIn.drop n) s.conIn s.conOut s.turns s.fresh

/-- `ILL` is a flag the invariant does not speak of. -/
theorem State.Inv.raiseIllegal (h : s.Inv p) : (raise .illegalCommand s).Inv p where
  status := by
    obtain ⟨reserved, one_outcome, cause, cause_code, no_abort⟩ := h.status
    exact ⟨by simpa [illMask], by simpa [illMask] using one_outcome, by simpa [illMask] using cause, by simpa [illMask],
      by simpa [illMask]⟩
  unconfigured := fun hc => { h.unconfigured (by simpa [illMask] using hc) with }
  configured := fun hc => { h.configured (by simpa [illMask] using hc) with }
  tables := { h.tables with }
  analyzer := { h.analyzer with
    exit_flag := by simpa [illMask] using h.analyzer.exit_flag
    exit_closed := by simpa [illMask] using h.analyzer.exit_closed }
  fifos := { h.fifos with }
  port := { h.port with
    in_progress := by simpa [illMask] using h.port.in_progress }

/-- A configuration error sets its flag and its cause (R260). -/
theorem State.Inv.raiseCfg (h : s.Inv p) (ready : s.capPhase = .ready) (cfgOk : s.cfgOk = false) {e : Exc}
    (he : e = .cfgUnsupportedEncoding ∨ e = .cfgZeroChannels ∨ e = .cfgBadSampleRate) : (raise e s).Inv p := by
  obtain ⟨code, hne, hle, hraise⟩ := raise_cfgError he s
  rw [hraise]
  have hU := h.unconfigured cfgOk
  exact {
    status := ⟨by simpa [cfgErrMask] using h.status.reserved, by simp [cfgErrMask, cfgOk],
      by simpa [cfgErrMask] using hne, by simpa using hle, by simpa [cfgErrMask] using h.status.no_abort⟩
    unconfigured := fun _ => { hU with }
    configured := fun hc => by simp [cfgErrMask, cfgOk] at hc
    tables := { h.tables with }
    analyzer := { h.analyzer with
      exit_flag := by simpa [cfgErrMask] using h.analyzer.exit_flag
      exit_closed := by simpa [cfgErrMask] using h.analyzer.exit_closed }
    fifos := { h.fifos with }
    port := { h.port with in_progress := fun hb => absurd ready hb } }

/-! ## Source commands -/

/-- A successful `CFG` (R124 to R126). -/
theorem State.Inv.afterCfg (h : s.Inv p) (hF : 0 < p.data.fftSize) (ready : s.capPhase = .ready) (cfgOk : s.cfgOk = false)
    (cfgErr : s.cfgErr = false) {channels enc : Nat} {rate : Word} (hch : channels < 2 ^ 16) (encoding : enc ≤ 2)
    (channel : channels ≠ 0) (sampleRate : p.minRate ≤ rate.toNat) : (configure p channels enc rate s).Inv p := by
  have hU := h.unconfigured cfgOk
  obtain ⟨-, -, -, hring⟩ := hU.empty
  have hexit : s.anaExited = false := by
    have := h.analyzer.exit_flag
    rw [hU.analyzer] at this
    simpa using this
  have h16 : (BitVec.ofNat 16 channels).toNat = channels := by simpa using Nat.mod_eq_of_lt hch
  have h8 : (BitVec.ofNat 8 enc).toNat = enc := by rw [BitVec.toNat_ofNat]; omega
  exact {
    status := by
      obtain ⟨reserved, one_outcome, cause, cause_code, no_abort⟩ := h.status
      exact ⟨by simpa, by simp [cfgErr], by simpa using cause, by simpa, by simpa⟩
    unconfigured := fun hc => by simp at hc
    configured := fun _ => ⟨sampleRate, fun h0 => channel (by rw [← h16]; simp [configure_channels] at h0; simp [h0]),
      by rw [configure_encoding, h8]; exact encoding, rfl, rfl, by simp⟩
    tables := { h.tables with
      bandmap := bandmapFor_length _ _
      entries := bandmapFor_le _ _ }
    analyzer := ⟨fun _ => by simpa [hring] using hF, by simp, by simp, by simp [hexit], by simp, by simp [hring]⟩
    fifos := { h.fifos with }
    port := { h.port with in_progress := fun hb => absurd ready hb } }

/-- `CLOSE` (R130). -/
theorem State.Inv.afterClose (h : s.Inv p) (ready : s.capPhase = .ready) : (s.setStatus closedMask).Inv p where
  status := by
    obtain ⟨reserved, one_outcome, cause, cause_code, no_abort⟩ := h.status
    exact ⟨by simpa [closedMask], by simpa [closedMask] using one_outcome, by simpa [closedMask] using cause,
      by simpa [closedMask], by simpa [closedMask]⟩
  unconfigured := fun hc => { h.unconfigured (by simpa [closedMask] using hc) with }
  configured := fun hc => { h.configured (by simpa [closedMask] using hc) with }
  tables := { h.tables with }
  analyzer := { h.analyzer with
    exit_flag := by simpa [closedMask] using h.analyzer.exit_flag
    exit_closed := fun he => ⟨by simp [closedMask], (h.analyzer.exit_closed he).2⟩ }
  fifos := { h.fifos with }
  port := { h.port with in_progress := fun hb => absurd ready hb }

/-- The first sub-step of a `BATCH` (R128). -/
theorem State.Inv.afterDmx (h : s.Inv p) (cfgOk : s.cfgOk = true) (isOpen : s.closed = false) (header : s.srcRx = .header)
    {raw : List Word} (hraw : raw.length ≤ Config.nmax) : (capDmx p raw s).Inv p := by
  have hframes : raw.length / s.channels.toNat ≤ Config.nmax := (Nat.div_le_self _ _).trans hraw
  exact {
    status := { h.status with }
    unconfigured := fun hc => absurd (cfgOk.symm.trans hc) (by decide)
    configured := fun hc => { h.configured hc with }
    tables := { h.tables with }
    analyzer := { h.analyzer with }
    fifos := { h.fifos with mono := by simpa using hframes }
    port := ⟨fun _ => ⟨header, isOpen, by
        rw [capDmx_nframes, capDmx_mono, downmix_length, BitVec.toNat_ofNat, Nat.mod_eq_of_lt (Nat.lt_succ_of_le hframes)]⟩,
      h.port.held, h.port.discard⟩ }

/-! ## Consumer commands -/

/-- What a consumer command leaves of the FIFOs is part of what they held (R236 to R239). -/
theorem State.Inv.popped (h : s.Inv p) {lq : List (Level α)} {sq : List (Snapshot α)} (hl : lq.Sublist s.lq)
    (hs : sq.Sublist s.sq) : ({ s with lq, sq } : State α).Inv p where
  status := { h.status with }
  unconfigured := fun hc => { h.unconfigured hc with
    empty := by
      obtain ⟨el, ef, es, er⟩ := (h.unconfigured hc).empty
      exact ⟨List.sublist_nil.mp (el ▸ hl), ef, List.sublist_nil.mp (es ▸ hs), er⟩ }
  configured := fun hc => { h.configured hc with }
  tables := { h.tables with snapshots := fun snap hm => h.tables.snapshots snap (hs.subset hm) }
  analyzer := { h.analyzer with }
  fifos := { h.fifos with
    lq := hl.length_le.trans h.fifos.lq
    sq := hs.length_le.trans h.fifos.sq }
  port := { h.port with }

theorem fifoTryPop_sublist {β : Type} (q : List β) : (fifoTryPop q).2.Sublist q := by
  cases q with
  | nil => exact List.Sublist.refl _
  | cons m rest => exact List.sublist_cons_self m rest

theorem State.Inv.afterLevel (h : s.Inv p) {got : Option (Level α) × List (Level α)} (hgot : got.2.Sublist s.lq) :
    (answerLevel p got s).Inv p :=
  (h.popped hgot (List.Sublist.refl _)).io s.srcIn s.conIn _ s.turns s.fresh

theorem State.Inv.afterSpectrum (h : s.Inv p) {got : Option (Snapshot α) × List (Snapshot α)} (hgot : got.2.Sublist s.sq) :
    (answerSpectrum p got s).Inv p :=
  (h.popped (List.Sublist.refl _) hgot).io s.srcIn s.conIn _ s.turns s.fresh

/-! ## Commands -/

/-- Running a command keeps the invariant: on port SRC a command that fits its header, while no batch is in progress. -/
theorem State.Inv.ran (h : s.Inv p) (hF : 0 < p.data.fftSize) {i : Instr} {t : State α} (r : Ran p i s t)
    (src : i.port = .src → s.capPhase = .ready ∧ i.wellFormed = true) : t.Inv p := by
  cases r with
  | held i s isSrc =>
    obtain ⟨ready, fits⟩ := src isSrc
    exact h.expect ready (fun j e => by cases e; exact ⟨fits, isSrc⟩) (fun n e => by cases e)
  | refused i s isSrc ready =>
    obtain ⟨-, fits⟩ := src isSrc
    exact h.raiseIllegal.afterDiscard ready (payloadWords_le fits)
  | cfgFailed channels enc rate rest s e ready words cfgOk cfgErr isOpen error =>
    exact State.Inv.raiseCfg ((h.header ready).io rest s.conIn s.conOut s.turns s.fresh) ready cfgOk error
  | cfgDone channels enc rate rest s ready words cfgOk cfgErr isOpen encoding channel sampleRate =>
    obtain ⟨-, fits⟩ := src rfl
    simp only [Instr.wellFormed, Bool.and_eq_true, decide_eq_true_eq] at fits
    exact State.Inv.afterCfg ((h.header ready).io rest s.conIn s.conOut s.turns s.fresh) hF ready cfgOk cfgErr fits.1 encoding
      channel sampleRate
  | batch n s ready cfgOk cfgErr isOpen words =>
    obtain ⟨-, fits⟩ := src rfl
    simp only [Instr.wellFormed, decide_eq_true_eq] at fits
    exact State.Inv.afterDmx ((h.header ready).io (s.srcIn.drop n) s.conIn s.conOut s.turns s.fresh) cfgOk isOpen rfl
      ((List.length_take_le _ _).trans (Nat.le_of_lt_succ fits))
  | closed s ready isOpen => exact (h.header ready).afterClose ready
  | lvlPop s => exact h.afterLevel (fifoTryPop_sublist _)
  | lvlLatest s => exact h.afterLevel (List.nil_sublist _)
  | spcPop s => exact h.afterSpectrum (fifoTryPop_sublist _)
  | spcLatest s => exact h.afterSpectrum (List.nil_sublist _)
  | register r w s word => exact h.io s.srcIn s.conIn _ s.turns s.fresh
  | noRegister r s reserved => exact h.raiseIllegal

/-! ## The publishes (R148, R149) -/

/-- A batch in progress is a configured state's. -/
theorem State.Inv.cfgOk_of_busy (h : s.Inv p) (busy : s.capPhase ≠ .ready) : s.cfgOk = true := by
  by_contra hc
  exact busy (h.unconfigured (by simpa using hc)).capture

theorem State.Inv.afterPubl (h : s.Inv p) (phase : s.capPhase = .pubLevel) : (capPubl p s).Inv p := by
  have busy : s.capPhase ≠ .ready := by simp [phase]
  exact {
    status := { h.status with }
    unconfigured := fun hc => absurd ((h.cfgOk_of_busy busy).symm.trans hc) (by decide)
    configured := fun hc => { h.configured hc with }
    tables := { h.tables with }
    analyzer := { h.analyzer with }
    fifos := { h.fifos with lq := fifoTryPush_length h.fifos.lq _ }
    port := { h.port with in_progress := fun _ => h.port.in_progress busy } }

theorem State.Inv.afterPubf (h : s.Inv p) (phase : s.capPhase = .pubFrame) : (capPubf p s).Inv p := by
  have busy : s.capPhase ≠ .ready := by simp [phase]
  obtain ⟨-, isOpen, -⟩ := h.port.in_progress busy
  exact {
    status := { h.status with }
    unconfigured := fun hc => absurd ((h.cfgOk_of_busy busy).symm.trans hc) (by decide)
    configured := fun hc => { h.configured hc with }
    tables := { h.tables with }
    analyzer := { h.analyzer with
      exit_closed := fun he => absurd (isOpen.symm.trans (h.analyzer.exit_closed he).1) (by decide) }
    fifos := { h.fifos with
      fq := fifoTryPush_length h.fifos.fq _
      batches := fun batch hb => by
        rcases mem_fifoTryPush hb with hb | rfl
        · exact h.fifos.batches batch hb
        · exact h.fifos.mono }
    port := { h.port with in_progress := fun hb => absurd rfl hb } }

/-! ## The analyzer (R176 to R188) -/

/-- An analyzer that is not idle is a configured state's. -/
theorem State.Inv.cfgOk_of_analyzer (h : s.Inv p) (awake : s.anaPhase ≠ .idle) : s.cfgOk = true := by
  by_contra hc
  exact awake (h.unconfigured (by simpa using hc)).analyzer

theorem State.Inv.not_exited (h : s.Inv p) (phase : s.anaPhase ≠ .exited) : s.anaExited = false := by
  have := h.analyzer.exit_flag
  simpa [phase] using this

theorem loopTest_ne (f : Nat) (ring : List α) :
    loopTest f ring ≠ .idle ∧ loopTest f ring ≠ .exited ∧ loopTest f ring ≠ .aborted := by
  rcases loopTest_cases f ring with e | e <;> simp [e]

/-- After a loop test the analyzer loops or waits, as the ring says (R187). -/
theorem AnalyzerInv.of_loopTest {t : State α} (htest : t.anaPhase = loopTest p.data.fftSize t.ring)
    (hexit : t.anaExited = false) (hbound : t.ring.length ≤ p.data.ringCap) : AnalyzerInv t p := by
  obtain ⟨-, hne, hna⟩ := loopTest_ne p.data.fftSize t.ring
  exact ⟨fun e => (loopTest_eq_wait _ _).mp (htest ▸ e), fun e => (loopTest_eq_loop _ _).mp (htest ▸ e), htest ▸ hna,
    by simp [htest, hne, hexit], fun e => absurd (htest ▸ e) hne, hbound⟩

theorem State.Inv.afterRecv (h : s.Inv p) (phase : s.anaPhase = .wait) {batch : List α} {rest : List (List α)}
    (queue : s.fq = batch :: rest) : (anaRecv p batch rest s).Inv p := by
  have awake := h.cfgOk_of_analyzer (by simp [phase])
  have hlen := h.analyzer.waiting phase
  have hbatch := h.fifos.batches batch (by simp [queue])
  exact {
    status := { h.status with }
    unconfigured := fun hc => absurd (awake.symm.trans hc) (by decide)
    configured := fun hc => { h.configured hc with analyzer := (loopTest_ne _ _).1 }
    tables := { h.tables with }
    analyzer := .of_loopTest rfl (h.not_exited (by simp [phase])) (by
      simp only [anaRecv_ring, List.length_append, DataPath.ringCap]; omega)
    fifos := { h.fifos with
      fq := by have := h.fifos.fq; rw [queue] at this; exact (Nat.le_succ _).trans this
      batches := fun b hb => h.fifos.batches b (by simp [queue, show b ∈ rest from hb]) }
    port := { h.port with } }

theorem State.Inv.afterExit (h : s.Inv p) (phase : s.anaPhase = .wait) (queue : s.fq = []) (isClosed : s.closed = true) :
    (anaExit s).Inv p := by
  have awake := h.cfgOk_of_analyzer (by simp [phase])
  exact {
    status := by
      obtain ⟨reserved, one_outcome, cause, cause_code, no_abort⟩ := h.status
      exact ⟨by simpa, by simpa using one_outcome, by simpa using cause, by simpa, by simpa⟩
    unconfigured := fun hc => by simp [awake] at hc
    configured := fun _ => { h.configured awake with analyzer := by simp }
    tables := { h.tables with }
    analyzer := ⟨by simp, by simp, by simp, by simp,
      fun _ => ⟨by simpa using isClosed, queue, h.analyzer.waiting phase⟩, h.analyzer.ring_bound⟩
    fifos := { h.fifos with }
    port := { h.port with in_progress := by simpa using h.port.in_progress } }

theorem State.Inv.afterPass (h : s.Inv p) (phase : s.anaPhase = .loop) (x : List α) : (anaPass p x s).Inv p := by
  have awake := h.cfgOk_of_analyzer (by simp [phase])
  have hsnap : (analysis p s.bandmap x s.smDb s.smLin).bands.length = p.data.bands
      ∧ (analysis p s.bandmap x s.smDb s.smLin).bandsLinear.length = p.data.bands :=
    ⟨smoothAll_length _ _ _, smoothAll_length _ _ _⟩
  exact {
    status := { h.status with }
    unconfigured := fun hc => absurd (awake.symm.trans hc) (by decide)
    configured := fun hc => { h.configured hc with analyzer := (loopTest_ne _ _).1 }
    tables := { h.tables with
      smoothing := hsnap
      snapshots := fun snap hm => by
        rcases mem_fifoTryPush hm with hm | rfl
        · exact h.tables.snapshots snap hm
        · exact hsnap }
    analyzer := .of_loopTest rfl (h.not_exited (by simp [phase])) (by
      have := h.analyzer.ring_bound
      simp only [anaPass_ring, ringDrop_length]; omega)
    fifos := { h.fifos with sq := fifoTryPush_length h.fifos.sq _ }
    port := { h.port with } }

/-! ## Every step -/

/-- A turn of any mover keeps the invariant. -/
theorem State.Inv.moved (h : s.Inv p) (hF : 0 < p.data.fftSize) {m : Move} {t : State α} (hm : Moved p m s t) : t.Inv p := by
  cases hm with
  | idleSrc => exact h
  | heldRan i s t ready held ran => exact h.ran hF ran fun _ => ⟨ready, (h.port.held i held).1⟩
  | discarded n s ready discard =>
    exact h.afterDiscard ready (h.port.discard n discard)
  | headerRan w rest i s t ready header words decoded ran =>
    exact (h.io rest s.conIn s.conOut s.turns s.fresh).ran hF ran fun _ => ⟨ready, decode_wellFormed decoded⟩
  | headerIllegal w rest e s ready header words illegal => exact (h.io rest s.conIn s.conOut s.turns s.fresh).raiseIllegal
  | idleCon => exact h
  | conRan w rest i s t words decoded ran =>
    refine (h.io s.srcIn rest s.conOut s.turns s.fresh).ran hF ran fun src => ?_
    rw [decode_port decoded] at src
    cases src
  | conIllegal w rest e s words illegal => exact (h.io s.srcIn rest s.conOut s.turns s.fresh).raiseIllegal
  | idleCap => exact h
  | publ s phase => exact h.afterPubl phase
  | pubf s phase => exact h.afterPubf phase
  | idleAna => exact h
  | received b rest s phase queue => exact h.afterRecv phase queue
  | exited s phase queue isClosed => exact h.afterExit phase queue isClosed
  | passed s phase full => exact h.afterPass phase _
  | aborted s phase short => exact absurd (h.analyzer.looping phase) (by omega)
  | reset s => exact (resetAt_inv p).io _ s.conIn [] s.turns s.fresh

/-- Every step of a machine with given parameters keeps the invariant, if `F` is not 0. -/
theorem stepAt_inv (hF : 0 < p.data.fftSize) (h : s.Inv p) {t : State α} (hstep : stepAt p s = .next t) : t.Inv p := by
  obtain ⟨ts, fr, hm⟩ := stepAt_moved hstep
  exact (h.io s.srcIn s.conIn s.conOut ts fr).moved hF hm

theorem step_inv {s t : State} (h : s.Inv Params.default) (hstep : step s = .next t) : t.Inv Params.default :=
  stepAt_inv (by decide) h (step_eq s ▸ hstep)

/-- Settles O9: the reset state is the one of its parameters, and every clause holds of its literal fields. -/
theorem resetStateHasTheInvariant : Obligations.ResetStateHasTheInvariant :=
  ⟨State.resetAt_default ▸ resetAt_inv Params.default, fun _ p => resetAt_inv p⟩

/-- Settles O10, by cases over what a step can do. -/
theorem everyStepKeepsTheInvariant : Obligations.EveryStepKeepsTheInvariant :=
  ⟨fun _ _ h hstep => step_inv h hstep, fun _ _ _ _ hF h hstep => stepAt_inv hF h hstep⟩

end Sys2Proof.Machine

/-! The kinds of images, their order, and the operations of `NUM_F32` as one rounding of an exact ratio (R17 c). -/

namespace Sys2Proof.NumF32

/-! ## The kinds of images -/

theorem expo_eq (a : F32) : expo a = a.toNat % 2 ^ 31 / 2 ^ 23 := by
  conv_lhs => rw [eq_pack a]
  exact expo_pack _ (Nat.mod_lt _ (by decide))

theorem frac_eq (a : F32) : frac a = a.toNat % 2 ^ 31 % 2 ^ 23 := by
  conv_lhs => rw [eq_pack a]
  exact frac_pack _ _

theorem isInf_iff (a : F32) : isInf a = true ↔ a.toNat % 2 ^ 31 = infImage := by
  simp only [isInf, expo_eq, frac_eq, Bool.and_eq_true, beq_iff_eq, infImage]; omega

theorem isNaN_iff (a : F32) : isNaN a = true ↔ infImage < a.toNat % 2 ^ 31 := by
  simp only [isNaN, expo_eq, frac_eq, Bool.and_eq_true, beq_iff_eq, bne_iff_ne, infImage]; omega

theorem isNaN_of_isFinite {a : F32} (h : isFinite a = true) : isNaN a = false := by
  rw [isFinite_iff] at h
  rw [← Bool.not_eq_true, isNaN_iff]; exact h.le.not_gt

theorem isInf_of_isFinite {a : F32} (h : isFinite a = true) : isInf a = false := by
  rw [isFinite_iff] at h
  rw [← Bool.not_eq_true, isInf_iff]; exact h.ne

theorem isFinite_of_isInf {a : F32} (h : isInf a = true) : isFinite a = false := by
  by_contra hf
  exact absurd (isInf_of_isFinite (by simpa using hf)) (by simp [h])

/-- What is not a NaN is finite or an infinity. -/
theorem isFinite_or_isInf {a : F32} (h : isNaN a = false) : isFinite a = true ∨ isInf a = true := by
  rw [← Bool.not_eq_true, isNaN_iff] at h
  rw [isFinite_iff, isInf_iff]; exact (not_lt.mp h).lt_or_eq

theorem eq_inf {a : F32} (h : isInf a = true) : a = inf (sign a) := by
  rw [isInf_iff] at h
  conv_lhs => rw [eq_pack a, h]
  rfl

theorem isNaN_inf (neg : Bool) : isNaN (inf neg) = false := by cases neg <;> decide

theorem isFinite_inf (neg : Bool) : isFinite (inf neg) = false := isFinite_of_isInf (isInf_inf neg)

theorem isZero_iff (a : F32) : isZero a = true ↔ isFinite a = true ∧ mag a = 0 := by simp [isZero]

theorem isFinite_of_isZero {a : F32} (h : isZero a = true) : isFinite a = true := ((isZero_iff a).mp h).1

theorem isZero_inf (neg : Bool) : isZero (inf neg) = false := by cases neg <;> decide

/-! ## Values -/

theorem natAbs_toInt (a : F32) : (toInt a).natAbs = mag a := by unfold toInt; split <;> omega

theorem toInt_eq_zero_iff (a : F32) : toInt a = 0 ↔ mag a = 0 := by rw [← natAbs_toInt]; omega

theorem toInt_of_isZero {a : F32} (h : isZero a = true) : toInt a = 0 :=
  (toInt_eq_zero_iff a).mpr ((isZero_iff a).mp h).2

theorem isZero_of_toInt {a : F32} (hf : isFinite a = true) (h : toInt a = 0) : isZero a = true :=
  (isZero_iff a).mpr ⟨hf, (toInt_eq_zero_iff a).mp h⟩

theorem toInt_zero : toInt 0#32 = 0 := by decide

theorem toInt_one : toInt 0x3F800000#32 = one := by decide

/-- The sign of a value that is not 0 is its sign bit. -/
theorem sign_of_toInt_pos {a : F32} (h : 0 < toInt a) : sign a = false := by
  by_contra hs
  simp only [toInt, show sign a = true by simpa using hs, if_true] at h
  omega

theorem sign_of_toInt_neg {a : F32} (h : toInt a < 0) : sign a = true := by
  by_contra hs
  simp only [toInt, show sign a = false by simpa using hs, Bool.false_eq_true, if_false] at h
  omega

theorem isZero_of_pos {a : F32} (h : 0 < toInt a) : isZero a = false := by
  rw [← Bool.not_eq_true]; exact fun hz => h.ne' (toInt_of_isZero hz)

/-! ## The order (R17 b): a finite value is below 2^128 in magnitude, and the infinities stand beyond -/

theorem rank_of_isFinite {a : F32} (h : isFinite a = true) : rank a = toInt a := by
  simp [rank, isInf_of_isFinite h]

/-- The place of the positive infinity, beyond every finite value. -/
def top : Int := 2 ^ 300

theorem toInt_lt_top {a : F32} (h : isFinite a = true) : -top < toInt a ∧ toInt a < top := by
  have hlt := mag_lt a h
  have htop : ((2 ^ 24 * 2 ^ 253 : Nat) : Int) ≤ top := by
    rw [← pow_add, Nat.cast_pow]; exact pow_le_pow_right₀ (by decide) (by decide)
  rw [← natAbs_toInt] at hlt
  generalize 2 ^ 24 * 2 ^ 253 = C at hlt htop
  omega

theorem one_lt_top : (one : Int) < top := by
  rw [Nat.cast_pow]; exact pow_lt_pow_right₀ (by decide) (by decide)

theorem top_pos : 0 < top := lt_trans (by positivity) one_lt_top

theorem rank_of_isInf {a : F32} (h : isInf a = true) : rank a = if sign a then -top else top := if_pos h

theorem rank_inf (neg : Bool) : rank (inf neg) = if neg then -top else top := by
  rw [rank_of_isInf (isInf_inf neg), sign_inf]

/-- What stands between the infinities is finite. -/
theorem isFinite_of_rank {a : F32} (hn : isNaN a = false) (lo : -top < rank a) (hi : rank a < top) :
    isFinite a = true := by
  rcases isFinite_or_isInf hn with h | h
  · exact h
  · rw [rank_of_isInf h] at lo hi
    split at lo
    · exact absurd lo (lt_irrefl _)
    · simp_all

theorem nonneg_iff (a : F32) : Machine.nonneg a = true ↔ isNaN a = false ∧ 0 ≤ rank a := by
  simp [Machine.nonneg]

theorem inUnit_iff (a : F32) : inUnit a = true ↔ isFinite a = true ∧ 0 ≤ toInt a ∧ toInt a ≤ one := by
  simp [inUnit, and_assoc]

theorem inUnit_iff_rank {a : F32} (hn : isNaN a = false) : inUnit a = true ↔ 0 ≤ rank a ∧ rank a ≤ one := by
  rw [inUnit_iff]
  constructor
  · rintro ⟨hf, h⟩
    rwa [rank_of_isFinite hf]
  · rintro ⟨lo, hi⟩
    have hf := isFinite_of_rank hn ((neg_lt_zero.mpr top_pos).trans_le lo) (hi.trans_lt one_lt_top)
    rw [rank_of_isFinite hf] at lo hi
    exact ⟨hf, lo, hi⟩

theorem isNaN_of_inUnit {a : F32} (h : inUnit a = true) : isNaN a = false :=
  isNaN_of_isFinite ((inUnit_iff a).mp h).1

theorem nonneg_of_inUnit {a : F32} (h : inUnit a = true) : Machine.nonneg a = true :=
  (nonneg_iff a).mpr ⟨isNaN_of_inUnit h, ((inUnit_iff_rank (isNaN_of_inUnit h)).mp h).1⟩

theorem normalized_iff (a : F32) :
    Machine.normalized a = true ↔ isFinite a = true ∧ -one ≤ toInt a ∧ toInt a ≤ one := by
  have := natAbs_toInt a
  simp only [Machine.normalized, Bool.and_eq_true, decide_eq_true_eq, ← this]
  constructor <;> rintro ⟨hf, h⟩ <;> refine ⟨hf, ?_⟩ <;> omega

/-! ## `neg` and `abs` -/

theorem pack_toNat_mod (neg : Bool) {m : Nat} (h : m < 2 ^ 31) : (pack neg m).toNat % 2 ^ 31 = m := by
  unfold pack; rw [BitVec.toNat_ofNat]; split <;> omega

/-- An image is given by its sign and the image without sign. -/
theorem eq_pack_of {a : F32} {b : Bool} {m : Nat} (hs : sign a = b) (hm : a.toNat % 2 ^ 31 = m) : a = pack b m := by
  rw [← hs, ← hm]; exact eq_pack a

theorem neg_eq_pack (a : F32) : neg a = pack (!sign a) (a.toNat % 2 ^ 31) := by
  apply eq_pack_of
  · simp [neg, sign]
  · simp only [neg, BitVec.toNat_xor, Nat.xor_mod_two_pow]
    exact Nat.xor_zero _

theorem abs_eq_pack (a : F32) : abs a = pack false (a.toNat % 2 ^ 31) := by
  apply eq_pack_of
  · simp [abs, sign]
  · simp only [abs, BitVec.toNat_and, Nat.and_mod_two_pow]
    exact (Nat.and_two_pow_sub_one_eq_mod _ 31).trans (Nat.mod_mod _ _)

theorem sign_neg (a : F32) : sign (neg a) = !sign a := by
  rw [neg_eq_pack, sign_pack _ (Nat.mod_lt _ (by decide))]

theorem sign_abs (a : F32) : sign (abs a) = false := by rw [abs_eq_pack, sign_pack _ (Nat.mod_lt _ (by decide))]

theorem neg_toNat_mod (a : F32) : (neg a).toNat % 2 ^ 31 = a.toNat % 2 ^ 31 := by
  rw [neg_eq_pack, pack_toNat_mod _ (Nat.mod_lt _ (by decide))]

theorem abs_toNat_mod (a : F32) : (abs a).toNat % 2 ^ 31 = a.toNat % 2 ^ 31 := by
  rw [abs_eq_pack, pack_toNat_mod _ (Nat.mod_lt _ (by decide))]

/-- The kind of an image and its magnitude do not depend on its sign. -/
theorem kind_congr {a b : F32} (h : a.toNat % 2 ^ 31 = b.toNat % 2 ^ 31) :
    isFinite a = isFinite b ∧ isInf a = isInf b ∧ isNaN a = isNaN b ∧ mag a = mag b := by
  refine ⟨?_, ?_, ?_, by rw [mag_eq, mag_eq, h]⟩ <;> rw [Bool.eq_iff_iff]
  · rw [isFinite_iff, isFinite_iff, h]
  · rw [isInf_iff, isInf_iff, h]
  · rw [isNaN_iff, isNaN_iff, h]

theorem isFinite_neg (a : F32) : isFinite (neg a) = isFinite a := (kind_congr (neg_toNat_mod a)).1
theorem isNaN_neg (a : F32) : isNaN (neg a) = isNaN a := (kind_congr (neg_toNat_mod a)).2.2.1
theorem isFinite_abs (a : F32) : isFinite (abs a) = isFinite a := (kind_congr (abs_toNat_mod a)).1
theorem isNaN_abs (a : F32) : isNaN (abs a) = isNaN a := (kind_congr (abs_toNat_mod a)).2.2.1

theorem toInt_neg (a : F32) : toInt (neg a) = -toInt a := by
  obtain ⟨-, -, -, hm⟩ := kind_congr (neg_toNat_mod a)
  rw [toInt, toInt, sign_neg, hm]
  cases sign a <;> simp

theorem toInt_abs (a : F32) : toInt (abs a) = |toInt a| := by
  obtain ⟨-, -, -, hm⟩ := kind_congr (abs_toNat_mod a)
  rw [toInt, toInt, sign_abs, hm]
  cases sign a <;> simp

theorem rank_neg (a : F32) : rank (neg a) = -rank a := by
  obtain ⟨-, hi, -, -⟩ := kind_congr (neg_toNat_mod a)
  rw [rank, rank, hi, sign_neg, toInt_neg, show (2 : Int) ^ 300 = top from rfl]
  cases isInf a <;> cases sign a <;> simp

theorem rank_abs (a : F32) : rank (abs a) = |rank a| := by
  obtain ⟨-, hi, -, -⟩ := kind_congr (abs_toNat_mod a)
  rw [rank, rank, hi, sign_abs, toInt_abs, show (2 : Int) ^ 300 = top from rfl]
  cases isInf a <;> cases sign a <;> simp [abs_of_pos top_pos]

/-! ## `lt`, `max`, `min` are exact (R17 b) -/

theorem lt_iff {a b : F32} (ha : isNaN a = false) (hb : isNaN b = false) : lt a b = true ↔ rank a < rank b := by
  simp [lt, ha, hb]

/-- `max` answers the operand of the larger rank. -/
theorem max_spec {a b : F32} (ha : isNaN a = false) (hb : isNaN b = false) :
    (max a b = a ∨ max a b = b) ∧ rank (max a b) = Max.max (rank a) (rank b) := by
  have hlt := lt_iff ha hb
  simp only [max, ha, hb, Bool.or_self, Bool.false_eq_true, if_false]
  split
  · exact ⟨.inr rfl, by have := hlt.mp ‹_›; omega⟩
  · exact ⟨.inl rfl, by rename_i h; rw [hlt] at h; omega⟩

/-- `min` answers the operand of the smaller rank. -/
theorem min_spec {a b : F32} (ha : isNaN a = false) (hb : isNaN b = false) :
    (min a b = a ∨ min a b = b) ∧ rank (min a b) = Min.min (rank a) (rank b) := by
  have hlt := lt_iff hb ha
  simp only [min, ha, hb, Bool.or_self, Bool.false_eq_true, if_false]
  split
  · exact ⟨.inr rfl, by have := hlt.mp ‹_›; omega⟩
  · exact ⟨.inl rfl, by rename_i h; rw [hlt] at h; omega⟩

theorem isNaN_max {a b : F32} (ha : isNaN a = false) (hb : isNaN b = false) : isNaN (max a b) = false := by
  rcases (max_spec ha hb).1 with e | e <;> rw [e] <;> assumption

theorem isNaN_min {a b : F32} (ha : isNaN a = false) (hb : isNaN b = false) : isNaN (min a b) = false := by
  rcases (min_spec ha hb).1 with e | e <;> rw [e] <;> assumption

theorem isFinite_max {a b : F32} (ha : isFinite a = true) (hb : isFinite b = true) : isFinite (max a b) = true := by
  rcases (max_spec (isNaN_of_isFinite ha) (isNaN_of_isFinite hb)).1 with e | e <;> rw [e] <;> assumption

theorem isFinite_min {a b : F32} (ha : isFinite a = true) (hb : isFinite b = true) : isFinite (min a b) = true := by
  rcases (min_spec (isNaN_of_isFinite ha) (isNaN_of_isFinite hb)).1 with e | e <;> rw [e] <;> assumption

/-! ## One rounding of a signed ratio -/

/-- `v` is the exact `num / den` quanta rounded once (R17 c). -/
def Rounds (num : Int) (den : Nat) (v : F32) : Prop :=
  ∃ neg, SignOf num neg ∧ v = pack neg (roundMag num.natAbs den)

namespace Rounds

variable {num : Int} {den : Nat} {v : F32}

theorem nearest (h : Rounds num den v) (hd : 0 < den) (hb : num.natAbs < Machine.overflowBound * den) :
    Machine.IsNearestEven num den v := by
  obtain ⟨neg, hs, rfl⟩ := h
  exact isNearestEven_pack hd hs hb

theorem keeps (h : Rounds num den v) (hd : 0 < den) : Machine.KeepsRangeAndSign num den v := by
  obtain ⟨neg, hs, rfl⟩ := h
  exact keepsRangeAndSign_pack hd hs

theorem isFinite (h : Rounds num den v) (hd : 0 < den) (hb : num.natAbs < Machine.overflowBound * den) :
    isFinite v = true := ((h.keeps hd).1 hb).1

/-- A rounded number is finite or an infinity. -/
theorem isNaN (h : Rounds num den v) : isNaN v = false := by
  obtain ⟨neg, -, rfl⟩ := h
  have := roundMag_le num.natAbs den
  rw [← Bool.not_eq_true, isNaN_iff, pack_toNat_mod _ (roundMag_lt_two_pow _ _)]
  exact Nat.not_lt.mpr this

theorem neg (h : Rounds num den v) : Rounds (-num) den (neg v) := by
  obtain ⟨b, hs, rfl⟩ := h
  have hm := roundMag_lt_two_pow num.natAbs den
  refine ⟨!b, ⟨fun h0 => ?_, fun h0 => ?_⟩, ?_⟩
  · rw [hs.2 (by omega)]; rfl
  · rw [hs.1 (by omega)]; rfl
  · rw [neg_eq_pack, sign_pack _ hm, pack_toNat_mod _ hm, Int.natAbs_neg]

/-- Rounding stays below every finite value that the exact ratio stays below. -/
theorem rank_le (h : Rounds num den v) (hd : 0 < den) {w : F32} (hw : NumF32.isFinite w = true)
    (hle : num ≤ toInt w * den) : rank v ≤ toInt w := by
  obtain ⟨b, hs, rfl⟩ := h
  have hm := roundMag_lt_two_pow num.natAbs den
  have hlow := (isFinite_iff w).mp hw
  have hmag := mag_eq w
  cases b with
  | false =>
    have hn : 0 ≤ num := by by_contra hc; exact absurd (hs.1 (by omega)) (by decide)
    have hw0 : toInt w = mag w := by
      have : 0 ≤ toInt w := by
        by_contra hc
        have : toInt w * den < 0 := mul_neg_of_neg_of_pos (by omega) (by exact_mod_cast hd)
        omega
      rw [← natAbs_toInt]; omega
    have hcmp : num.natAbs ≤ mag w * den := by
      rw [hw0] at hle
      zify; rwa [abs_of_nonneg hn]
    have hR : roundMag num.natAbs den ≤ w.toNat % 2 ^ 31 := by
      rw [← roundMag_exact (m := w.toNat % 2 ^ 31) den hd hlow.le, ← hmag]
      exact roundMag_mono hd hd (Nat.mul_le_mul_right den hcmp)
    rw [rank_of_isFinite (isFinite_pack _ (hR.trans_lt hlow)), toInt_pack _ hm, hw0, hmag, if_neg Bool.false_ne_true]
    exact_mod_cast magImg_strictMono.monotone hR
  | true =>
    have hn : num ≤ 0 := by by_contra hc; exact absurd (hs.2 (by omega)) (by decide)
    rcases isFinite_or_isInf (isNaN ⟨true, hs, rfl⟩) with hf | hi
    · rw [rank_of_isFinite hf, toInt_pack _ hm, if_pos rfl]
      by_cases h0 : 0 ≤ toInt w
      · omega
      · have hw0 : toInt w = -(mag w : Int) := by rw [← natAbs_toInt]; omega
        have hcmp : mag w * den ≤ num.natAbs := by
          rw [hw0] at hle
          zify; rw [abs_of_nonpos hn]; linarith
        have hR : w.toNat % 2 ^ 31 ≤ roundMag num.natAbs den := by
          rw [← roundMag_exact (m := w.toNat % 2 ^ 31) den hd hlow.le, ← hmag]
          exact roundMag_mono hd hd (Nat.mul_le_mul_right den hcmp)
        have := magImg_strictMono.monotone hR
        rw [hw0, hmag]; omega
    · rw [rank_of_isInf hi, sign_pack _ hm, if_pos rfl]; exact (toInt_lt_top hw).1.le

theorem le_rank (h : Rounds num den v) (hd : 0 < den) {w : F32} (hw : NumF32.isFinite w = true)
    (hle : toInt w * den ≤ num) : toInt w ≤ rank v := by
  have := h.neg.rank_le hd (w := NumF32.neg w) (by rw [isFinite_neg]; exact hw) (by rw [toInt_neg]; linarith)
  rw [rank_neg, toInt_neg] at this
  omega

/-- A ratio that binary32 holds is rounded to itself. -/
theorem exact (hd : 0 < den) {w : F32} (hw : NumF32.isFinite w = true) (h : Rounds (toInt w * den) den v) :
    NumF32.isFinite v = true ∧ toInt v = toInt w := by
  have lo := h.le_rank hd hw le_rfl
  have hi := h.rank_le hd hw le_rfl
  obtain ⟨hb, ht⟩ := toInt_lt_top hw
  have hf := isFinite_of_rank h.isNaN (hb.trans_le lo) (hi.trans_lt ht)
  rw [rank_of_isFinite hf] at lo hi
  exact ⟨hf, by omega⟩

theorem rank_nonneg (h : Rounds num den v) (hd : 0 < den) (h0 : 0 ≤ num) : 0 ≤ rank v :=
  h.le_rank hd (w := 0#32) (by decide) (by rw [toInt_zero]; simpa)

theorem rank_nonpos (h : Rounds num den v) (hd : 0 < den) (h0 : num ≤ 0) : rank v ≤ 0 :=
  h.rank_le hd (w := 0#32) (by decide) (by rw [toInt_zero]; simpa)

theorem nonneg (h : Rounds num den v) (hd : 0 < den) (h0 : 0 ≤ num) : Machine.nonneg v = true :=
  (nonneg_iff v).mpr ⟨h.isNaN, h.rank_nonneg hd h0⟩

/-- Between two finite values a ratio is rounded to a finite value between them. -/
theorem between (h : Rounds num den v) (hd : 0 < den) {lo hi : F32} (hlo : NumF32.isFinite lo = true)
    (hhi : NumF32.isFinite hi = true) (h1 : toInt lo * den ≤ num) (h2 : num ≤ toInt hi * den) :
    NumF32.isFinite v = true ∧ toInt lo ≤ toInt v ∧ toInt v ≤ toInt hi := by
  have l := h.le_rank hd hlo h1
  have u := h.rank_le hd hhi h2
  have hf := isFinite_of_rank h.isNaN ((toInt_lt_top hlo).1.trans_le l) (u.trans_lt (toInt_lt_top hhi).2)
  rw [rank_of_isFinite hf] at l u
  exact ⟨hf, l, u⟩

end Rounds

/-! ## The operations on finite operands -/

theorem add_rounds {a b : F32} (ha : isFinite a = true) (hb : isFinite b = true) :
    Rounds (toInt a + toInt b) 1 (add a b) := by
  simp only [add, isNaN_of_isFinite ha, isNaN_of_isFinite hb, isInf_of_isFinite ha, isInf_of_isFinite hb, Bool.or_self,
    Bool.false_eq_true, if_false]
  split
  · rename_i h0
    exact ⟨_, ⟨by omega, by omega⟩, by rw [h0, Int.natAbs_zero, roundMag_zero 1 (by decide)]⟩
  · exact ⟨_, signOf_decide _, rfl⟩

theorem sub_rounds {a b : F32} (ha : isFinite a = true) (hb : isFinite b = true) :
    Rounds (toInt a - toInt b) 1 (sub a b) := by
  have := add_rounds ha ((isFinite_neg b).trans hb)
  rwa [toInt_neg, ← sub_eq_add_neg] at this

/-- The sign of a product or a quotient. -/
theorem signOf_xor {a b : F32} {num : Int} (hp : 0 < num → 0 < toInt a * toInt b) (hn : num < 0 → toInt a * toInt b < 0) :
    SignOf num (sign a != sign b) := by
  constructor
  · intro h
    rcases mul_neg_iff.mp (hn h) with ⟨h1, h2⟩ | ⟨h1, h2⟩
    · simp [sign_of_toInt_pos h1, sign_of_toInt_neg h2]
    · simp [sign_of_toInt_neg h1, sign_of_toInt_pos h2]
  · intro h
    rcases mul_pos_iff.mp (hp h) with ⟨h1, h2⟩ | ⟨h1, h2⟩
    · simp [sign_of_toInt_pos h1, sign_of_toInt_pos h2]
    · simp [sign_of_toInt_neg h1, sign_of_toInt_neg h2]

theorem mul_rounds {a b : F32} (ha : isFinite a = true) (hb : isFinite b = true) :
    Rounds (toInt a * toInt b) one (mul a b) := by
  simp only [mul, isNaN_of_isFinite ha, isNaN_of_isFinite hb, isInf_of_isFinite ha, isInf_of_isFinite hb, Bool.or_self,
    Bool.false_eq_true, if_false]
  exact ⟨_, signOf_xor id id, by rw [Int.natAbs_mul, natAbs_toInt, natAbs_toInt]⟩

theorem div_rounds {a b : F32} (ha : isFinite a = true) (hb : isFinite b = true) (h0 : toInt b ≠ 0) :
    Rounds (toInt a * (2 ^ 149 : Nat) * (toInt b).sign) (toInt b).natAbs (div a b) := by
  have hz : isZero b = false := by
    rw [← Bool.not_eq_true]; exact fun h => h0 (toInt_of_isZero h)
  simp only [div, isNaN_of_isFinite ha, isNaN_of_isFinite hb, isInf_of_isFinite ha, isInf_of_isFinite hb, hz, Bool.or_self,
    Bool.false_eq_true, if_false]
  have hmul : toInt a * toInt b * (2 ^ 149 : Nat) = toInt a * (2 ^ 149 : Nat) * (toInt b).sign * |toInt b| := by
    rw [mul_assoc _ (toInt b).sign, Int.sign_mul_abs]; ring
  have habs : 0 < |toInt b| := abs_pos.mpr h0
  refine ⟨sign a != sign b, signOf_xor (fun h => ?_) (fun h => ?_), ?_⟩
  · have : 0 < toInt a * toInt b * (2 ^ 149 : Nat) := by rw [hmul]; positivity
    exact pos_of_mul_pos_left this (by positivity)
  · have : toInt a * toInt b * (2 ^ 149 : Nat) < 0 := by rw [hmul]; exact mul_neg_of_neg_of_pos h habs
    exact neg_of_mul_neg_left this (by positivity)
  · rw [Int.natAbs_mul, Int.natAbs_mul, Int.natAbs_sign_of_ne_zero h0, natAbs_toInt, natAbs_toInt, Int.natAbs_natCast, mul_one]

theorem ofInt_rounds (z : Int) : Rounds (z * (2 ^ 149 : Nat)) 1 (ofInt z) := by
  have hp : (0 : Int) < (2 ^ 149 : Nat) := by positivity
  refine ⟨decide (z < 0), ⟨fun h => ?_, fun h => ?_⟩, ?_⟩
  · exact decide_eq_true (by by_contra hc; have := mul_nonneg (not_lt.mp hc) hp.le; omega)
  · exact decide_eq_false (by intro hc; have := mul_neg_of_neg_of_pos hc hp; omega)
  · rw [Int.natAbs_mul, Int.natAbs_natCast]; rfl

end Sys2Proof.NumF32

/-! The operations on infinite operands, the square root, and what follows for the levels of a band (R18, R205 to R207, R227). -/

namespace Sys2Proof.NumF32

/-! ## Infinite operands (R17 c) -/

theorem eq_inf_of_not_finite {a : F32} (hn : isNaN a = false) (hf : isFinite a = false) : a = inf (sign a) := by
  rcases isFinite_or_isInf hn with h | h
  · simp [h] at hf
  · exact eq_inf h

theorem add_inf (neg : Bool) {b : F32} (hb : isFinite b = true) : add (inf neg) b = inf neg := by
  simp [add, isNaN_inf, isNaN_of_isFinite hb, isInf_inf, isInf_of_isFinite hb]

theorem add_inf_right (neg : Bool) {a : F32} (ha : isFinite a = true) : add a (inf neg) = inf neg := by
  simp [add, isNaN_inf, isNaN_of_isFinite ha, isInf_inf, isInf_of_isFinite ha]

theorem add_inf_self (neg : Bool) : add (inf neg) (inf neg) = inf neg := by
  simp [add, isNaN_inf, isInf_inf]

theorem mul_inf (neg : Bool) {a : F32} (ha : isNaN a = false) (h0 : isZero a = false) :
    mul a (inf neg) = inf (sign a != neg) := by
  simp [mul, isNaN_inf, ha, isInf_inf, isZero_inf, h0, sign_inf]

theorem inf_mul (neg : Bool) {b : F32} (hb : isNaN b = false) (h0 : isZero b = false) :
    mul (inf neg) b = inf (neg != sign b) := by
  simp [mul, isNaN_inf, hb, isInf_inf, isZero_inf, h0, sign_inf]

theorem inf_div (neg : Bool) {b : F32} (hb : isFinite b = true) : div (inf neg) b = inf (neg != sign b) := by
  simp [div, isNaN_inf, isNaN_of_isFinite hb, isInf_inf, isInf_of_isFinite hb, sign_inf]

/-- A sum with a finite term is not a NaN. -/
theorem isNaN_add {a b : F32} (ha : isNaN a = false) (hb : isFinite b = true) : isNaN (add a b) = false := by
  rcases isFinite_or_isInf ha with h | h
  · exact (add_rounds h hb).isNaN
  · rw [eq_inf h, add_inf _ hb]; exact isNaN_inf _

/-- A product with a finite factor other than 0 is not a NaN. -/
theorem isNaN_mul_left {a b : F32} (ha : isFinite a = true) (h0 : isZero a = false) (hb : isNaN b = false) :
    isNaN (mul a b) = false := by
  rcases isFinite_or_isInf hb with h | h
  · exact (mul_rounds ha h).isNaN
  · rw [eq_inf h, mul_inf _ (isNaN_of_isFinite ha) h0]; exact isNaN_inf _

theorem isNaN_mul_right {a b : F32} (ha : isNaN a = false) (hb : isFinite b = true) (h0 : isZero b = false) :
    isNaN (mul a b) = false := by
  rcases isFinite_or_isInf ha with h | h
  · exact (mul_rounds h hb).isNaN
  · rw [eq_inf h, inf_mul _ (isNaN_of_isFinite hb) h0]; exact isNaN_inf _

/-- A quotient by a finite value other than 0 is not a NaN. -/
theorem isNaN_div {a b : F32} (ha : isNaN a = false) (hb : isFinite b = true) (h0 : toInt b ≠ 0) :
    isNaN (div a b) = false := by
  rcases isFinite_or_isInf ha with h | h
  · exact (div_rounds h hb h0).isNaN
  · rw [eq_inf h, inf_div _ hb]; exact isNaN_inf _

/-- A value that is not negative is finite and at least 0, or the positive infinity. -/
theorem nonneg_cases {a : F32} (h : Machine.nonneg a = true) : (isFinite a = true ∧ 0 ≤ toInt a) ∨ a = inf false := by
  obtain ⟨hn, h0⟩ := (nonneg_iff a).mp h
  rcases isFinite_or_isInf hn with hf | hi
  · exact .inl ⟨hf, rank_of_isFinite hf ▸ h0⟩
  · rw [rank_of_isInf hi] at h0
    split at h0
    · exact absurd h0 (by have := top_pos; omega)
    · right; rw [eq_inf hi]; congr; simpa using ‹¬sign a = true›

theorem nonneg_inf : Machine.nonneg (inf false) = true := by decide

theorem nonneg_of_isFinite {a : F32} (hf : isFinite a = true) (h : 0 ≤ toInt a) : Machine.nonneg a = true :=
  (nonneg_iff a).mpr ⟨isNaN_of_isFinite hf, by rwa [rank_of_isFinite hf]⟩

theorem nonneg_add {a b : F32} (ha : Machine.nonneg a = true) (hb : Machine.nonneg b = true) :
    Machine.nonneg (add a b) = true := by
  rcases nonneg_cases ha with ⟨fa, ha⟩ | rfl <;> rcases nonneg_cases hb with ⟨fb, hb⟩ | rfl
  · exact (add_rounds fa fb).nonneg (by decide) (by omega)
  · rw [add_inf_right _ fa]; exact nonneg_inf
  · rw [add_inf _ fb]; exact nonneg_inf
  · rw [add_inf_self]; exact nonneg_inf

/-- A square is not negative (`P_SQ`). -/
theorem nonneg_mul_self {a : F32} (ha : isNaN a = false) : Machine.nonneg (mul a a) = true := by
  rcases isFinite_or_isInf ha with h | h
  · exact (mul_rounds h h).nonneg (by positivity) (mul_self_nonneg _)
  · rw [eq_inf h, inf_mul _ (isNaN_inf _) (isZero_inf _), sign_inf, bne_self_eq_false]; exact nonneg_inf

theorem nonneg_abs {a : F32} (ha : isNaN a = false) : Machine.nonneg (abs a) = true :=
  (nonneg_iff _).mpr ⟨(isNaN_abs a).trans ha, by rw [rank_abs]; exact abs_nonneg _⟩

theorem nonneg_max {a b : F32} (ha : Machine.nonneg a = true) (hb : Machine.nonneg b = true) :
    Machine.nonneg (max a b) = true := by
  rcases (max_spec ((nonneg_iff a).mp ha).1 ((nonneg_iff b).mp hb).1).1 with e | e <;> rw [e] <;> assumption

/-- Of a value that is not negative, by a positive finite one. -/
theorem nonneg_div {a b : F32} (ha : Machine.nonneg a = true) (hb : isFinite b = true) (h0 : 0 < toInt b) :
    Machine.nonneg (div a b) = true := by
  rcases nonneg_cases ha with ⟨fa, ha⟩ | rfl
  · refine (div_rounds fa hb h0.ne').nonneg (by omega) ?_
    rw [Int.sign_eq_one_of_pos h0]; positivity
  · rw [inf_div _ hb, sign_of_toInt_pos h0]; exact nonneg_inf

/-! ## The square root -/

/-- The bits of a root, taken from the top, give the integer root. -/
theorem isqrtFrom_eq (n bits r : Nat) (lo : r ^ 2 ≤ n) (hi : n < (r + 2 ^ bits) ^ 2) : isqrtFrom n bits r = Nat.sqrt n := by
  induction bits generalizing r with
  | zero =>
    rw [isqrtFrom, Nat.eq_sqrt']
    exact ⟨lo, by simpa using hi⟩
  | succ k ih =>
    rw [isqrtFrom]
    split
    · rename_i h
      exact ih _ h (by rwa [add_assoc, ← two_mul, ← pow_succ'])
    · rename_i h
      exact ih _ lo (by omega)

/-- The root of the operand scaled by 2^298, in quarters of a quantum, with the sticky unit of an inexact root. -/
def rootQuarters (a : F32) : Nat :=
  let n := mag a * one * 2 ^ 2
  2 * Nat.sqrt n + (if Nat.sqrt n * Nat.sqrt n = n then 0 else 1)

/-- It is at most twice any integer whose square is not below the scaled operand. -/
theorem rootQuarters_le {a : F32} {k : Nat} (h : mag a * one * 2 ^ 2 ≤ k * k) : rootQuarters a ≤ 2 * k := by
  unfold rootQuarters
  generalize mag a * one * 2 ^ 2 = n at h
  have hk : Nat.sqrt n ≤ k := (Nat.sqrt_le_sqrt h).trans_eq (Nat.sqrt_eq k)
  simp only
  split
  · omega
  · rename_i hne
    have hlt : Nat.sqrt n < k := by
      refine lt_of_le_of_ne hk fun e => hne ?_
      have := Nat.sqrt_le n
      rw [e] at this ⊢
      omega
    omega

theorem scaled_lt {a : F32} (hf : isFinite a = true) : mag a * one * 2 ^ 2 < 2 ^ 214 * 2 ^ 214 := by
  have h := Nat.mul_lt_mul_of_pos_right (mag_lt a hf) (show 0 < one * 2 ^ 2 by positivity)
  rw [← mul_assoc] at h
  refine h.trans_eq ?_
  rw [← pow_add, ← pow_add, ← pow_add, ← pow_add]

theorem isqrtFrom_scaled {a : F32} (hf : isFinite a = true) :
    isqrtFrom (mag a * one * 2 ^ 2) 215 0 = Nat.sqrt (mag a * one * 2 ^ 2) := by
  have h := scaled_lt hf
  generalize mag a * one * 2 ^ 2 = n at h
  refine isqrtFrom_eq n 215 0 (Nat.zero_le _) (h.trans_le ?_)
  rw [zero_add, sq]
  exact Nat.mul_le_mul (Nat.pow_le_pow_right (by decide) (by decide)) (Nat.pow_le_pow_right (by decide) (by decide))

theorem sqrt_eq {a : F32} (hf : isFinite a = true) (hp : 0 < toInt a) :
    sqrt a = pack false (roundMag (rootQuarters a) (2 ^ 2)) := by
  have hzero : isZero a = false := by
    rw [← Bool.not_eq_true]; exact fun h => hp.ne' (toInt_of_isZero h)
  have hn := isqrtFrom_scaled hf
  unfold sqrt rootQuarters
  rw [isNaN_of_isFinite hf, hzero, sign_of_toInt_pos hp, isInf_of_isFinite hf]
  generalize mag a * one * 2 ^ 2 = n at hn
  simp only [Bool.false_eq_true, if_false, hn]

theorem sqrt_of_isZero {a : F32} (h : isZero a = true) : sqrt a = a := by
  simp only [sqrt, isNaN_of_isFinite (isFinite_of_isZero h), h, Bool.false_eq_true, if_false, if_true]

/-- A zero is the image 0 with a sign. -/
theorem eq_pack_zero {a : F32} (h : isZero a = true) : a = pack (sign a) 0 := by
  have hm := ((isZero_iff a).mp h).2
  rw [mag_eq] at hm
  exact eq_pack_of rfl (magImg_strictMono.injective (hm.trans (by decide)))

theorem sqrt_rounds {a : F32} (hf : isFinite a = true) (h0 : 0 ≤ toInt a) : Rounds (rootQuarters a) (2 ^ 2) (sqrt a) := by
  rcases h0.eq_or_lt with hz | hp
  · have hzero := isZero_of_toInt hf hz.symm
    have hroot : rootQuarters a = 0 :=
      Nat.le_zero.mp (rootQuarters_le (k := 0) (by rw [((isZero_iff a).mp hzero).2, Nat.zero_mul, Nat.zero_mul]))
    rw [hroot, sqrt_of_isZero hzero]
    exact ⟨sign a, ⟨fun h => absurd h (by decide), fun h => absurd h (by decide)⟩, by
      rw [Nat.cast_zero, Int.natAbs_zero, roundMag_zero _ (by decide)]; exact eq_pack_zero hzero⟩
  · exact ⟨false, ⟨fun h => absurd h (by omega), fun _ => rfl⟩, by rw [Int.natAbs_natCast]; exact sqrt_eq hf hp⟩

theorem isFinite_sqrt {a : F32} (hf : isFinite a = true) (h0 : 0 ≤ toInt a) : isFinite (sqrt a) = true := by
  refine (sqrt_rounds hf h0).isFinite (by decide) ?_
  rw [Int.natAbs_natCast]
  refine (rootQuarters_le (scaled_lt hf).le).trans_lt ?_
  decide

theorem toInt_sqrt_nonneg {a : F32} (hf : isFinite a = true) (h0 : 0 ≤ toInt a) : 0 ≤ toInt (sqrt a) := by
  rw [← rank_of_isFinite (isFinite_sqrt hf h0)]
  exact (sqrt_rounds hf h0).rank_nonneg (by decide) (by omega)

theorem nonneg_sqrt {a : F32} (ha : Machine.nonneg a = true) : Machine.nonneg (sqrt a) = true := by
  rcases nonneg_cases ha with ⟨hf, h0⟩ | rfl
  · exact nonneg_of_isFinite (isFinite_sqrt hf h0) (toInt_sqrt_nonneg hf h0)
  · exact (by decide : Machine.nonneg (sqrt (inf false)) = true)

/-- The root of a value in [0, 1] lies in [0, 1]. -/
theorem inUnit_sqrt {a : F32} (ha : inUnit a = true) : inUnit (sqrt a) = true := by
  obtain ⟨hf, h0, h1⟩ := (inUnit_iff a).mp ha
  have hr := sqrt_rounds hf h0
  have hroot : rootQuarters a ≤ 2 * (2 * one) := rootQuarters_le (by
    have hm : mag a ≤ one := by rw [← natAbs_toInt]; omega
    calc mag a * one * 2 ^ 2 ≤ one * one * 2 ^ 2 := by gcongr
      _ = 2 * one * (2 * one) := by ring)
  have := hr.between (by decide) (lo := 0#32) (hi := 0x3F800000#32) (by decide) (by decide)
    (by rw [toInt_zero]; omega) (by
      rw [toInt_one]; push_cast
      calc (rootQuarters a : Int) ≤ ((2 * (2 * one) : Nat) : Int) := by exact_mod_cast hroot
        _ = 2 ^ 149 * 2 ^ 2 := by push_cast)
  rw [toInt_one, toInt_zero] at this
  exact (inUnit_iff _).mpr this

end Sys2Proof.NumF32

/-! The logarithms, the clamp, the filter and the two levels of a band. -/

namespace Sys2Proof.NumF32

/-! ## The logarithms (R200, R206) -/

theorem ofFix_rounds (z : Int) : Rounds z (2 ^ 11) (ofFix z) := ⟨_, signOf_decide z, rfl⟩

/-- The logarithm of a finite positive value is small. -/
theorem abs_log_le {a : F32} (hf : isFinite a = true) (hm : 0 < mag a) : |Real.log ((mag a : ℝ) / 2 ^ 149)| ≤ 149 := by
  have h2 := Real.log_two_lt_d9
  have h2' := Real.log_two_gt_d9
  have hmr : (1 : ℝ) ≤ mag a := by exact_mod_cast hm
  have hlt : (mag a : ℝ) < 2 ^ 24 * 2 ^ 253 := by exact_mod_cast mag_lt a hf
  have u : Real.log (mag a) ≤ 277 * Real.log 2 := by
    have := Real.log_le_log (by linarith) hlt.le
    rw [← pow_add, Real.log_pow] at this
    exact_mod_cast this
  have l : 0 ≤ Real.log (mag a) := Real.log_nonneg hmr
  rw [Real.log_div (by linarith) (by positivity), Real.log_pow, abs_le]
  push_cast
  constructor <;> linarith

/-- A number in fixed point that is near a small real one is rounded to a finite value. -/
theorem isFinite_ofFix {z : Int} {x : ℝ} (hz : |(z : ℝ) / fix - x| ≤ 1) (hx : |x| ≤ 149) : isFinite (ofFix z) = true := by
  refine (ofFix_rounds z).isFinite (by decide) ?_
  have hr : |(z : ℝ)| ≤ 150 * fix := by
    have hpos : (0 : ℝ) < (fix : ℝ) := by positivity
    have : |(z : ℝ) / fix| ≤ 150 := by
      calc |(z : ℝ) / fix| = |((z : ℝ) / fix - x) + x| := by ring_nf
        _ ≤ _ := (abs_add_le _ _).trans (by linarith)
    rwa [abs_div, abs_of_pos hpos, div_le_iff₀ hpos] at this
  have hn : z.natAbs ≤ 150 * fix := by
    have : (z.natAbs : ℝ) ≤ ((150 * fix : Nat) : ℝ) := by
      rw [Nat.cast_natAbs, Int.cast_abs, Nat.cast_mul]; exact_mod_cast hr
    exact_mod_cast this
  exact hn.trans_lt (by decide)

theorem isFinite_ln {a : F32} (hf : isFinite a = true) (hp : 0 < toInt a) : isFinite (ln a) = true := by
  have hm : 0 < mag a := by rw [← natAbs_toInt]; omega
  have hz : isZero a = false := isZero_of_pos hp
  rw [ln, isNaN_of_isFinite hf, hz, sign_of_toInt_pos hp, isInf_of_isFinite hf]
  exact isFinite_ofFix ((lnRef_close hf hm).trans (by norm_num)) (abs_log_le hf hm)

theorem isFinite_ofFix_log10Ref {a : F32} (hf : isFinite a = true) (hm : 0 < mag a) :
    isFinite (ofFix (log10Ref a)) = true := by
  refine isFinite_ofFix ((log10Ref_close hf hm).trans (by norm_num)) ?_
  have hl := abs_log_le hf hm
  have h10 : (1 : ℝ) ≤ Real.log 10 := by
    have h2 := Real.log_two_gt_d9
    have : Real.log (2 ^ 3) ≤ Real.log 10 := Real.log_le_log (by norm_num) (by norm_num)
    rw [Real.log_pow] at this
    push_cast at this; linarith
  rw [Real.logb, abs_div, abs_of_nonneg (by linarith : 0 ≤ Real.log 10)]
  exact (div_le_self (abs_nonneg _) h10).trans hl

theorem isFinite_log10Answer {a : F32} (hf : isFinite a = true) (hm : 0 < mag a) : isFinite (log10Answer a) = true := by
  unfold log10Answer
  split
  · rename_i h
    simp only [log10Admits, Bool.and_eq_true] at h
    exact h.1
  · exact isFinite_ofFix_log10Ref hf hm

/-- Of a finite positive value `log10` is the arithmetic's answer, or −3 where that would break `P_DBFLOOR` (R18). -/
theorem log10_eq {a : F32} (hf : isFinite a = true) (hp : 0 < toInt a) :
    log10 a = if decide (1000 * mag a ≤ one) && !atMostMinusThree (log10Answer a) then minusThree else log10Answer a := by
  have hz : isZero a = false := isZero_of_pos hp
  rw [log10, isNaN_of_isFinite hf, hz, sign_of_toInt_pos hp, isInf_of_isFinite hf]
  rfl

theorem isFinite_log10 {a : F32} (hf : isFinite a = true) (hp : 0 < toInt a) : isFinite (log10 a) = true := by
  have hm : 0 < mag a := by rw [← natAbs_toInt]; omega
  rw [log10_eq hf hp]
  split
  · decide
  · exact isFinite_log10Answer hf hm

theorem log10_of_isZero {a : F32} (h : isZero a = true) : log10 a = inf true := by
  rw [log10, isNaN_of_isFinite (isFinite_of_isZero h), h]; rfl

/-- The logarithm of a value that is not negative is not a NaN. -/
theorem isNaN_log10 {a : F32} (ha : Machine.nonneg a = true) : isNaN (log10 a) = false := by
  rcases nonneg_cases ha with ⟨hf, h0⟩ | rfl
  · rcases h0.eq_or_lt with hz | hp
    · rw [log10_of_isZero (isZero_of_toInt hf hz.symm)]; exact isNaN_inf true
    · exact isNaN_of_isFinite (isFinite_log10 hf hp)
  · exact (by decide : isNaN (log10 (inf false)) = false)

/-- Up to 0.001 the logarithm is at most −3 (`P_DBFLOOR`). -/
theorem rank_log10_le {a : F32} (hf : isFinite a = true) (h0 : 0 ≤ toInt a) (h : 1000 * toInt a ≤ (2 ^ 149 : Nat)) :
    rank (log10 a) ≤ toInt minusThree := by
  rcases h0.eq_or_lt with hz | hp
  · rw [log10_of_isZero (isZero_of_toInt hf hz.symm), rank_inf, if_pos rfl]
    exact (toInt_lt_top (by decide)).1.le
  · have hmag : decide (1000 * mag a ≤ one) = true := decide_eq_true (by rw [← natAbs_toInt]; show _ ≤ 2 ^ 149; omega)
    rw [rank_of_isFinite (isFinite_log10 hf hp), log10_eq hf hp, hmag]
    cases hb : atMostMinusThree (log10Answer a) with
    | false => exact le_rfl
    | true =>
      simp only [atMostMinusThree, Bool.and_eq_true, decide_eq_true_eq] at hb
      exact hb.2

end Sys2Proof.NumF32

namespace Sys2Proof

open NumF32 Machine

/-! ## The clamp (R16, `P_CLAMP`) -/

theorem clamp01_eq (x : F32) : dataF32.clamp01 x = NumF32.min (NumF32.max x 0#32) 0x3F800000#32 := by
  rw [DataPath.clamp01, dataF32_zero, dataF32_one]; rfl

theorem clamp01_spec {x : F32} (hx : isNaN x = false) :
    isNaN (dataF32.clamp01 x) = false ∧ rank (dataF32.clamp01 x) = Min.min (Max.max (rank x) 0) one := by
  have hmax := max_spec (a := x) (b := 0#32) hx (by decide)
  have hn := isNaN_max (a := x) (b := 0#32) hx (by decide)
  have hmin := min_spec (b := 0x3F800000#32) hn (by decide)
  rw [clamp01_eq]
  refine ⟨isNaN_min hn (by decide), ?_⟩
  rw [hmin.2, hmax.2, rank_of_isFinite (a := 0#32) (by decide), rank_of_isFinite (a := 0x3F800000#32) (by decide), toInt_zero,
    toInt_one]

theorem inUnit_clamp01 {x : F32} (hx : isNaN x = false) : inUnit (dataF32.clamp01 x) = true := by
  obtain ⟨hn, hr⟩ := clamp01_spec hx
  have h1 : (0 : Int) ≤ one := by positivity
  exact (inUnit_iff_rank hn).mpr ⟨by rw [hr]; omega, by rw [hr]; omega⟩

/-- What is not above 0 is clamped to 0. -/
theorem isZero_clamp01 {x : F32} (hx : isNaN x = false) (h : rank x ≤ 0) : isZero (dataF32.clamp01 x) = true := by
  obtain ⟨hn, hr⟩ := clamp01_spec hx
  obtain ⟨hf, -, -⟩ := (inUnit_iff _).mp (inUnit_clamp01 hx)
  have h1 : (0 : Int) ≤ one := by positivity
  rw [rank_of_isFinite hf] at hr
  exact isZero_of_toInt hf (by rw [hr]; omega)

/-! ## The two levels of a band (R205 to R207) -/

theorem linearLevel_inUnit {m : F32} (hm : isNaN m = false) : inUnit (dataF32.linearLevel m) = true := by
  have h1 : isNaN (NumF32.mul m 0x3E4CCCCD#32) = false := isNaN_mul_right hm (by decide) (by decide)
  exact inUnit_clamp01 (isNaN_mul_right h1 (by decide) (by decide))

/-- The argument of the clamp in the dB window, from the logarithm. -/
def dbRatio (l : F32) : F32 := NumF32.div (NumF32.add (NumF32.mul 0x41A00000#32 l) 0x42700000#32) 0x42700000#32

theorem dbOfAmplitude_eq (y : F32) : dataF32.dbOfAmplitude y = dataF32.clamp01 (dbRatio (NumF32.log10 y)) := by
  unfold DataPath.dbOfAmplitude
  rw [dataF32_ofInt, dataF32_twenty]
  rfl

theorem isNaN_dbRatio {l : F32} (hl : isNaN l = false) : isNaN (dbRatio l) = false :=
  isNaN_div (isNaN_add (isNaN_mul_left (by decide) (by decide) hl) (by decide)) (by decide) (by decide)

/-- An infinity that stands below a finite value is the negative one. -/
theorem eq_inf_true {a w : F32} (hi : isInf a = true) (hw : isFinite w = true) (h : rank a ≤ toInt w) : a = inf true := by
  rw [rank_of_isInf hi] at h
  rw [eq_inf hi]
  cases hs : sign a with
  | true => rfl
  | false =>
    rw [hs] at h
    exact absurd (toInt_lt_top hw).2 (not_lt.mpr h)

theorem rank_inf_true_le {w : F32} (hw : isFinite w = true) : rank (inf true) ≤ toInt w := by
  rw [rank_inf]; exact (toInt_lt_top hw).1.le

/-- Each operation of the window keeps an upper bound. -/
theorem rank_mul_le {c l u w : F32} (hc : isFinite c = true) (hpos : 0 < toInt c) (hl : isNaN l = false)
    (hu : isFinite u = true) (hw : isFinite w = true) (h : rank l ≤ toInt u) (hcw : toInt c * toInt u ≤ toInt w * one) :
    rank (NumF32.mul c l) ≤ toInt w := by
  rcases isFinite_or_isInf hl with hf | hi
  · rw [rank_of_isFinite hf] at h
    exact (mul_rounds hc hf).rank_le (by positivity) hw ((mul_le_mul_of_nonneg_left h hpos.le).trans hcw)
  · have h0 : isZero c = false := isZero_of_pos hpos
    rw [eq_inf_true hi hu h, mul_inf _ (isNaN_of_isFinite hc) h0, sign_of_toInt_pos hpos]
    exact rank_inf_true_le hw

theorem rank_add_le {c l u w : F32} (hc : isFinite c = true) (hl : isNaN l = false) (hu : isFinite u = true)
    (hw : isFinite w = true) (h : rank l ≤ toInt u) (hcw : toInt u + toInt c ≤ toInt w) : rank (NumF32.add l c) ≤ toInt w := by
  rcases isFinite_or_isInf hl with hf | hi
  · rw [rank_of_isFinite hf] at h
    exact (add_rounds hf hc).rank_le (by decide) hw (by rw [Nat.cast_one]; omega)
  · rw [eq_inf_true hi hu h, add_inf _ hc]
    exact rank_inf_true_le hw

theorem rank_div_nonpos {c l : F32} (hc : isFinite c = true) (hpos : 0 < toInt c) (hl : isNaN l = false)
    (h : rank l ≤ 0) : rank (NumF32.div l c) ≤ 0 := by
  rcases isFinite_or_isInf hl with hf | hi
  · rw [rank_of_isFinite hf] at h
    refine (div_rounds hf hc hpos.ne').rank_nonpos (by omega) ?_
    rw [Int.sign_eq_one_of_pos hpos, mul_one]
    exact mul_nonpos_of_nonpos_of_nonneg h (by positivity)
  · rw [eq_inf_true hi (w := 0#32) (by decide) (by rwa [toInt_zero]), inf_div _ hc, sign_of_toInt_pos hpos]
    exact rank_inf_true_le (w := 0#32) (by decide)

/-- A logarithm of at most −3 is not above the window's floor of −60 dB (R207). -/
theorem rank_dbRatio_le {l : F32} (hl : isNaN l = false) (h : rank l ≤ toInt minusThree) : rank (dbRatio l) ≤ 0 := by
  have h1 : rank (NumF32.mul 0x41A00000#32 l) ≤ toInt 0xC2700000#32 :=
    rank_mul_le (by decide) (by decide) hl (by decide) (by decide) h (by decide)
  have n1 := isNaN_mul_left (a := 0x41A00000#32) (by decide) (by decide) hl
  have h2 : rank (NumF32.add (NumF32.mul 0x41A00000#32 l) 0x42700000#32) ≤ toInt 0#32 :=
    rank_add_le (by decide) n1 (by decide) (by decide) h1 (by decide)
  exact rank_div_nonpos (by decide) (by decide) (isNaN_add n1 (by decide)) (by rwa [toInt_zero] at h2)

/-- A product with a positive factor is not negative. -/
theorem nonneg_mul {a b : F32} (ha : nonneg a = true) (hb : isFinite b = true) (h0 : 0 < toInt b) :
    nonneg (NumF32.mul a b) = true := by
  rcases nonneg_cases ha with ⟨hf, h⟩ | rfl
  · exact (mul_rounds hf hb).nonneg (by positivity) (mul_nonneg h h0.le)
  · have hz : isZero b = false := isZero_of_pos h0
    rw [inf_mul _ (isNaN_of_isFinite hb) hz, sign_of_toInt_pos h0]
    exact nonneg_inf

theorem dbLevel_inUnit {m : F32} (hm : isNaN m = false) : inUnit (dataF32.dbLevel m) = true := by
  unfold DataPath.dbLevel
  split
  · rename_i h
    rw [dataF32_lt, dataF32_zero, lt_iff (by decide) hm, rank_of_isFinite (a := 0#32) (by decide), toInt_zero] at h
    rw [dbOfAmplitude_eq]
    exact inUnit_clamp01 (isNaN_dbRatio (isNaN_log10 (nonneg_mul ((nonneg_iff m).mpr ⟨hm, h.le⟩) (by decide) (by decide))))
  · rw [dataF32_zero]; decide

/-! ## The filter (R221, `P_CONVEX`) -/

theorem smooth_eq (new previous : F32) : dataF32.smooth new previous
    = NumF32.add (NumF32.mul 0x3F19999A#32 new) (NumF32.mul 0x3ECCCCCC#32 previous) := by
  rw [DataPath.smooth, dataF32_one, dataF32_alpha, dataF32_sub, dataF32_beta]; rfl

/-- A product with a value in [0, 1] lies between 0 and the other factor. -/
theorem mul_inUnit_le {c v : F32} (hc : isFinite c = true) (h0 : 0 ≤ toInt c) (hv : inUnit v = true) :
    isFinite (NumF32.mul c v) = true ∧ 0 ≤ toInt (NumF32.mul c v) ∧ toInt (NumF32.mul c v) ≤ toInt c := by
  obtain ⟨hf, hv0, hv1⟩ := (inUnit_iff v).mp hv
  have := (mul_rounds hc hf).between (lo := 0#32) (hi := c) (by positivity) (by decide) hc
    (by rw [toInt_zero, zero_mul]; exact mul_nonneg h0 hv0) (mul_le_mul_of_nonneg_left hv1 h0)
  rwa [toInt_zero] at this

theorem smooth_inUnit {new previous : F32} (hn : inUnit new = true) (hp : inUnit previous = true) :
    inUnit (dataF32.smooth new previous) = true := by
  obtain ⟨fa, a0, a1⟩ := mul_inUnit_le (c := 0x3F19999A#32) (by decide) (by decide) hn
  obtain ⟨fb, b0, b1⟩ := mul_inUnit_le (c := 0x3ECCCCCC#32) (by decide) (by decide) hp
  have hsum : toInt 0x3F19999A#32 + toInt 0x3ECCCCCC#32 = one := by decide
  have := (add_rounds fa fb).between (lo := 0#32) (hi := 0x3F800000#32) (by decide) (by decide) (by decide)
    (by rw [toInt_zero, Nat.cast_one]; omega) (by rw [toInt_one, Nat.cast_one]; omega)
  rw [toInt_zero, toInt_one] at this
  rw [smooth_eq]
  exact (inUnit_iff _).mpr this

/-- Settles O41: each product stays below its own coefficient, and the two coefficients sum to 1 exactly. -/
theorem smoothingKeepsTheUnitInterval : Obligations.SmoothingKeepsTheUnitInterval :=
  fun _ _ hn hp => smooth_inUnit hn hp

/-- Settles O42: what reaches the clamp is not a NaN. -/
theorem bandLevelsLieInTheUnitInterval : Obligations.BandLevelsLieInTheUnitInterval :=
  fun _ hm => ⟨linearLevel_inUnit hm, dbLevel_inUnit hm⟩

/-- Settles O43: the logarithm is at most −3, so that what reaches the clamp is not above 0. -/
theorem amplitudesUpToTheFloorGiveZero : Obligations.AmplitudesUpToTheFloorGiveZero := by
  intro y hf h0 h
  have hl := isNaN_log10 (nonneg_of_isFinite hf h0)
  rw [dbOfAmplitude_eq]
  exact isZero_clamp01 (isNaN_dbRatio hl) (rank_dbRatio_le hl (rank_log10_le hf h0 h))

end Sys2Proof

/-! The elementary operations are one rounding (R17 c, D8): nearest, ties to even, and the infinity beyond the range. -/

namespace Sys2Proof.NumF32

open Machine

/-! ## The logarithms against the real ones -/

/-- A finite result errs by at most 2^−24 of the exact number, and half a quantum. -/
theorem Rounds.error {num : Int} {den : Nat} {v : F32} (h : Rounds num den v) (hd : 0 < den) (hf : NumF32.isFinite v = true) :
    (toInt v * den - num).natAbs * 2 ^ 24 ≤ num.natAbs + 2 ^ 23 * den := by
  have hlt : num.natAbs < overflowBound * den := by
    by_contra hc
    rw [(h.keeps hd).2 (not_lt.mp hc), isFinite_inf] at hf
    cases hf
  obtain ⟨neg, hs, rfl⟩ := h
  rw [toInt_pack_dist hs (roundMag_lt_two_pow _ _), roundMag_eq_roundWide hd hlt]
  exact roundWide_error _ _ hd

/-- The distance of a value from a number in fixed point. -/
theorem fix_distance (t z : Int) :
    |(t : ℝ) / 2 ^ 149 - (z : ℝ) / fix| = ((t * (2 ^ 11 : Nat) - z).natAbs : ℝ) / fix := by
  have hfix : (0 : ℝ) < (fix : Nat) := by positivity
  have e : (t : ℝ) / 2 ^ 149 - z / fix = ((t * (2 ^ 11 : Nat) - z : Int) : ℝ) / fix := by push_cast; ring
  rw [e, abs_div, abs_of_pos hfix, Nat.cast_natAbs, Int.cast_abs]

/-- Rounding a number in fixed point errs by 2^−24 of it, and far less than the fixed point itself does. -/
theorem ofFix_close {z : Int} (hf : isFinite (ofFix z) = true) :
    |(toInt (ofFix z) : ℝ) / 2 ^ 149 - (z : ℝ) / fix| ≤ |(z : ℝ) / fix| / 2 ^ 24 + 1 / 2 ^ 150 := by
  have herr := (ofFix_rounds z).error (by decide) hf
  rw [fix_distance]
  generalize (toInt (ofFix z) * (2 ^ 11 : Nat) - z).natAbs = d at herr
  have hr : (d : ℝ) * 2 ^ 24 ≤ |(z : ℝ)| + 2 ^ 34 := by
    have : ((d * 2 ^ 24 : Nat) : ℝ) ≤ ((z.natAbs + 2 ^ 23 * 2 ^ 11 : Nat) : ℝ) := by exact_mod_cast herr
    rw [Nat.cast_add, Nat.cast_natAbs, Int.cast_abs] at this
    norm_num at this ⊢
    exact this
  have hfix : (0 : ℝ) < (fix : Nat) := by positivity
  rw [abs_div, abs_of_pos hfix]
  calc (d : ℝ) / fix = d * 2 ^ 24 / (fix * 2 ^ 24) := (mul_div_mul_right _ _ (by positivity)).symm
    _ ≤ (|(z : ℝ)| + 2 ^ 34) / (fix * 2 ^ 24) := by gcongr
    _ = |(z : ℝ)| / fix / 2 ^ 24 + 1 / 2 ^ 150 := by push_cast; ring

/-- What is near a number in fixed point that is near a real one is near the real one. -/
theorem close_of_fix {z : Int} {x v e : ℝ} (hz : |(z : ℝ) / fix - x| ≤ 1 / 2 ^ 120)
    (hv : |v - (z : ℝ) / fix| ≤ (e + |(z : ℝ) / fix|) / 2 ^ 24 + 1 / 2 ^ 150) :
    |v - x| ≤ (e + |x|) / 2 ^ 24 + 1 / 2 ^ 100 := by
  have h1 : |(z : ℝ) / fix| ≤ |x| + 1 / 2 ^ 120 := by
    have := abs_add_le ((z : ℝ) / fix - x) x
    rw [sub_add_cancel] at this
    linarith
  have h2 := abs_sub_le v ((z : ℝ) / fix) x
  have n : (1 : ℝ) / 2 ^ 120 / 2 ^ 24 + 1 / 2 ^ 150 + 1 / 2 ^ 120 ≤ 1 / 2 ^ 100 := by norm_num
  have h3 : (e + |(z : ℝ) / fix|) / 2 ^ 24 ≤ (e + |x| + 1 / 2 ^ 120) / 2 ^ 24 :=
    div_le_div_of_nonneg_right (by linarith) (by positivity)
  rw [add_div] at h3
  linarith

theorem ofImage_of_pos {a : F32} (hp : 0 < toInt a) : NumReal.ofImage a = (mag a : ℝ) / 2 ^ 149 := by
  have : toInt a = mag a := by rw [← natAbs_toInt]; omega
  rw [NumReal.ofImage, this, Int.cast_natCast]

theorem ln_eq {a : F32} (hf : isFinite a = true) (hp : 0 < toInt a) : ln a = ofFix (lnRef a) := by
  have hz : isZero a = false := isZero_of_pos hp
  rw [ln, isNaN_of_isFinite hf, hz, sign_of_toInt_pos hp, isInf_of_isFinite hf]
  rfl

theorem ln_close {a : F32} (hf : isFinite a = true) (hp : 0 < toInt a) :
    |(toInt (ln a) : ℝ) / 2 ^ 149 - Real.log (NumReal.ofImage a)| ≤ |Real.log (NumReal.ofImage a)| / 2 ^ 24 + 1 / 2 ^ 100 := by
  have hm : 0 < mag a := by rw [← natAbs_toInt]; omega
  have hz := (lnRef_close hf hm).trans (b := _) (c := 1 / 2 ^ 120) (by norm_num)
  have hfin := isFinite_ln hf hp
  rw [ln_eq hf hp] at hfin ⊢
  rw [ofImage_of_pos hp]
  have := close_of_fix (e := 0) hz (by rw [zero_add]; exact ofFix_close hfin)
  rwa [zero_add] at this

/-- An answer within the open accuracy of a number in fixed point. -/
theorem admitted_close {t z : Int} {acc : Nat} (h : (t * 2 ^ 11 - z).natAbs ≤ acc * 2 ^ 136) :
    |(t : ℝ) / 2 ^ 149 - (z : ℝ) / fix| ≤ (acc + |(z : ℝ) / fix|) / 2 ^ 24 + 1 / 2 ^ 150 := by
  have hr : ((t * (2 ^ 11 : Nat) - z).natAbs : ℝ) ≤ ((acc * 2 ^ 136 : Nat) : ℝ) := by exact_mod_cast h
  have hz : 0 ≤ |(z : ℝ) / fix| := abs_nonneg _
  rw [fix_distance]
  calc ((t * (2 ^ 11 : Nat) - z).natAbs : ℝ) / fix ≤ ((acc * 2 ^ 136 : Nat) : ℝ) / fix := by gcongr
    _ = acc / 2 ^ 24 := by push_cast; ring
    _ ≤ (acc + |(z : ℝ) / fix|) / 2 ^ 24 := div_le_div_of_nonneg_right (by linarith) (by positivity)
    _ ≤ (acc + |(z : ℝ) / fix|) / 2 ^ 24 + 1 / 2 ^ 150 := le_add_of_nonneg_right (by positivity)

theorem log10_close {a : F32} (hf : isFinite a = true) (h : 2 ^ 149 < 1000 * toInt a) :
    |(toInt (log10 a) : ℝ) / 2 ^ 149 - Real.logb 10 (NumReal.ofImage a)|
      ≤ (Config.log10Accuracy + |Real.logb 10 (NumReal.ofImage a)|) / 2 ^ 24 + 1 / 2 ^ 100 := by
  have hp : 0 < toInt a := by omega
  have hm : 0 < mag a := by rw [← natAbs_toInt]; omega
  have hmag : decide (1000 * mag a ≤ one) = false := decide_eq_false (by rw [← natAbs_toInt]; show ¬ _ ≤ 2 ^ 149; omega)
  have hans : log10 a = log10Answer a := by rw [log10_eq hf hp, hmag]; rfl
  rw [ofImage_of_pos hp, hans]
  refine close_of_fix (log10Ref_close hf hm) ?_
  unfold log10Answer
  split
  · rename_i hadm
    simp only [log10Admits, Bool.and_eq_true, decide_eq_true_eq] at hadm
    exact admitted_close hadm.2
  · refine (ofFix_close (isFinite_ofFix_log10Ref hf hm)).trans ?_
    gcongr
    have : (0 : ℝ) ≤ Config.log10Accuracy := by positivity
    linarith

end Sys2Proof.NumF32

namespace Sys2Proof

open NumF32 Machine

/-- Settles O38: each operation is one rounding of its exact ratio, and the logarithms round a fixed-point number. -/
theorem elementaryOperationsRoundToNearest : Obligations.ElementaryOperationsRoundToNearest := by
  refine ⟨fun a b ha hb => ⟨fun h => ?_, fun h => ?_, fun h => ?_, fun h0 h => ?_, ln_close ha, log10_close ha⟩, fun z h => ?_⟩
  · exact (add_rounds ha hb).nearest (by decide) (by rwa [mul_one])
  · exact (sub_rounds ha hb).nearest (by decide) (by rwa [mul_one])
  · exact (mul_rounds ha hb).nearest (by positivity) h
  · refine (div_rounds ha hb h0).nearest (by omega) ?_
    rwa [Int.natAbs_mul, Int.natAbs_mul, Int.natAbs_sign_of_ne_zero h0, mul_one, Int.natAbs_natCast]
  · exact (ofInt_rounds z).nearest (by decide) (by rwa [mul_one, Int.natAbs_mul, Int.natAbs_natCast])

end Sys2Proof

/-! The root against the real root, and the transform against the real sums (R17 c, R183). -/

namespace Sys2Proof.NumReal

/-- The recursion of the transform is the sum of R183: `quarter` quarter turns are added to every angle. -/
theorem dftSum_eq_sum {f : Nat} (hf : 0 < f) (k quarter n : Nat) (xs : List ℝ) :
    dftSum f k quarter n xs = ∑ j ∈ Finset.range xs.length,
      xs.getD j 0 * Real.cos (2 * Real.pi * k * (n + j : Nat) / f + quarter * Real.pi / 2) := by
  induction xs generalizing n with
  | nil => rfl
  | cons x rest ih =>
    have hfr : (f : ℝ) ≠ 0 := by exact_mod_cast hf.ne'
    have angle : 2 * Real.pi * ((4 * k * n + quarter * f : Nat) : ℝ) / ((4 * f : Nat) : ℝ)
        = 2 * Real.pi * k * (n + 0 : Nat) / f + quarter * Real.pi / 2 := by
      push_cast; field_simp; ring
    rw [dftSum, ih, List.length_cons, Finset.sum_range_succ', angle, add_comm]
    congr 1
    refine Finset.sum_congr rfl fun j _ => ?_
    rw [List.getD_cons_succ, show n + 1 + j = n + (j + 1) by ring]

/-- The sum is at most the sum of the magnitudes. -/
theorem abs_dftSum_le (f k quarter n : Nat) (xs : List ℝ) : |dftSum f k quarter n xs| ≤ (xs.map fun x => |x|).sum := by
  induction xs generalizing n with
  | nil => simp [dftSum]
  | cons x rest ih =>
    rw [dftSum, List.map_cons, List.sum_cons]
    refine (abs_add_le _ _).trans (add_le_add ?_ (ih _))
    rw [abs_mul]
    exact mul_le_of_le_one_right (abs_nonneg _) (Real.abs_cos_le_one _)

end Sys2Proof.NumReal

namespace Sys2Proof.NumF32

open Machine

/-! ## The root -/

/-- Twice the integer root, with its sticky unit, lies on the same side of every half integer as twice the real root. -/
theorem rootQuarters_cases (a : F32) :
    (4 * Real.sqrt ((mag a : ℝ) * 2 ^ 149) = rootQuarters a)
      ∨ (∃ r : Nat, rootQuarters a = 2 * r + 1 ∧ (2 * r : ℝ) < 4 * Real.sqrt ((mag a : ℝ) * 2 ^ 149)
          ∧ 4 * Real.sqrt ((mag a : ℝ) * 2 ^ 149) < 2 * r + 2) := by
  have hroot : 4 * Real.sqrt ((mag a : ℝ) * 2 ^ 149) = 2 * Real.sqrt ((mag a * one * 2 ^ 2 : Nat) : ℝ) := by
    have e : ((mag a * one * 2 ^ 2 : Nat) : ℝ) = 2 ^ 2 * ((mag a : ℝ) * 2 ^ 149) := by push_cast; ring
    rw [e, Real.sqrt_mul (show (0 : ℝ) ≤ 2 ^ 2 by positivity), Real.sqrt_sq (show (0 : ℝ) ≤ 2 by norm_num)]; ring
  rw [hroot]
  unfold rootQuarters
  generalize mag a * one * 2 ^ 2 = n
  have hlt := Real.real_sqrt_lt_nat_sqrt_succ (a := n)
  simp only
  split
  · rename_i h
    left
    have : Real.sqrt n = Nat.sqrt n := by
      conv_lhs => rw [← h, Nat.cast_mul]
      exact Real.sqrt_mul_self (by positivity)
    rw [this]; push_cast; ring
  · rename_i h
    right
    have hsq : Nat.sqrt n * Nat.sqrt n < n := lt_of_le_of_ne (Nat.sqrt_le n) h
    have hgt : (Nat.sqrt n : ℝ) < Real.sqrt n := Real.lt_sqrt_of_sq_lt (by rw [sq]; exact_mod_cast hsq)
    exact ⟨Nat.sqrt n, rfl, by linarith, by linarith⟩

/-- Of two numbers the one on the side of `x` of their middle is nearer. -/
theorem nearer_of_middle {v w x : ℝ} (h : (v < w ∧ 2 * x < v + w) ∨ (w < v ∧ v + w < 2 * x)) : |v - x| < |w - x| := by
  rcases h with ⟨h1, h2⟩ | ⟨h1, h2⟩
  · rw [abs_of_pos (by linarith : 0 < w - x), abs_lt]; constructor <;> linarith
  · rw [abs_of_neg (by linarith : w - x < 0), abs_lt]; constructor <;> linarith

/-- How far a value is from the rounded quarters. -/
def rootDistance (a : F32) (z : Int) : Nat := (z * (2 ^ 2 : Nat) - rootQuarters a).natAbs

/-- A value nearest the rounded quarters is nearest the real root, and at the same distance only of an exact one. -/
theorem nearest_root {a : F32} {v w : Int} (h : rootDistance a v ≤ rootDistance a w) :
    let off := fun z : Int => |(z : ℝ) - Real.sqrt ((mag a : ℝ) * 2 ^ 149)|
    off v ≤ off w ∧ (off w = off v → w ≠ v → rootDistance a w = rootDistance a v) := by
  intro off
  simp only [off]
  set x := Real.sqrt ((mag a : ℝ) * 2 ^ 149)
  rcases rootQuarters_cases a with hx | ⟨r, hr, lo, hi⟩
  · -- an exact root: the two distances are the same up to the unit
    have e : ∀ z : Int, |(z : ℝ) - x| = (rootDistance a z : ℝ) / 4 := by
      intro z
      have : (z : ℝ) - x = ((z * (2 ^ 2 : Nat) - rootQuarters a : Int) : ℝ) / 4 := by push_cast; linarith
      rw [this, abs_div, rootDistance, Nat.cast_natAbs, Int.cast_abs, abs_of_pos (by norm_num : (0 : ℝ) < 4)]
    rw [e, e]
    have h' : (rootDistance a v : ℝ) ≤ rootDistance a w := by exact_mod_cast h
    refine ⟨by linarith, fun heq _ => ?_⟩
    have : (rootDistance a w : ℝ) = rootDistance a v := by linarith
    exact_mod_cast this
  · -- an inexact root: no half integer lies between it and the rounded quarters
    rcases eq_or_ne w v with rfl | hne
    · exact ⟨le_rfl, fun _ _ => rfl⟩
    · have side : ((v : ℝ) < w ∧ 2 * x < v + w) ∨ ((w : ℝ) < v ∧ (v : ℝ) + w < 2 * x) := by
        rw [rootDistance, rootDistance, hr] at h
        rcases lt_or_gt_of_ne hne with hlt | hlt
        · have hmid : v + w ≤ r := by push_cast at h; omega
          have hmid' : (v : ℝ) + w ≤ r := by exact_mod_cast hmid
          exact .inr ⟨by exact_mod_cast hlt, by linarith⟩
        · have hmid : (r : Int) + 1 ≤ v + w := by push_cast at h; omega
          have hmid' : (r : ℝ) + 1 ≤ (v : ℝ) + w := by exact_mod_cast hmid
          exact .inl ⟨by exact_mod_cast hlt, by linarith⟩
      have hlt := nearer_of_middle side
      exact ⟨hlt.le, fun heq _ => absurd heq hlt.ne'⟩

/-! ## The transform -/

theorem cosTurn_mod (p q : Nat) : cosTurn (p % q) q = cosTurn p q := by unfold cosTurn; rw [Nat.mod_mod]

/-- An entry of the table of cosines. -/
theorem cosines_getD {f : Nat} (hf : 0 < f) (p : Nat) : (cosines f).getD (p % (4 * f)) 0 = cosTurn p (4 * f) := by
  have hlt : p % (4 * f) < 4 * f := Nat.mod_lt _ (by omega)
  simp [cosines, Array.getD, hlt, cosTurn_mod]

/-- The sum in fixed point is the real one to within 2^−60 of the magnitudes. -/
theorem dftSum_close {f : Nat} (hf : 0 < f) (k quarter n : Nat) (xs : List F32) :
    |(dftSum (cosines f) f k quarter n xs : ℝ) / fix - NumReal.dftSum f k quarter n (xs.map fun x => (toInt x : ℝ))|
      ≤ ((xs.map mag).sum : ℝ) / 2 ^ 60 := by
  induction xs generalizing n with
  | nil => simp [dftSum, NumReal.dftSum]
  | cons x rest ih =>
    have hc := cosTurn_close (4 * k * n + quarter * f) (4 * f) (by omega)
    have hx : |(toInt x : ℝ)| = mag x := by rw [← natAbs_toInt, Nat.cast_natAbs, Int.cast_abs]
    rw [dftSum, cosines_getD hf, List.map_cons, NumReal.dftSum, List.map_cons, List.sum_cons]
    set c : ℝ := Real.cos (2 * Real.pi * ((4 * k * n + quarter * f : Nat) : ℝ) / ((4 * f : Nat) : ℝ))
    have e : ∀ (z : Int) (D R : ℝ), ((toInt x : ℝ) * z + D) / fix - ((toInt x : ℝ) * c + R)
        = (toInt x : ℝ) * ((z : ℝ) / fix - c) + (D / fix - R) := fun z D R => by ring
    rw [Int.cast_add, Int.cast_mul, e]
    refine (abs_add_le _ _).trans ?_
    rw [abs_mul, hx, Nat.cast_add, add_div]
    refine add_le_add ?_ (ih (n + 1))
    calc (mag x : ℝ) * _ ≤ mag x * (1 / 2 ^ 60) := by gcongr
      _ = (mag x : ℝ) / 2 ^ 60 := by ring

theorem sum_abs_toInt (xs : List F32) :
    ((xs.map fun x => (toInt x : ℝ)).map fun x => |x|).sum = ((xs.map mag).sum : Nat) := by
  induction xs with
  | nil => simp
  | cons x rest ih =>
    rw [List.map_cons, List.map_cons, List.sum_cons, ih, List.map_cons, List.sum_cons, Nat.cast_add, ← natAbs_toInt,
      Nat.cast_natAbs, Int.cast_abs]

/-- The exact sums of inputs whose magnitudes sum to less than 2^127 are in range. -/
theorem dftExact_lt {xw : List F32} (h : dftNorm xw < 2 ^ 276) (k quarter : Nat) :
    (dftExact xw k quarter).natAbs < overflowBound * fix := by
  rcases Nat.eq_zero_or_pos xw.length with h0 | hpos
  · rw [List.length_eq_zero_iff.mp h0, show dftExact [] k quarter = 0 from rfl]; decide
  · have hclose := dftSum_close hpos k quarter 0 xw
    have hsum := NumReal.abs_dftSum_le xw.length k quarter 0 (xw.map fun x => (toInt x : ℝ))
    rw [sum_abs_toInt] at hsum
    rw [show 276 = 24 + 252 from rfl, pow_add] at h
    have hn : ((dftNorm xw : Nat) : ℝ) ≤ 2 ^ 24 * ((2 ^ 252 : Nat) : ℝ) := by exact_mod_cast h.le
    have h0 : (0 : ℝ) ≤ (dftNorm xw : Nat) := Nat.cast_nonneg _
    have hC : (0 : ℝ) < ((2 ^ 252 : Nat) : ℝ) := by positivity
    have hfix : (0 : ℝ) < (fix : Nat) := by positivity
    rw [← dftNorm] at hclose hsum
    have hbound : |(dftExact xw k quarter : ℝ) / fix| < (2 ^ 25 - 1) * ((2 ^ 252 : Nat) : ℝ) := by
      have hsub := abs_sub_abs_le_abs_sub ((dftExact xw k quarter : ℝ) / fix)
        (NumReal.dftSum xw.length k quarter 0 (xw.map fun x => (toInt x : ℝ)))
      have hclose' := hsub.trans hclose
      generalize ((dftNorm xw : Nat) : ℝ) = N at hclose' hsum hn h0
      generalize ((2 ^ 252 : Nat) : ℝ) = C at hn hC ⊢
      have : N / 2 ^ 60 ≤ N / 2 := by gcongr; norm_num
      linarith
    rw [abs_div, abs_of_pos hfix, div_lt_iff₀ hfix, ← Int.cast_abs, ← Nat.cast_natAbs] at hbound
    have : (((dftExact xw k quarter).natAbs : Nat) : ℝ) < ((overflowBound * fix : Nat) : ℝ) := by
      rw [Nat.cast_mul, Nat.cast_mul, show ((2 ^ 25 - 1 : Nat) : ℝ) = 2 ^ 25 - 1 by norm_num]; exact hbound
    exact_mod_cast this

/-- Of finite inputs in range, a component is an admitted answer of the arithmetic, or the exact sum rounded once. -/
theorem dftPart_cases {xw : List F32} {ref : Int} {v : F32} (hf : xw.all isFinite = true) (hn : dftNorm xw < 2 ^ 276) :
    (isFinite (dftPart xw ref v) = true
        ∧ (toInt (dftPart xw ref v) * (2 ^ 160 : Nat) - ref).natAbs * 2 ^ 24 ≤ Config.dftAccuracy * dftNorm xw * 2 ^ 160)
      ∨ Rounds ref (2 ^ 160) (dftPart xw ref v) := by
  have hu : dftUnbounded xw = false := decide_eq_false (not_le.mpr hn)
  unfold dftPart
  split
  · rename_i hadm
    left
    simp only [dftAdmits, hf, hu, Bool.not_true, Bool.false_or, Bool.and_eq_true, decide_eq_true_eq] at hadm
    exact hadm
  · exact .inr ⟨_, signOf_decide ref, rfl⟩

/-- The bins of an input that is not all zero. -/
theorem dft_getElem? {xw : List F32} (h : xw.all isZero = false) {k : Nat} (hk : k < xw.length / 2 + 1) :
    (dft xw)[k]? = some (dftPart xw (dftExact xw k 0) (Config.dftReValue xw k),
      dftPart xw (dftExact xw k 1) (Config.dftImValue xw k)) := by
  rw [dft, if_neg (by simp [h])]
  simp [hk, dftExact]

theorem dft_of_zeros {xw : List F32} (h : xw.all isZero = true) :
    dft xw = List.replicate (xw.length / 2 + 1) (0x00000000#32, 0x00000000#32) := by
  have h0 : ofInt 0 = 0x00000000#32 := by decide
  rw [dft, if_pos h, h0]

@[simp] theorem dft_length (xw : List F32) : (dft xw).length = xw.length / 2 + 1 := by
  cases h : xw.all isZero with
  | true => rw [dft_of_zeros h, List.length_replicate]
  | false => rw [dft, if_neg (by simp [h])]; simp

/-- Every bin of finite inputs in range is finite. -/
theorem isFinite_dft {xw : List F32} (hf : xw.all isFinite = true) (hn : dftNorm xw < 2 ^ 276) {bin : F32 × F32}
    (hb : bin ∈ dft xw) : isFinite bin.1 = true ∧ isFinite bin.2 = true := by
  have hpart : ∀ k quarter v, isFinite (dftPart xw (dftExact xw k quarter) v) = true := by
    intro k quarter v
    rcases dftPart_cases (ref := dftExact xw k quarter) (v := v) hf hn with h | h
    · exact h.1
    · exact h.isFinite (by positivity) (dftExact_lt hn k quarter)
  cases hz : xw.all isZero with
  | true =>
    rw [dft_of_zeros hz] at hb
    rw [List.eq_of_mem_replicate hb]
    decide
  | false =>
    obtain ⟨k, hk⟩ := List.mem_iff_getElem?.mp hb
    have hlt : k < xw.length / 2 + 1 := by
      rw [← dft_length]; exact (List.getElem?_eq_some_iff.mp hk).1
    rw [dft_getElem? hz hlt] at hk
    cases hk
    exact ⟨hpart _ _ _, hpart _ _ _⟩

end Sys2Proof.NumF32

namespace Sys2Proof

open NumF32 Machine

/-- Settles O40: the quarters of the root lie on the same side of every middle of two values as the real root. -/
theorem sqrtRoundsToNearest : Obligations.SqrtRoundsToNearest := by
  intro a w hf h0 hw off
  have hmag : (toInt a : ℝ) = mag a := by
    have : toInt a = mag a := by rw [← natAbs_toInt]; omega
    rw [this, Int.cast_natCast]
  have hnear := (sqrt_rounds hf h0).nearest (by decide) (by
    rw [Int.natAbs_natCast]
    exact (rootQuarters_le (scaled_lt hf).le).trans_lt (by decide))
  obtain ⟨⟨hfin, hdist⟩, heven⟩ := hnear
  obtain ⟨hle, htie⟩ := nearest_root (hdist w hw)
  simp only [off, hmag]
  exact ⟨hfin, toInt_sqrt_nonneg hf h0, hle, fun heq hne => heven w hw (htie heq hne) hne⟩

/-- Settles O39: each operation is one rounding of its exact ratio, and the open answers are taken only where finite. -/
theorem overflowIsInfinityOfTheExactSign : Obligations.OverflowIsInfinityOfTheExactSign := by
  refine ⟨fun a b ha hb => ⟨?_, ?_, ?_, fun h0 => ?_, ?_, ?_, ?_, ?_, ?_⟩, fun z => ?_, fun xw hf hn bin hbin => ?_⟩
  · exact (add_rounds ha hb).keeps (by decide)
  · exact (sub_rounds ha hb).keeps (by decide)
  · exact (mul_rounds ha hb).keeps (by positivity)
  · exact (div_rounds ha hb h0).keeps (by omega)
  · exact isFinite_max ha hb
  · exact isFinite_min ha hb
  · rw [isFinite_abs, ha]
  · exact isFinite_sqrt ha
  · exact fun hp => ⟨isFinite_log10 ha hp, isFinite_ln ha hp⟩
  · exact (ofInt_rounds z).keeps (by decide)
  · exact isFinite_dft (List.all_eq_true.mpr hf) hn hbin

/-- Settles O33: the table of cosines is the real one to within 2^−60, and so is every sum that uses it. -/
theorem transformApproximatesTheSums : Obligations.TransformApproximatesTheSums := by
  intro xw
  refine ⟨dft_length xw, dft_of_zeros, fun hz hf hn k hk => ?_, fun k quarter => ?_⟩
  · have hpart : ∀ quarter v, IsNearestEven (dftExact xw k quarter) (2 ^ 160) (dftPart xw (dftExact xw k quarter) v)
        ∨ isFinite (dftPart xw (dftExact xw k quarter) v) = true
          ∧ (toInt (dftPart xw (dftExact xw k quarter) v) * (2 ^ 160 : Nat) - dftExact xw k quarter).natAbs * 2 ^ 24
            ≤ Config.dftAccuracy * (xw.map mag).sum * 2 ^ 160 := fun quarter v =>
      (dftPart_cases hf hn).symm.imp_left fun h => h.nearest (by positivity) (dftExact_lt hn k quarter)
    exact ⟨_, _, dft_getElem? hz hk, hpart 0 _, hpart 1 _⟩
  · rcases Nat.eq_zero_or_pos xw.length with h0 | hpos
    · rw [List.length_eq_zero_iff.mp h0, show dftExact [] k quarter = 0 from rfl]; simp
    · have hclose := dftSum_close hpos k quarter 0 xw
      rw [NumReal.dftSum_eq_sum hpos, List.length_map] at hclose
      have hsum : ∀ n, (xw.map fun x => (toInt x : ℝ)).getD n 0 = (toInt (xw.getD n 0) : ℝ) := by
        intro n
        have h0 : ((toInt 0#32 : Int) : ℝ) = 0 := by rw [toInt_zero, Int.cast_zero]
        rw [← h0]; exact List.getD_map _ _ _
      simp only [hsum, zero_add, Nat.cast_pow, Nat.cast_ofNat] at hclose
      refine hclose.trans ?_
      gcongr <;> norm_num

end Sys2Proof

/-! The level of a batch: the accumulators, `rms` and `peak` (R144, R145, R151). -/

namespace Sys2Proof.NumF32

/-- Every integer of 24 bits, and 2^24, is a binary32 number. -/
theorem ofInt_exact {n : Nat} (h : n ≤ 2 ^ 24) : isFinite (ofInt n) = true ∧ toInt (ofInt n) = n * (2 ^ 149 : Nat) := by
  have himg : ∃ m, m < 0x7F800000 ∧ magImg m = n * 2 ^ 149 := by
    rcases h.eq_or_lt with rfl | hlt
    · obtain ⟨m, hm, e⟩ := exists_image (2 ^ 23) 150 (by decide) (by decide)
      exact ⟨m, hm, by rw [e, pow_succ 2 149]; ring⟩
    · exact exists_image n 149 hlt (by decide)
  obtain ⟨m, hm, e⟩ := himg
  have hfin := isFinite_pack false hm
  have hval : toInt (pack false m) = n * (2 ^ 149 : Nat) := by
    rw [toInt_pack false (by omega), if_neg Bool.false_ne_true, e]; push_cast; rfl
  have hr := ofInt_rounds n
  rw [← hval] at hr
  rw [← hval]
  exact Rounds.exact (den := 1) (by decide) hfin (by rwa [Nat.cast_one, mul_one])

end Sys2Proof.NumF32

namespace Sys2Proof

open NumF32 Machine

/-! ## The accumulators (R144) -/

theorem sumSquares_eq (mono : List F32) :
    dataF32.sumSquares mono = mono.foldl (fun acc m => NumF32.add acc (NumF32.mul m m)) 0#32 := by
  rw [DataPath.sumSquares, dataF32_zero]; rfl

theorem peakOf_eq (mono : List F32) :
    dataF32.peakOf mono = mono.foldl (fun acc m => NumF32.max acc (NumF32.abs m)) 0#32 := by
  rw [DataPath.peakOf, dataF32_zero]; rfl

theorem nonneg_sumSquares {mono : List F32} (h : ∀ m ∈ mono, isNaN m = false) : nonneg (dataF32.sumSquares mono) = true := by
  rw [sumSquares_eq]
  exact List.foldlRecOn (motive := fun acc => nonneg acc = true) mono _ (by decide)
    fun _ hacc m hm => nonneg_add hacc (nonneg_mul_self (h m hm))

theorem nonneg_peakOf {mono : List F32} (h : ∀ m ∈ mono, isNaN m = false) : nonneg (dataF32.peakOf mono) = true := by
  rw [peakOf_eq]
  exact List.foldlRecOn (motive := fun acc => nonneg acc = true) mono _ (by decide)
    fun _ hacc m hm => nonneg_max hacc (nonneg_abs (h m hm))

theorem isFinite_peakOf {mono : List F32} (h : ∀ m ∈ mono, isFinite m = true) : isFinite (dataF32.peakOf mono) = true := by
  rw [peakOf_eq]
  exact List.foldlRecOn (motive := fun acc => isFinite acc = true) mono _ (by decide)
    fun _ hacc m hm => isFinite_max hacc ((isFinite_abs m).trans (h m hm))

theorem inUnit_abs {m : F32} (h : normalized m = true) : inUnit (NumF32.abs m) = true := by
  obtain ⟨hf, lo, hi⟩ := (normalized_iff m).mp h
  exact (inUnit_iff _).mpr ⟨(isFinite_abs m).trans hf, by rw [toInt_abs]; exact abs_nonneg _,
    by rw [toInt_abs]; exact abs_le.mpr ⟨lo, hi⟩⟩

theorem inUnit_max {a b : F32} (ha : inUnit a = true) (hb : inUnit b = true) : inUnit (NumF32.max a b) = true := by
  rcases (max_spec (isNaN_of_inUnit ha) (isNaN_of_inUnit hb)).1 with e | e <;> rw [e] <;> assumption

theorem inUnit_peakOf {mono : List F32} (h : ∀ m ∈ mono, normalized m = true) : inUnit (dataF32.peakOf mono) = true := by
  rw [peakOf_eq]
  exact List.foldlRecOn (motive := fun acc => inUnit acc = true) mono _ (by decide)
    fun _ hacc m hm => inUnit_max hacc (inUnit_abs (h m hm))

theorem inUnit_mul_self {m : F32} (h : normalized m = true) : inUnit (NumF32.mul m m) = true := by
  obtain ⟨hf, lo, hi⟩ := (normalized_iff m).mp h
  have hsq : toInt m * toInt m ≤ one * one := by nlinarith
  have := (mul_rounds hf hf).between (lo := 0#32) (hi := 0x3F800000#32) (by positivity) (by decide) (by decide)
    (by rw [toInt_zero, zero_mul]; exact mul_self_nonneg _) (by rw [toInt_one]; exact hsq)
  rw [toInt_zero, toInt_one] at this
  exact (inUnit_iff _).mpr this

/-- The squares of `n` samples in [−1, 1] sum to at most `n`, which binary32 holds. -/
theorem sumSquares_le {mono : List F32} (h : ∀ m ∈ mono, normalized m = true) {acc : F32} {k : Nat}
    (hk : k + mono.length ≤ 2 ^ 24) (hf : isFinite acc = true) (h0 : 0 ≤ toInt acc) (h1 : toInt acc ≤ k * one) :
    let s := mono.foldl (fun acc m => NumF32.add acc (NumF32.mul m m)) acc
    isFinite s = true ∧ 0 ≤ toInt s ∧ toInt s ≤ (k + mono.length : Nat) * one := by
  induction mono generalizing acc k with
  | nil => exact ⟨hf, h0, h1⟩
  | cons m rest ih =>
    rw [List.length_cons] at hk ⊢
    obtain ⟨mf, m0, m1⟩ := (inUnit_iff _).mp (inUnit_mul_self (h m List.mem_cons_self))
    obtain ⟨nf, nv⟩ := ofInt_exact (n := k + 1) (by omega)
    have hstep := (add_rounds hf mf).between (lo := 0#32) (by decide) (by decide) nf
      (by rw [toInt_zero]; omega) (by rw [nv, Nat.cast_one, mul_one]; push_cast at h1 m1 ⊢; linarith)
    rw [toInt_zero, nv] at hstep
    have := ih (fun x hx => h x (List.mem_cons_of_mem _ hx)) (k := k + 1) (by omega) hstep.1 hstep.2.1 hstep.2.2
    rwa [show k + 1 + rest.length = k + (rest.length + 1) by ring] at this

/-! ## `rms` and `peak` (R145) -/

theorem rmsOf_eq (mono : List F32) :
    dataF32.rmsOf mono = NumF32.sqrt (NumF32.div (dataF32.sumSquares mono) (NumF32.ofInt mono.length)) := rfl

/-- The count of a batch's samples as a divisor. -/
theorem ofInt_length {mono : List F32} (hne : mono.length ≠ 0) (hlen : mono.length < 2 ^ 24) :
    isFinite (NumF32.ofInt mono.length) = true ∧ one ≤ toInt (NumF32.ofInt mono.length) := by
  obtain ⟨hf, hv⟩ := ofInt_exact hlen.le
  refine ⟨hf, hv ▸ ?_⟩
  exact_mod_cast Nat.le_mul_of_pos_left (2 ^ 149) (Nat.pos_of_ne_zero hne)

theorem nonneg_rmsOf {mono : List F32} (h : ∀ m ∈ mono, isNaN m = false) (hne : mono.length ≠ 0)
    (hlen : mono.length < 2 ^ 24) : nonneg (dataF32.rmsOf mono) = true := by
  obtain ⟨hf, h1⟩ := ofInt_length hne hlen
  rw [rmsOf_eq]
  exact nonneg_sqrt (nonneg_div (nonneg_sumSquares h) hf (lt_of_lt_of_le (by positivity) h1))

/-- A quotient by at least 1 is finite and not negative where the dividend is. -/
theorem isFinite_div {a b : F32} (ha : isFinite a = true) (h0 : 0 ≤ toInt a) (hb : isFinite b = true) (h1 : one ≤ toInt b) :
    isFinite (NumF32.div a b) = true ∧ 0 ≤ toInt (NumF32.div a b) := by
  have hpos : 0 < toInt b := lt_of_lt_of_le (by positivity) h1
  have hr := div_rounds ha hb hpos.ne'
  rw [Int.sign_eq_one_of_pos hpos, mul_one] at hr
  have hb' : ((toInt b).natAbs : Int) = toInt b := by omega
  have := hr.between (lo := 0#32) (hi := a) (by omega) (by decide) ha (by rw [toInt_zero, zero_mul]; positivity)
    (by rw [hb']; exact mul_le_mul_of_nonneg_left h1 h0)
  rw [toInt_zero] at this
  exact ⟨this.1, this.2.1⟩

theorem isFinite_rmsOf {mono : List F32} (h : ∀ m ∈ mono, isNaN m = false) (hne : mono.length ≠ 0)
    (hlen : mono.length < 2 ^ 24) (hs : isFinite (dataF32.sumSquares mono) = true) : isFinite (dataF32.rmsOf mono) = true := by
  obtain ⟨hf, h1⟩ := ofInt_length hne hlen
  obtain ⟨-, h0⟩ := (nonneg_iff _).mp (nonneg_sumSquares h)
  rw [rank_of_isFinite hs] at h0
  obtain ⟨qf, q0⟩ := isFinite_div hs h0 hf h1
  rw [rmsOf_eq]
  exact isFinite_sqrt qf q0

theorem inUnit_rmsOf {mono : List F32} (h : ∀ m ∈ mono, normalized m = true) (hne : mono.length ≠ 0)
    (hlen : mono.length < 2 ^ 24) : inUnit (dataF32.rmsOf mono) = true := by
  obtain ⟨hf, hv⟩ := ofInt_exact hlen.le
  obtain ⟨-, h1⟩ := ofInt_length hne hlen
  have hpos : 0 < toInt (NumF32.ofInt mono.length) := lt_of_lt_of_le (by positivity) h1
  obtain ⟨sf, s0, s1⟩ := sumSquares_le h (acc := 0#32) (k := 0) (by omega) (by decide) (by decide) (by rw [toInt_zero]; simp)
  rw [← sumSquares_eq] at sf s0 s1
  have hr := div_rounds sf hf hpos.ne'
  rw [Int.sign_eq_one_of_pos hpos, mul_one] at hr
  have hb : ((toInt (NumF32.ofInt mono.length)).natAbs : Int) = mono.length * (2 ^ 149 : Nat) := by omega
  have := hr.between (lo := 0#32) (hi := 0x3F800000#32) (by omega) (by decide) (by decide)
    (by rw [toInt_zero, zero_mul]; positivity)
    (by rw [hb, toInt_one, mul_comm (one : Int)]; rw [zero_add] at s1; exact mul_le_mul_of_nonneg_right s1 (by positivity))
  rw [toInt_zero, toInt_one] at this
  rw [rmsOf_eq]
  exact inUnit_sqrt ((inUnit_iff _).mpr this)

/-- The level of a batch is 0 of no sample, and else its `rms` and `peak` (R145, R146). -/
theorem levelOf_cases {α : Type} (p : Params α) (mono : List α) :
    (mono.length = 0 ∧ Machine.levelOf p mono = ⟨p.data.zero, p.data.zero⟩)
      ∨ (mono.length ≠ 0 ∧ Machine.levelOf p mono = ⟨p.data.rmsOf mono, p.data.peakOf mono⟩) := by
  by_cases h : mono.length = 0
  · exact .inl ⟨h, by simp [Machine.levelOf, DataPath.levelOf, h]⟩
  · exact .inr ⟨h, by simp [Machine.levelOf, DataPath.levelOf, h]⟩

theorem nonneg_levelOf {mono : List F32} (h : ∀ m ∈ mono, isNaN m = false) (hlen : mono.length < 2 ^ 24) :
    nonneg (Machine.levelOf Params.default mono).rms = true ∧ nonneg (Machine.levelOf Params.default mono).peak = true := by
  rcases levelOf_cases Params.default mono with ⟨-, e⟩ | ⟨hne, e⟩ <;> rw [e]
  · rw [default_data, dataF32_zero]; decide
  · exact ⟨nonneg_rmsOf h hne hlen, nonneg_peakOf h⟩

theorem inUnit_levelOf {mono : List F32} (h : ∀ m ∈ mono, normalized m = true) (hlen : mono.length < 2 ^ 24) :
    inUnit (Machine.levelOf Params.default mono).rms = true ∧ inUnit (Machine.levelOf Params.default mono).peak = true := by
  rcases levelOf_cases Params.default mono with ⟨-, e⟩ | ⟨hne, e⟩ <;> rw [e]
  · rw [default_data, dataF32_zero]; decide
  · exact ⟨inUnit_rmsOf h hne hlen, inUnit_peakOf h⟩

/-- Settles O22: squares and magnitudes are not negative, and the squares of `n` samples in [−1, 1] sum to at most `n`. -/
theorem levelsAreNotNegative : Obligations.LevelsAreNotNegative := by
  intro mono h hlen
  obtain ⟨hrms, hpeak⟩ := nonneg_levelOf h hlen
  refine ⟨hrms, hpeak, fun hf => ?_, fun hs => ?_, fun hu => inUnit_levelOf hu hlen⟩
  · rcases levelOf_cases Params.default mono with ⟨-, e⟩ | ⟨-, e⟩ <;> rw [e]
    · rw [default_data, dataF32_zero]; decide
    · exact isFinite_peakOf hf
  · rcases levelOf_cases Params.default mono with ⟨-, e⟩ | ⟨hne, e⟩ <;> rw [e]
    · rw [default_data, dataF32_zero]; decide
    · exact isFinite_rmsOf h hne hlen hs

end Sys2Proof

/-! Silence: an all-zero window through the data path (`P_ZERO`, R226). -/

namespace Sys2Proof.NumF32

/-! ## Zeros (`P_ZERO`) -/

theorem Rounds.isZero {den : Nat} {v : F32} (h : Rounds 0 den v) (hd : 0 < den) : isZero v = true := by
  have := Rounds.exact (w := 0#32) hd (by decide) (by rwa [toInt_zero, zero_mul])
  exact isZero_of_toInt this.1 (this.2.trans toInt_zero)

theorem isZero_mul_left {a b : F32} (ha : isZero a = true) (hb : isFinite b = true) : isZero (mul a b) = true := by
  have h := mul_rounds (isFinite_of_isZero ha) hb
  rw [toInt_of_isZero ha, zero_mul] at h
  exact h.isZero (by positivity)

theorem isZero_mul_right {a b : F32} (ha : isFinite a = true) (hb : isZero b = true) : isZero (mul a b) = true := by
  have h := mul_rounds ha (isFinite_of_isZero hb)
  rw [toInt_of_isZero hb, mul_zero] at h
  exact h.isZero (by positivity)

theorem isZero_add {a b : F32} (ha : isZero a = true) (hb : isZero b = true) : isZero (add a b) = true := by
  have h := add_rounds (isFinite_of_isZero ha) (isFinite_of_isZero hb)
  rw [toInt_of_isZero ha, toInt_of_isZero hb, add_zero] at h
  exact h.isZero (by decide)

theorem isZero_div {a b : F32} (ha : isZero a = true) (hb : isFinite b = true) (h0 : toInt b ≠ 0) :
    isZero (div a b) = true := by
  have h := div_rounds (isFinite_of_isZero ha) hb h0
  rw [toInt_of_isZero ha, zero_mul, zero_mul] at h
  exact h.isZero (by omega)

theorem isZero_sqrt {a : F32} (ha : isZero a = true) : isZero (sqrt a) = true := by rwa [sqrt_of_isZero ha]

theorem inUnit_of_isZero {a : F32} (ha : isZero a = true) : inUnit a = true :=
  (inUnit_iff a).mpr ⟨isFinite_of_isZero ha, (toInt_of_isZero ha).ge, by rw [toInt_of_isZero ha]; positivity⟩

/-- Adding a zero leaves the value. -/
theorem toInt_zero_add {a b : F32} (ha : isZero a = true) (hb : isFinite b = true) : toInt (add a b) = toInt b := by
  have h := add_rounds (isFinite_of_isZero ha) hb
  rw [toInt_of_isZero ha, zero_add] at h
  exact (Rounds.exact (den := 1) (by decide) hb (by rwa [Nat.cast_one, mul_one])).2

/-! ## The window (R180) -/

/-- A ratio of at most 1, rounded. -/
theorem inUnit_pack_roundMag {num den : Nat} (hd : 0 < den) (h : num ≤ one * den) :
    inUnit (pack false (roundMag num den)) = true := by
  have hr : Rounds num den (pack false (roundMag num den)) :=
    ⟨false, ⟨fun h => absurd h (by omega), fun _ => rfl⟩, by rw [Int.natAbs_natCast]⟩
  have := hr.between (lo := 0#32) (hi := 0x3F800000#32) hd (by decide) (by decide)
    (by rw [toInt_zero, zero_mul]; positivity) (by rw [toInt_one]; exact_mod_cast h)
  rw [toInt_zero, toInt_one] at this
  exact (inUnit_iff _).mpr this

/-- Every coefficient lies in [0, 1]. -/
theorem inUnit_hann (f n : Nat) : inUnit (hann f n) = true := by
  refine inUnit_pack_roundMag (by positivity) ?_
  rw [mul_comm one]
  exact Nat.mul_le_mul_right _ (Nat.min_le_right _ _)

theorem inUnit_of_mem_window {f : Nat} {w : F32} (h : w ∈ window f) : inUnit w = true := by
  obtain ⟨n, -, rfl⟩ := List.mem_map.mp h
  exact inUnit_hann f n

end Sys2Proof.NumF32

namespace Sys2Proof

open NumF32 Machine

/-! ## The powers of silence -/

theorem mem_bandPowers {α : Type} {bandmap : List Nat} {power : List α} {b : Nat} {v : α}
    (h : v ∈ bandPowers bandmap power b) : v ∈ power := by
  obtain ⟨e, he, rfl⟩ := List.mem_map.mp h
  exact (List.of_mem_zip (List.mem_filter.mp he).1).2

theorem bandPowers_length_le {α : Type} (bandmap : List Nat) (power : List α) (b : Nat) :
    (bandPowers bandmap power b).length ≤ power.length := by
  rw [bandPowers, List.length_map]
  refine (List.length_filter_le _ _).trans ?_
  rw [List.length_zip]; exact Nat.min_le_right _ _

theorem windowed_eq (x : List F32) : dataF32.windowed x = List.zipWith NumF32.mul x (NumF32.window 1024) := by
  rw [DataPath.windowed, dataF32_window]; rfl

theorem isZero_windowed {x : List F32} (h : ∀ v ∈ x, isZero v = true) : ∀ v ∈ dataF32.windowed x, isZero v = true := by
  intro v hv
  rw [windowed_eq] at hv
  obtain ⟨i, hi, rfl⟩ := List.mem_iff_getElem.mp hv
  rw [List.getElem_zipWith]
  exact isZero_mul_left (h _ (List.getElem_mem _)) ((inUnit_iff _).mp (inUnit_of_mem_window (List.getElem_mem _))).1

theorem powers_length (x : List F32) : (dataF32.powers x).length = (dataF32.windowed x).length / 2 + 1 := by
  simp [DataPath.powers, DataPath.bins]

theorem isZero_binPower {a b : F32} (ha : isZero a = true) (hb : isZero b = true) :
    isZero (dataF32.binPower (a, b)) = true :=
  isZero_add (isZero_mul_left ha (isFinite_of_isZero ha)) (isZero_mul_left hb (isFinite_of_isZero hb))

theorem isZero_powers {x : List F32} (h : ∀ v ∈ x, isZero v = true) : ∀ v ∈ dataF32.powers x, isZero v = true := by
  intro v hv
  have hz : isZero 0x00000000#32 = true := by decide
  rw [DataPath.powers, DataPath.bins, dataF32_dft, dft_of_zeros (List.all_eq_true.mpr (isZero_windowed h))] at hv
  obtain ⟨bin, hbin, rfl⟩ := List.mem_map.mp hv
  obtain ⟨sums, hsums, rfl⟩ := List.mem_map.mp hbin
  rw [List.eq_of_mem_replicate hsums]
  exact isZero_binPower (isZero_mul_right (by decide) hz) (isZero_mul_right (by decide) hz)

/-! ## The levels and the filters of silence -/

theorem isZero_sum {xs : List F32} (h : ∀ v ∈ xs, isZero v = true) : isZero (dataF32.sum xs) = true := by
  rw [DataPath.sum, dataF32_zero]
  exact List.foldlRecOn (motive := fun acc => isZero acc = true) xs _ (by decide) fun _ hacc m hm => isZero_add hacc (h m hm)

theorem isZero_magnitude {xs : List F32} (h : ∀ v ∈ xs, isZero v = true) (hlen : xs.length ≤ 2 ^ 24) :
    isZero (dataF32.magnitude xs) = true := by
  refine isZero_sqrt ?_
  rw [DataPath.meanPower]
  split
  · rw [dataF32_zero]; decide
  · rename_i hne
    obtain ⟨hf, hv⟩ := ofInt_exact hlen
    refine isZero_div (isZero_sum h) hf ?_
    rw [dataF32_ofInt, hv]
    exact mul_ne_zero (by exact_mod_cast hne) (by positivity)

theorem isZero_linearLevel {m : F32} (h : isZero m = true) : isZero (dataF32.linearLevel m) = true := by
  have hz : isZero (NumF32.mul (NumF32.mul m 0x3E4CCCCD#32) 0x3F4CCCCD#32) = true :=
    isZero_mul_left (isZero_mul_left h (by decide)) (by decide)
  have hf := isFinite_of_isZero hz
  exact isZero_clamp01 (isNaN_of_isFinite hf) (by
    rw [dataF32_mul, dataF32_gain, dataF32_linScale, rank_of_isFinite hf, toInt_of_isZero hz])

theorem isZero_dbLevel {m : F32} (h : isZero m = true) : isZero (dataF32.dbLevel m) = true := by
  have hf := isFinite_of_isZero h
  have hlt : NumF32.lt 0x00000000#32 m = false := by
    rw [← Bool.not_eq_true, lt_iff (by decide) (isNaN_of_isFinite hf), rank_of_isFinite hf, toInt_of_isZero h,
      rank_of_isFinite (a := 0#32) (by decide), toInt_zero]
    exact lt_irrefl _
  rw [DataPath.dbLevel, dataF32_lt, dataF32_zero, hlt, if_neg Bool.false_ne_true]
  decide

/-- What is in [0, 1] is a band's new level as computed. -/
theorem outBand_of_inUnit (x : List F32) (b : Nat) (which : Config.Representation) {v : F32} (h : inUnit v = true) :
    dataF32.outBand x b which v = v := by
  rw [dataF32_outBand, NumF32.outBand, h]; rfl

theorem isZero_outBand (x : List F32) (b : Nat) (which : Config.Representation) {v : F32} (h : isZero v = true) :
    isZero (dataF32.outBand x b which v) = true := by
  rwa [outBand_of_inUnit x b which (inUnit_of_isZero h)]

/-- A filter whose new level is 0 becomes `1 − ALPHA` times itself. -/
theorem toInt_smooth_zero {new previous : F32} (hn : isZero new = true) (hp : inUnit previous = true) :
    toInt (dataF32.smooth new previous) = toInt (NumF32.mul 0x3ECCCCCC#32 previous) := by
  rw [smooth_eq]
  exact toInt_zero_add (isZero_mul_right (by decide) hn) (mul_inUnit_le (by decide) (by decide) hp).1

/-- A band's filters after an analysis step (R220 to R222). -/
theorem analysis_getElem? (bandmap : List Nat) (x : List F32) {smDb smLin : List F32} {b : Nat} (hb : b < 96) {db lin : F32}
    (hdb : smDb[b]? = some db) (hlin : smLin[b]? = some lin) :
    (analysis Params.default bandmap x smDb smLin).bands[b]?
        = some (dataF32.smooth (dataF32.newDb bandmap x (dataF32.powers x) b) db)
      ∧ (analysis Params.default bandmap x smDb smLin).bandsLinear[b]?
        = some (dataF32.smooth (dataF32.newLin bandmap x (dataF32.powers x) b) lin) := by
  constructor
  · refine (smoothAll_getElem? dataF32 _ smDb hb).trans ?_
    rw [List.getD_eq_getElem?_getD, hdb]; rfl
  · refine (smoothAll_getElem? dataF32 _ smLin hb).trans ?_
    rw [List.getD_eq_getElem?_getD, hlin]; rfl

/-- Settles O44: silence has zero bins, powers, magnitudes and levels, and adding a zero product is exact. -/
theorem silenceDecaysEveryFilter : Obligations.SilenceDecaysEveryFilter := by
  intro bandmap x smDb smLin b db lin hlen hx hb hdb hlin udb ulin
  have hm : isZero (dataF32.bandMagnitude bandmap (dataF32.powers x) b) = true := by
    refine isZero_magnitude (fun v hv => isZero_powers hx v (mem_bandPowers hv)) ?_
    refine (bandPowers_length_le _ _ _).trans ?_
    rw [powers_length, windowed_eq, List.length_zipWith, hlen]
    omega
  obtain ⟨e1, e2⟩ := analysis_getElem? bandmap x hb hdb hlin
  exact ⟨_, _, e1, e2, toInt_smooth_zero (isZero_outBand x b .db (isZero_dbLevel hm)) udb,
    toInt_smooth_zero (isZero_outBand x b .linear (isZero_linearLevel hm)) ulin⟩

end Sys2Proof

/-! The named properties of both arithmetics (R18), and the reference semantics (R16, R17 d). -/

namespace Sys2Proof

open NumF32 Machine

/-! ## Images read as real numbers -/

theorem ofImage_le_iff (a b : F32) : NumReal.ofImage a ≤ NumReal.ofImage b ↔ toInt a ≤ toInt b := by
  unfold NumReal.ofImage
  rw [div_le_div_iff_of_pos_right (by positivity), Int.cast_le]

theorem ofImage_of_toInt {a : F32} {z : Int} (h : toInt a = z * (2 ^ 149 : Nat)) : NumReal.ofImage a = z := by
  rw [NumReal.ofImage, h, Int.cast_mul, Int.cast_natCast, Nat.cast_pow, Nat.cast_ofNat,
    mul_div_cancel_right₀ _ (by positivity)]

theorem ofImage_zero : NumReal.ofImage 0#32 = 0 := by
  have := ofImage_of_toInt (a := 0#32) (z := 0) (by decide)
  rwa [Int.cast_zero] at this

theorem ofImage_one : NumReal.ofImage 0x3F800000#32 = 1 := by
  have := ofImage_of_toInt (a := 0x3F800000#32) (z := 1) (by decide)
  rwa [Int.cast_one] at this

theorem ofImage_nonneg_iff (a : F32) : 0 ≤ NumReal.ofImage a ↔ 0 ≤ toInt a := by
  rw [← ofImage_zero, ofImage_le_iff, toInt_zero]

theorem ofImage_le_one_iff (a : F32) : NumReal.ofImage a ≤ 1 ↔ toInt a ≤ one := by
  rw [← ofImage_one, ofImage_le_iff, toInt_one]

theorem ofImage_pos_iff (a : F32) : 0 < NumReal.ofImage a ↔ 0 < toInt a := by
  rw [← ofImage_zero, ← not_le, ofImage_le_iff, not_le, toInt_zero]

theorem ofImage_of_isZero {a : F32} (h : isZero a = true) : isFinite a = true ∧ NumReal.ofImage a = 0 :=
  ⟨isFinite_of_isZero h, by rw [NumReal.ofImage, toInt_of_isZero h, Int.cast_zero, zero_div]⟩

theorem ofImage_of_inUnit {a : F32} (h : inUnit a = true) :
    isFinite a = true ∧ 0 ≤ NumReal.ofImage a ∧ NumReal.ofImage a ≤ 1 := by
  obtain ⟨hf, h0, h1⟩ := (inUnit_iff a).mp h
  exact ⟨hf, (ofImage_nonneg_iff a).mpr h0, (ofImage_le_one_iff a).mpr h1⟩

theorem inUnit_of_ofImage {a : F32} (hf : isFinite a = true) (h0 : 0 ≤ NumReal.ofImage a) (h1 : NumReal.ofImage a ≤ 1) :
    inUnit a = true := (inUnit_iff a).mpr ⟨hf, (ofImage_nonneg_iff a).mp h0, (ofImage_le_one_iff a).mp h1⟩

/-- Reading a value is monotone in its quanta. -/
theorem monotone_quanta : Monotone fun z : Int => (z : ℝ) / 2 ^ 149 :=
  fun a b h => div_le_div_of_nonneg_right (Int.cast_le.mpr h) (by positivity)

theorem max_exact {x y : F32} (hx : isFinite x = true) (hy : isFinite y = true) :
    isFinite (NumF32.max x y) = true
      ∧ NumReal.ofImage (NumF32.max x y) = Max.max (NumReal.ofImage x) (NumReal.ofImage y) := by
  have h := (max_spec (isNaN_of_isFinite hx) (isNaN_of_isFinite hy)).2
  have hf := isFinite_max hx hy
  rw [rank_of_isFinite hf, rank_of_isFinite hx, rank_of_isFinite hy] at h
  exact ⟨hf, by unfold NumReal.ofImage; rw [h]; exact monotone_quanta.map_max⟩

theorem min_exact {x y : F32} (hx : isFinite x = true) (hy : isFinite y = true) :
    isFinite (NumF32.min x y) = true
      ∧ NumReal.ofImage (NumF32.min x y) = Min.min (NumReal.ofImage x) (NumReal.ofImage y) := by
  have h := (min_spec (isNaN_of_isFinite hx) (isNaN_of_isFinite hy)).2
  have hf := isFinite_min hx hy
  rw [rank_of_isFinite hf, rank_of_isFinite hx, rank_of_isFinite hy] at h
  exact ⟨hf, by unfold NumReal.ofImage; rw [h]; exact monotone_quanta.map_min⟩

theorem ofImage_abs (x : F32) : NumReal.ofImage (NumF32.abs x) = |NumReal.ofImage x| := by
  unfold NumReal.ofImage
  rw [toInt_abs, abs_div, Int.cast_abs, abs_of_pos (by positivity : (0 : ℝ) < 2 ^ 149)]

theorem toInt_nonneg_of_nonneg {a : F32} (h : nonneg a = true) : 0 ≤ toInt a := by
  rcases nonneg_cases h with ⟨-, h0⟩ | rfl
  · exact h0
  · decide

/-! ## `NUM_F32` has the named properties -/

theorem namedProperties_f32 :
    NamedProperties dataF32 NumReal.ofImage (fun v => isFinite v = true) (fun v => isNaN v = false) := by
  have hz : isZero dataF32.zero = true := by rw [dataF32_zero]; decide
  constructor
  case zero_add => exact ofImage_of_isZero (isZero_add hz hz)
  case zero_mul => exact fun x hx => ofImage_of_isZero (isZero_mul_left hz hx)
  case mul_zero => exact fun x hx => ofImage_of_isZero (isZero_mul_right hx hz)
  case sqrt_zero => exact ofImage_of_isZero (isZero_sqrt hz)
  case zero_div => exact fun n hn hpos => ofImage_of_isZero (isZero_div hz hn ((ofImage_pos_iff n).mp hpos).ne')
  case abs_zero => rw [dataF32_abs, dataF32_zero]; exact ofImage_of_isZero (by decide)
  case dft_zero =>
    have hall : (List.replicate dataF32.fftSize dataF32.zero).all isZero = true :=
      List.all_eq_true.mpr fun v hv => by rw [List.eq_of_mem_replicate hv]; exact hz
    rw [dataF32_dft, dft_of_zeros hall]
    refine ⟨by rw [List.length_replicate, List.length_replicate]; rfl, fun bin hb => ?_⟩
    obtain ⟨hf, hv⟩ := ofImage_of_isZero (a := 0x00000000#32) (by decide)
    rw [List.eq_of_mem_replicate hb]
    exact ⟨hf, hv, hf, hv⟩
  case clamp_unit => exact fun x hx => ofImage_of_inUnit (inUnit_clamp01 hx)
  case max_exact => exact fun x y hx hy => Sys2Proof.max_exact hx hy
  case min_exact => exact fun x y hx hy => Sys2Proof.min_exact hx hy
  case abs_exact => exact fun x hx => ⟨(isFinite_abs x).trans hx, ofImage_abs x⟩
  case lt_exact =>
    intro x y hx hy
    rw [dataF32_lt, lt_iff (isNaN_of_isFinite hx) (isNaN_of_isFinite hy), rank_of_isFinite hx, rank_of_isFinite hy,
      ← not_le, ← not_le, ofImage_le_iff]
  case sqrt_nonneg =>
    intro x hx h0
    have h0 := (ofImage_nonneg_iff x).mp h0
    exact ⟨isFinite_sqrt hx h0, (ofImage_nonneg_iff _).mpr (toInt_sqrt_nonneg hx h0)⟩
  case convex =>
    exact fun a b ha hb a0 a1 b0 b1 =>
      ofImage_of_inUnit (smooth_inUnit (inUnit_of_ofImage ha a0 a1) (inUnit_of_ofImage hb b0 b1))
  case square =>
    intro x hx
    have h := nonneg_mul_self (isNaN_of_isFinite hx)
    exact ⟨((nonneg_iff _).mp h).1, (ofImage_nonneg_iff _).mpr (toInt_nonneg_of_nonneg h)⟩
  case db_floor =>
    intro y hy h0 h1
    refine ofImage_of_isZero (amplitudesUpToTheFloorGiveZero y hy ((ofImage_nonneg_iff y).mp h0) ?_)
    rw [NumReal.ofImage, div_le_div_iff₀ (by positivity) (by norm_num)] at h1
    have : ((1000 * toInt y : Int) : ℝ) ≤ ((2 ^ 149 : Nat) : Int) := by push_cast; linarith
    exact_mod_cast this

/-! ## The data path over the real numbers, field by field -/

@[simp] theorem dataReal_add (x y : ℝ) : dataReal.num.add x y = x + y := rfl
@[simp] theorem dataReal_sub (x y : ℝ) : dataReal.num.sub x y = x - y := rfl
@[simp] theorem dataReal_mul (x y : ℝ) : dataReal.num.mul x y = x * y := rfl
@[simp] theorem dataReal_div (x y : ℝ) : dataReal.num.div x y = x / y := rfl
@[simp] theorem dataReal_sqrt (x : ℝ) : dataReal.num.sqrt x = Real.sqrt x := rfl
@[simp] theorem dataReal_abs (x : ℝ) : dataReal.num.abs x = |x| := rfl
@[simp] theorem dataReal_max (x y : ℝ) : dataReal.num.max x y = Max.max x y := rfl
@[simp] theorem dataReal_min (x y : ℝ) : dataReal.num.min x y = Min.min x y := rfl
@[simp] theorem dataReal_lt (x y : ℝ) : dataReal.num.lt x y = decide (x < y) := rfl
@[simp] theorem dataReal_log10 (x : ℝ) : dataReal.num.log10 x = NumReal.log10 x := rfl
@[simp] theorem dataReal_ln (x : ℝ) : dataReal.num.ln x = Real.log x := rfl
@[simp] theorem dataReal_ofInt (z : Int) : dataReal.num.ofInt z = (z : ℝ) := rfl
@[simp] theorem dataReal_dft (xw : List ℝ) : dataReal.num.dft xw = NumReal.dft xw := rfl
@[simp] theorem dataReal_fftSize : dataReal.fftSize = 1024 := rfl
@[simp] theorem dataReal_bands : dataReal.bands = 96 := rfl
@[simp] theorem dataReal_nbins : dataReal.nbins = 513 := rfl
@[simp] theorem dataReal_fftScale : dataReal.fftScale = 1 := rfl
@[simp] theorem dataReal_fLo : dataReal.fLo = 20 := rfl
@[simp] theorem dataReal_fHiMax : dataReal.fHiMax = 20000 := rfl
@[simp] theorem dataReal_alpha : dataReal.alpha = 6 / 10 := rfl
@[simp] theorem dataReal_dbWindow : dataReal.dbWindow = 60 := rfl
@[simp] theorem dataReal_zero : dataReal.zero = 0 := Int.cast_zero
@[simp] theorem dataReal_one : dataReal.one = 1 := Int.cast_one

theorem clamp01_real (x : ℝ) : dataReal.clamp01 x = Min.min (Max.max x 0) 1 := by simp [DataPath.clamp01]

theorem clamp01_real_unit (x : ℝ) : 0 ≤ dataReal.clamp01 x ∧ dataReal.clamp01 x ≤ 1 := by
  rw [clamp01_real]
  exact ⟨le_min (le_max_right _ _) zero_le_one, min_le_right _ _⟩

theorem smooth_real (new previous : ℝ) : dataReal.smooth new previous = 6 / 10 * new + 4 / 10 * previous := by
  simp only [DataPath.smooth, dataReal_add, dataReal_mul, dataReal_sub, dataReal_alpha, dataReal_one]; ring

theorem smooth_real_unit {a b : ℝ} (ha : 0 ≤ a ∧ a ≤ 1) (hb : 0 ≤ b ∧ b ≤ 1) :
    0 ≤ dataReal.smooth a b ∧ dataReal.smooth a b ≤ 1 := by
  obtain ⟨a0, a1⟩ := ha
  obtain ⟨b0, b1⟩ := hb
  rw [smooth_real]
  constructor <;> linarith

theorem dftSum_zeros (f k quarter n m : Nat) : NumReal.dftSum f k quarter n (List.replicate m 0) = 0 := by
  have := NumReal.abs_dftSum_le f k quarter n (List.replicate m 0)
  rw [List.map_replicate, abs_zero, List.sum_replicate, smul_zero] at this
  exact abs_nonpos_iff.mp this

/-- Up to 0.001 the logarithm is at most −3, where there is none too. -/
theorem log10_real_le {y : ℝ} (h : y ≤ 1 / 1000) : NumReal.log10 y ≤ -3 := by
  unfold NumReal.log10
  split
  · rename_i h0
    have : Real.logb 10 (1 / 1000) = -3 := by
      rw [show (1 / 1000 : ℝ) = 10 ^ (-3 : ℝ) by rw [Real.rpow_neg (by norm_num)]; norm_num]
      exact Real.logb_rpow (by norm_num) (by norm_num)
    rw [← this]
    exact Real.logb_le_logb_of_le (by norm_num) h0 h
  · have : (0 : ℝ) ≤ Config.logFloor := Nat.cast_nonneg _
    linarith

theorem namedProperties_real : NamedProperties dataReal id (fun _ => True) (fun _ => True) := by
  constructor
  case zero_add => simp
  case zero_mul => simp
  case mul_zero => simp
  case sqrt_zero => simp
  case zero_div => simp
  case abs_zero => simp
  case dft_zero =>
    rw [dataReal_dft, dataReal_zero, dataReal_fftSize, dataReal_nbins]
    unfold NumReal.dft
    refine ⟨by rw [List.length_map, List.length_range, List.length_replicate], fun bin hb => ?_⟩
    obtain ⟨k, -, rfl⟩ := List.mem_map.mp hb
    exact ⟨trivial, dftSum_zeros _ _ _ _ _, trivial, dftSum_zeros _ _ _ _ _⟩
  case clamp_unit => exact fun x _ => ⟨trivial, clamp01_real_unit x⟩
  case max_exact => simp
  case min_exact => simp
  case abs_exact => simp
  case lt_exact => simp
  case sqrt_nonneg => exact fun x _ _ => ⟨trivial, Real.sqrt_nonneg x⟩
  case convex => exact fun a b _ _ a0 a1 b0 b1 => ⟨trivial, smooth_real_unit ⟨a0, a1⟩ ⟨b0, b1⟩⟩
  case square => exact fun x _ => ⟨trivial, mul_self_nonneg x⟩
  case db_floor =>
    intro y _ _ h1
    have hlog : NumReal.log10 y ≤ -3 := log10_real_le h1
    refine ⟨trivial, ?_⟩
    have hle : (20 * NumReal.log10 y + 60) / 60 ≤ 0 := by linarith
    simp only [DataPath.dbOfAmplitude, clamp01_real, dataReal_div, dataReal_add, dataReal_mul, dataReal_ofInt, dataReal_log10,
      dataReal_dbWindow, Int.cast_ofNat, max_eq_right hle, id]
    exact min_eq_left zero_le_one

/-- Settles O46, property by property. -/
theorem bothArithmeticsHaveTheNamedProperties : Obligations.BothArithmeticsHaveTheNamedProperties :=
  ⟨namedProperties_f32, namedProperties_real⟩

/-! ## What the reference semantics derives (R151, R183, R228) -/

theorem sumSquares_real (mono : List ℝ) : dataReal.sumSquares mono = (mono.map fun m => m * m).sum := by
  rw [DataPath.sumSquares, List.sum_eq_foldl, List.foldl_map, dataReal_zero]; rfl

/-- The peak is at least its start and every magnitude. -/
theorem le_foldl_max (mono : List ℝ) (acc : ℝ) :
    acc ≤ mono.foldl (fun acc m => Max.max acc |m|) acc ∧ ∀ m ∈ mono, |m| ≤ mono.foldl (fun acc m => Max.max acc |m|) acc := by
  induction mono generalizing acc with
  | nil => simp
  | cons m rest ih =>
    obtain ⟨h1, h2⟩ := ih (Max.max acc |m|)
    refine ⟨(le_max_left _ _).trans h1, fun x hx => ?_⟩
    rcases List.mem_cons.mp hx with rfl | hx
    · exact (le_max_right _ _).trans h1
    · exact h2 x hx

theorem peakOf_real (mono : List ℝ) : dataReal.peakOf mono = mono.foldl (fun acc m => Max.max acc |m|) 0 := by
  rw [DataPath.peakOf, dataReal_zero]; rfl

theorem peakOf_real_nonneg (mono : List ℝ) : 0 ≤ dataReal.peakOf mono := peakOf_real mono ▸ (le_foldl_max mono 0).1

theorem abs_le_peakOf_real {mono : List ℝ} {m : ℝ} (h : m ∈ mono) : |m| ≤ dataReal.peakOf mono :=
  peakOf_real mono ▸ (le_foldl_max mono 0).2 m h

theorem rmsOf_real (mono : List ℝ) :
    dataReal.rmsOf mono = Real.sqrt ((mono.map fun m => m * m).sum / mono.length) := by
  rw [DataPath.rmsOf, sumSquares_real, dataReal_sqrt, dataReal_div, dataReal_ofInt, Int.cast_natCast]

theorem rmsOf_real_nonneg (mono : List ℝ) : 0 ≤ dataReal.rmsOf mono := rmsOf_real mono ▸ Real.sqrt_nonneg _

theorem rmsOf_real_le_peakOf {mono : List ℝ} (hne : mono ≠ []) : dataReal.rmsOf mono ≤ dataReal.peakOf mono := by
  have hlen : (0 : ℝ) < mono.length := by exact_mod_cast List.length_pos_of_ne_nil hne
  have hsum : (mono.map fun m => m * m).sum ≤ mono.length * dataReal.peakOf mono ^ 2 := by
    have := List.sum_le_card_nsmul (mono.map fun m => m * m) (dataReal.peakOf mono ^ 2) fun x hx => by
      obtain ⟨m, hm, rfl⟩ := List.mem_map.mp hx
      rw [← sq, ← sq_abs]
      exact pow_le_pow_left₀ (abs_nonneg m) (abs_le_peakOf_real hm) 2
    rwa [List.length_map, nsmul_eq_mul] at this
  rw [rmsOf_real]
  refine Real.sqrt_le_iff.mpr ⟨peakOf_real_nonneg mono, ?_⟩
  rw [div_le_iff₀ hlen, mul_comm]
  exact hsum

/-- The bins are the sums of R183. -/
theorem bins_real (xw : List ℝ) {k : Nat} (hk : k < xw.length / 2 + 1) :
    (dataReal.bins xw)[k]? = some (NumReal.dftSum xw.length k 0 0 xw, NumReal.dftSum xw.length k 1 0 xw) := by
  simp [DataPath.bins, NumReal.dft, hk]

theorem dftSum_cos (xw : List ℝ) (k : Nat) : NumReal.dftSum xw.length k 0 0 xw
    = ∑ n ∈ Finset.range xw.length, xw.getD n 0 * Real.cos (2 * Real.pi * k * n / xw.length) := by
  rcases Nat.eq_zero_or_pos xw.length with h | h
  · rw [List.length_eq_zero_iff.mp h]; rfl
  · rw [NumReal.dftSum_eq_sum h]; simp

theorem dftSum_sin (xw : List ℝ) (k : Nat) : NumReal.dftSum xw.length k 1 0 xw
    = ∑ n ∈ Finset.range xw.length, xw.getD n 0 * -Real.sin (2 * Real.pi * k * n / xw.length) := by
  rcases Nat.eq_zero_or_pos xw.length with h | h
  · rw [List.length_eq_zero_iff.mp h]; rfl
  · rw [NumReal.dftSum_eq_sum h]; simp [Real.cos_add_pi_div_two]

/-- A filter holds the weighted sum of its inputs (R228). -/
theorem foldl_smooth_real (new : Nat → ℝ) (k : Nat) :
    (List.range k).foldl (fun previous j => dataReal.smooth (new j) previous) 0
      = ∑ j ∈ Finset.range k, 6 / 10 * (4 / 10) ^ (k - 1 - j) * new j := by
  induction k with
  | zero => rfl
  | succ k ih =>
    rw [List.range_succ, List.foldl_append, ih, List.foldl_cons, List.foldl_nil, smooth_real, Finset.sum_range_succ,
      Finset.mul_sum, add_comm]
    congr 1
    · refine Finset.sum_congr rfl fun j hj => ?_
      rw [show k + 1 - 1 - j = k - 1 - j + 1 by have := Finset.mem_range.mp hj; omega, pow_succ]; ring
    · rw [show k + 1 - 1 - k = 0 by omega, pow_zero, mul_one]

theorem foldl_smooth_real_const (c : ℝ) (k : Nat) :
    (List.range k).foldl (fun previous _ => dataReal.smooth c previous) 0 = c * (1 - (4 / 10) ^ k) := by
  induction k with
  | zero => simp
  | succ k ih =>
    rw [List.range_succ, List.foldl_append, ih, List.foldl_cons, List.foldl_nil, smooth_real, pow_succ]; ring

/-- Settles O47: a mean of squares is at most the largest square, and the filter is a geometric sum. -/
theorem referenceSemanticsHasTheDerivedProperties : Obligations.ReferenceSemanticsHasTheDerivedProperties := by
  refine ⟨fun mono hne => ?_, fun xw k hk => ?_, foldl_smooth_real, foldl_smooth_real_const⟩
  · rcases levelOf_cases Params.reference mono with ⟨h, -⟩ | ⟨-, e⟩
    · exact absurd (List.length_eq_zero_iff.mp h) hne
    · rw [e]
      exact ⟨rmsOf_real_nonneg mono, rmsOf_real_le_peakOf hne⟩
  · rw [bins_real xw hk, dftSum_cos, dftSum_sin]

end Sys2Proof

/-! The band map of the reference semantics, which compares integers, is the formula over the real numbers (R200, R209). -/

namespace Sys2Proof

open NumF32 Machine

/-! ## `round` with halves away from zero (R201) -/

theorem round_away {x : ℝ} (h : 0 ≤ x) : NumReal.round .away x = ⌊x + 1 / 2⌋ := by
  have hf := Int.floor_add_fract x
  have h0 := Int.fract_nonneg x
  have h1 := Int.fract_lt_one x
  symm
  unfold NumReal.round
  simp only [h, if_true]
  split
  · rw [Int.floor_eq_iff]; constructor <;> linarith
  · rename_i hge
    have hge := not_lt.mp hge
    split <;> rw [Int.floor_eq_iff] <;> push_cast <;> constructor <;> linarith

/-! ## The comparison of powers is the comparison of logarithms -/

/-- `t·(B−1)` reaches `k − 1/2` for `t = ln(a/d)/ln(c/e)`. -/
theorem reaches_iff {a d c e k : Nat} (hd : 0 < d) (ha : 0 < a) (he : 0 < e) (hc : e < c) (hk : 0 < k) :
    reaches a d c e k = true ↔ (k : ℝ) ≤ Real.log ((a : ℝ) / d) / Real.log ((c : ℝ) / e) * 95 + 1 / 2 := by
  have har : (0 : ℝ) < a := by exact_mod_cast ha
  have hdr : (0 : ℝ) < d := by exact_mod_cast hd
  have her : (0 : ℝ) < e := by exact_mod_cast he
  have hcr : (0 : ℝ) < c := her.trans (by exact_mod_cast hc)
  have hM : 0 < Real.log ((c : ℝ) / e) := Real.log_pos ((one_lt_div her).mpr (by exact_mod_cast hc))
  have hle : reaches a d c e k = true ↔ c ^ (2 * k - 1) * d ^ 190 ≤ a ^ 190 * e ^ (2 * k - 1) := by
    have htie : (Config.roundTie == .away) = true := rfl
    simp only [reaches, htie, Bool.true_or, Bool.and_true, Bool.or_eq_true, decide_eq_true_eq, beq_iff_eq]
    exact le_iff_lt_or_eq.trans (or_congr_right eq_comm) |>.symm
  have hcast : c ^ (2 * k - 1) * d ^ 190 ≤ a ^ 190 * e ^ (2 * k - 1)
      ↔ (c : ℝ) ^ (2 * k - 1) * (d : ℝ) ^ 190 ≤ (a : ℝ) ^ 190 * (e : ℝ) ^ (2 * k - 1) := by exact_mod_cast Iff.rfl
  have hk1 : ((2 * k - 1 : Nat) : ℝ) = 2 * k - 1 := by rw [Nat.cast_sub (by omega)]; push_cast; ring
  have hlog : (c : ℝ) ^ (2 * k - 1) * (d : ℝ) ^ 190 ≤ (a : ℝ) ^ 190 * (e : ℝ) ^ (2 * k - 1)
      ↔ (2 * k - 1) * Real.log c + 190 * Real.log d ≤ 190 * Real.log a + (2 * k - 1) * Real.log e := by
    rw [← Real.log_le_log_iff (by positivity) (by positivity), Real.log_mul (by positivity) (by positivity),
      Real.log_mul (by positivity) (by positivity), Real.log_pow, Real.log_pow, Real.log_pow, Real.log_pow, hk1,
      Nat.cast_ofNat]
  rw [hle, hcast, hlog, div_mul_eq_mul_div, ← sub_le_iff_le_add (c := (1 / 2 : ℝ)), le_div_iff₀ hM,
    Real.log_div har.ne' hdr.ne', Real.log_div hcr.ne' her.ne']
  constructor <;> intro h <;> linarith

theorem length_filter_lt (n m : Nat) : ((List.range n).filter fun j => decide (j < m)).length = Min.min n m := by
  induction n with
  | zero => simp
  | succ n ih =>
    rw [List.range_succ, List.filter_append, List.length_append, ih]
    by_cases h : n < m
    · simp [h]; omega
    · simp [h]; omega

/-- How many bands are reached is the formula's rounded and clamped value. -/
theorem bandOfRatio_eq {a d c e : Nat} (hd : 0 < d) (ha : d ≤ a) (he : 0 < e) (hc : e < c) :
    bandOfRatio a d c e = bandEntry 96 (NumReal.round .away
      (dataReal.clamp01 (Real.log ((a : ℝ) / d) / Real.log ((c : ℝ) / e)) * 95)) := by
  have hM : 0 < Real.log ((c : ℝ) / e) := by
    refine Real.log_pos ((one_lt_div (by exact_mod_cast he)).mpr (by exact_mod_cast hc))
  have hL : 0 ≤ Real.log ((a : ℝ) / d) :=
    Real.log_nonneg ((one_le_div (by exact_mod_cast hd)).mpr (by exact_mod_cast ha))
  have hreach : ∀ j, reaches a d c e (j + 1)
      = decide (j < ⌊Real.log ((a : ℝ) / d) / Real.log ((c : ℝ) / e) * 95 + 1 / 2⌋₊) := by
    intro j
    rw [Bool.eq_iff_iff, reaches_iff hd (by omega) he hc (by omega), decide_eq_true_eq, Nat.lt_iff_add_one_le,
      Nat.le_floor_iff (by positivity)]
  have hcount : bandOfRatio a d c e
      = Min.min 95 ⌊Real.log ((a : ℝ) / d) / Real.log ((c : ℝ) / e) * 95 + 1 / 2⌋₊ := by
    rw [← length_filter_lt]
    simp only [bandOfRatio, hreach]
    rfl
  generalize hT : Real.log ((a : ℝ) / d) / Real.log ((c : ℝ) / e) = T at hcount
  have hT0 : 0 ≤ T := hT ▸ div_nonneg hL hM.le
  obtain ⟨t0, t1⟩ := clamp01_real_unit T
  rw [hcount, round_away (by positivity), bandEntry, Int.floor_toNat, min_comm]
  rcases le_or_gt T 1 with h | h
  · rw [clamp01_real, max_eq_left hT0, min_eq_left h]
  · have hclamp : dataReal.clamp01 T = 1 := by rw [clamp01_real, max_eq_left hT0, min_eq_right h.le]
    have h95 : 95 ≤ ⌊T * 95 + 1 / 2⌋₊ := Nat.le_floor (by push_cast; linarith)
    have h95' : 95 ≤ ⌊(1 : ℝ) * 95 + 1 / 2⌋₊ := Nat.le_floor (by norm_num)
    rw [hclamp, min_eq_right h95, min_eq_right h95']

/-! ## The data path's formulas as ratios of integers -/

/-- The ceiling of the scale over its floor (R125). -/
theorem fHi_real (rate : Nat) : dataReal.fHi rate / 20 = (twiceFHi rate : ℝ) / (2 * Config.fLoHz : Nat) := by
  have h : (twiceFHi rate : ℝ) = Min.min (rate : ℝ) 40000 := by
    unfold twiceFHi; exact_mod_cast (Nat.cast_min (α := ℝ) rate 40000)
  rw [h, DataPath.fHi]
  simp only [dataReal_min, dataReal_div, dataReal_ofInt, dataReal_fHiMax]
  push_cast
  rw [show (20000 : ℝ) = 40000 / 2 by norm_num, min_div_div_right (by norm_num : (0 : ℝ) ≤ 2)]
  ring

theorem bandOfFreq_real (rate : Nat) (f0 : ℝ) {a d : Nat} (hrate : 41 ≤ rate) (hd : 0 < d) (ha : d ≤ a)
    (h : Max.max f0 20 / 20 = (a : ℝ) / d) :
    dataReal.bandOfFreq (dataReal.fHi rate) f0 = bandOfRatio a d (twiceFHi rate) (2 * Config.fLoHz) := by
  have hc : 2 * Config.fLoHz < twiceFHi rate := by
    unfold twiceFHi; show 2 * 20 < Min.min rate (2 * 20000); omega
  rw [bandOfRatio_eq hd ha (by decide) hc, ← h, ← fHi_real]
  rfl

/-- A frequency `x/y`, not below the scale's floor, over the floor. -/
theorem frequency_ratio (x : Nat) {y : Nat} (hy : 0 < y) :
    Max.max ((x : ℝ) / y) 20 / 20 = ((Nat.max x (20 * y) : Nat) : ℝ) / (20 * y : Nat) := by
  have hyr : (0 : ℝ) < y := by exact_mod_cast hy
  have h : ((Nat.max x (20 * y) : Nat) : ℝ) = Max.max (x : ℝ) (20 * y) := by
    exact_mod_cast (Nat.cast_max (α := ℝ) x (20 * y))
  rw [h, show (20 : ℝ) = 20 * y / y by field_simp, max_div_div_right hyr.le]
  push_cast; field_simp

/-- Settles O17: the logarithms compare as the integer powers do, and half away from zero is a floor. -/
theorem referenceBandMapIsTheExactOne : Obligations.ReferenceBandMapIsTheExactOne := by
  intro rate hrate
  refine ⟨fun i _ => ?_, fun num den hden => ?_⟩
  · refine bandOfFreq_real rate _ hrate (by decide) (le_max_right _ _) ?_
    rw [show Config.fftSize * Config.fLoHz = 20 * 1024 from rfl]
    refine Eq.trans ?_ (frequency_ratio (i * rate) (y := 1024) (by decide))
    simp
  · refine bandOfFreq_real rate _ hrate (Nat.mul_pos (by decide) hden) (le_max_right _ _) ?_
    exact frequency_ratio num hden

end Sys2Proof

/-! Every step keeps the values the block holds in their range (R145, R227, R38 d): first of any machine and any range that its
data path keeps, then of the two ranges of binary32 images and of the real numbers. -/

namespace Sys2Proof.Machine

variable {α : Type} {p : Params α} {r : Range α} {s t : State α}

/-! ## What a data path must keep -/

/-- A batch with these mono samples leaves every value in its range. -/
structure BatchInRange (p : Params α) (r : Range α) (mono : List α) : Prop where
  samples : ∀ m ∈ mono, r.sample m
  meter   : r.meter (p.data.sumSquares mono) ∧ r.meter (p.data.peakOf mono)
  level   : r.level (levelOf p mono).rms ∧ r.level (levelOf p mono).peak

/-- The reset values are in range, and an analysis step keeps the range of the filters. -/
structure KeepsRange (p : Params α) (r : Range α) : Prop where
  zero       : r.meter p.data.zero ∧ r.level p.data.zero
  smoothInit : r.unit p.data.smoothInit
  analysis   : ∀ (bandmap : List Nat) (x smDb smLin : List α), (∀ m ∈ x, r.sample m) → (∀ v ∈ smDb ++ smLin, r.unit v) →
    ∀ v ∈ (analysis p bandmap x smDb smLin).bands ++ (analysis p bandmap x smDb smLin).bandsLinear, r.unit v

/-- The source's turn takes a `BATCH` with these raw samples, of the header's count `n`. -/
def State.Takes (s : State α) (n : Nat) (words : List Word) : Prop :=
  (s.srcRx = .held (.batch n) ∧ words = s.srcIn.take n)
    ∨ ∃ w rest, s.srcRx = .header ∧ s.srcIn = w :: rest ∧ decode .src w = .ok (.batch n) ∧ words = rest.take n

/-- The mono samples of a batch with these raw samples. -/
def State.monoOf (p : Params α) (s : State α) (words : List Word) : List α :=
  p.data.downmix s.channels.toNat s.encoding (words.length / s.channels.toNat) s.fresh words

/-! ## Every transition -/

theorem resetBlock_dataInv (keeps : KeepsRange p r) : (resetBlock p s).DataInv r where
  mono := by simp [State.resetAt]
  queued := by simp [State.resetAt]
  ring := by simp [State.resetAt]
  meter := ⟨keeps.zero.1, keeps.zero.1⟩
  level := ⟨keeps.zero.2, keeps.zero.2⟩
  levels := by simp [State.resetAt]
  filters := fun v hv => by
    rcases List.mem_append.mp hv with hv | hv <;> rw [List.eq_of_mem_replicate hv] <;> exact keeps.smoothInit
  snapshots := by simp [State.resetAt]

/-- The schedule and the free values hold nothing of the range. -/
theorem State.DataInv.turned (h : s.DataInv r) (turns : List Move) (fresh : Nat) :
    ({ s with turns, fresh } : State α).DataInv r :=
  { h with }

theorem State.DataInv.afterDmx (h : s.DataInv r) {raw : List Word} (hb : BatchInRange p r (s.monoOf p raw)) :
    (capDmx p raw s).DataInv r :=
  { h with mono := hb.samples, meter := hb.meter, level := hb.level }

theorem State.DataInv.afterPubl (h : s.DataInv r) : (capPubl p s).DataInv r :=
  { h with
    levels := fun l hl => by
      rcases mem_fifoTryPush hl with hl | rfl
      · exact h.levels l hl
      · exact h.level }

theorem State.DataInv.afterPubf (h : s.DataInv r) : (capPubf p s).DataInv r :=
  { h with
    queued := fun b hb => by
      rcases mem_fifoTryPush hb with hb | rfl
      · exact h.queued b hb
      · exact h.mono }

theorem State.DataInv.afterRecv (h : s.DataInv r) {batch : List α} {rest : List (List α)} (queue : s.fq = batch :: rest) :
    (anaRecv p batch rest s).DataInv r :=
  { h with
    queued := fun b hb => h.queued b (by rw [queue]; exact List.mem_cons_of_mem _ hb)
    ring := fun m hm => by
      rcases List.mem_append.mp hm with hm | hm
      · exact h.ring m hm
      · exact h.queued batch (by rw [queue]; exact List.mem_cons_self) m hm }

theorem State.DataInv.afterPass (h : s.DataInv r) (keeps : KeepsRange p r) :
    (anaPass p (ringPeek p.data.fftSize s.ring) s).DataInv r := by
  have hnew := keeps.analysis s.bandmap (ringPeek p.data.fftSize s.ring) s.smDb s.smLin
    (fun m hm => h.ring m (List.mem_of_mem_take hm)) h.filters
  exact { h with
    ring := fun m hm => h.ring m (List.mem_of_mem_drop hm)
    filters := hnew
    snapshots := fun snap hs => by
      rcases mem_fifoTryPush hs with hs | rfl
      · exact h.snapshots snap hs
      · exact hnew }

theorem State.DataInv.popped (h : s.DataInv r) {lq : List (Level α)} {sq : List (Snapshot α)} {conOut : List Word}
    (hl : lq.Sublist s.lq) (hs : sq.Sublist s.sq) : ({ s with lq, sq, conOut } : State α).DataInv r :=
  { h with
    levels := fun l hm => h.levels l (hl.subset hm)
    snapshots := fun snap hm => h.snapshots snap (hs.subset hm) }

theorem State.DataInv.ran (h : s.DataInv r) {i : Instr} (ran : Ran p i s t)
    (hbatch : ∀ n, i = .batch n → s.cfgOk = true → BatchInRange p r (s.monoOf p (s.srcIn.take n))) : t.DataInv r := by
  cases ran with
  | held | refused | cfgDone | closed | register | noRegister => exact { h with }
  | cfgFailed channels enc rate rest s e ready words cfgOk cfgErr isOpen error =>
    rcases error with rfl | rfl | rfl <;> exact { h with }
  | batch n s ready cfgOk cfgErr isOpen words =>
    exact State.DataInv.afterDmx (s := { s with srcIn := s.srcIn.drop n, srcRx := .header }) { h with } (hbatch n rfl cfgOk)
  | lvlPop s => exact h.popped (fifoTryPop_sublist _) (List.Sublist.refl _)
  | lvlLatest s => exact h.popped (List.nil_sublist _) (List.Sublist.refl _)
  | spcPop s => exact h.popped (List.Sublist.refl _) (fifoTryPop_sublist _)
  | spcLatest s => exact h.popped (List.Sublist.refl _) (List.nil_sublist _)

/-- A turn of any mover keeps the ranges, if the batch that the source's turn takes does. -/
theorem State.DataInv.moved (h : s.DataInv r) (keeps : KeepsRange p r) {m : Move} (hm : Moved p m s t)
    (hbatch : ∀ n words, s.Takes n words → s.cfgOk = true → BatchInRange p r (s.monoOf p words)) : t.DataInv r := by
  cases hm with
  | idleSrc | idleCon | idleCap | idleAna => exact h
  | discarded | headerIllegal | conIllegal | exited | aborted => exact { h with }
  | heldRan i s t ready held ran =>
    exact h.ran ran fun n hi cfgOk => hbatch n _ (.inl ⟨hi ▸ held, rfl⟩) cfgOk
  | headerRan w rest i s t ready header words decoded ran =>
    exact State.DataInv.ran (s := { s with srcIn := rest }) { h with } ran
      fun n hi cfgOk => hbatch n _ (.inr ⟨w, rest, header, words, hi ▸ decoded, rfl⟩) cfgOk
  | conRan w rest i s t words decoded ran =>
    refine State.DataInv.ran (s := { s with conIn := rest }) { h with } ran fun n hi _ => ?_
    have := decode_port decoded
    rw [hi] at this
    cases this
  | publ => exact h.afterPubl
  | pubf => exact h.afterPubf
  | received b rest s phase queue => exact h.afterRecv queue
  | passed => exact h.afterPass keeps
  | reset => exact resetBlock_dataInv keeps

/-! ## The note of a stray sample -/

theorem strayed_of_ran {i : Instr} (ran : Ran p i s t)
    (hbatch : ∀ n, i = .batch n → s.cfgOk = true → strays s.encoding (s.srcIn.take n) = false) (h : s.strayed = false) :
    t.strayed = false := by
  cases ran with
  | held | refused | cfgDone | closed | register | noRegister | lvlPop | lvlLatest | spcPop | spcLatest => exact h
  | cfgFailed channels enc rate rest s e ready words cfgOk cfgErr isOpen error =>
    rcases error with rfl | rfl | rfl <;> exact h
  | batch n s ready cfgOk cfgErr isOpen words =>
    rw [capDmx_strayed]
    exact Bool.or_eq_false_iff.mpr ⟨h, hbatch n rfl cfgOk⟩

theorem strayed_of_moved {m : Move} (hm : Moved p m s t)
    (hbatch : ∀ n words, s.Takes n words → s.cfgOk = true → strays s.encoding words = false) (h : s.strayed = false) :
    t.strayed = false := by
  cases hm with
  | idleSrc | idleCon | idleCap | idleAna | discarded | headerIllegal | conIllegal | exited | aborted | publ | pubf
  | received | passed => exact h
  | heldRan i s t ready held ran =>
    exact strayed_of_ran ran (fun n hi cfgOk => hbatch n _ (.inl ⟨hi ▸ held, rfl⟩) cfgOk) h
  | headerRan w rest i s t ready header words decoded ran =>
    exact strayed_of_ran ran (fun n hi cfgOk => hbatch n _ (.inr ⟨w, rest, header, words, hi ▸ decoded, rfl⟩) cfgOk) h
  | conRan w rest i s t words decoded ran =>
    refine strayed_of_ran ran (fun n hi _ => ?_) h
    have := decode_port decoded
    rw [hi] at this
    cases this
  | reset => rfl

end Sys2Proof.Machine

/-! The ranges of binary32 images and of the real numbers are kept. -/

namespace Sys2Proof

open NumF32 Machine

/-! ## Samples (R141, R143) -/

theorem toInt_minusOne : toInt 0xBF800000#32 = -one := by decide

theorem isFinite_of_normalized {a : F32} (h : normalized a = true) : isFinite a = true := ((normalized_iff a).mp h).1

/-- A 16-bit sample lies in [−1, 1]. -/
theorem normalized_sampleOfInt {z : Int} (lo : -32768 ≤ z) (hi : z ≤ 32768) : normalized (sampleOfInt z) = true := by
  have hp : (0 : Int) < one := by positivity
  have hr : Rounds (z * one) 32768 (sampleOfInt z) := by
    refine ⟨decide (z < 0), ⟨fun h => ?_, fun h => ?_⟩, ?_⟩
    · exact decide_eq_true (neg_of_mul_neg_left h hp.le)
    · exact decide_eq_false (pos_of_mul_pos_left h hp.le).not_gt
    · rw [Int.natAbs_mul, Int.natAbs_natCast]; rfl
  have := hr.between (lo := 0xBF800000#32) (hi := 0x3F800000#32) (by decide) (by decide) (by decide)
    (by rw [toInt_minusOne]; push_cast; nlinarith) (by rw [toInt_one]; push_cast; nlinarith)
  rw [toInt_minusOne, toInt_one] at this
  exact (normalized_iff _).mpr this

/-- What a raw sample is converted to under a legal encoding keeps the source's promise, or lies in [−1, 1]. -/
theorem conv_cases {enc : BitVec 8} (henc : enc.toNat ≤ 2) {w : Word} (hw : enc = 0 → isFinite w = true) (free : F32) :
    (enc = 0 ∧ conv enc w free = w) ∨ normalized (conv enc w free) = true := by
  have hcases : enc = 0 ∨ enc = 1 ∨ enc = 2 := by
    have : enc.toNat = 0 ∨ enc.toNat = 1 ∨ enc.toNat = 2 := by omega
    rcases this with h | h | h
    · exact .inl (BitVec.eq_of_toNat_eq h)
    · exact .inr (.inl (BitVec.eq_of_toNat_eq h))
    · exact .inr (.inr (BitVec.eq_of_toNat_eq h))
  have hlo := BitVec.two_mul_toInt_lt (x := w.extractLsb' 0 16)
  have hhi := BitVec.le_two_mul_toInt (x := w.extractLsb' 0 16)
  have hlt := (w.extractLsb' 0 16).isLt
  rcases hcases with rfl | rfl | rfl
  · exact .inl ⟨rfl, by simp [conv, hw rfl]⟩
  · exact .inr (normalized_sampleOfInt (by omega) (by omega))
  · exact .inr (normalized_sampleOfInt (by omega) (by omega))

/-- A frame's mono sample is half the sum of its left and right value (R143). -/
theorem dmxFrame_eq (c : Nat) (enc : BitVec 8) (base : Nat) (raw : List Word) : dataF32.dmxFrame c enc base raw
    = NumF32.mul 0x3F000000#32 (NumF32.add (conv enc (raw.getD 0 0) (Config.freeSample base))
        (if 1 < c then conv enc (raw.getD 1 0) (Config.freeSample (base + 1)) else 0x00000000#32)) := by
  rw [DataPath.dmxFrame, dataF32_half, dataF32_zero]; rfl

/-- Half a sum of finite values is not a NaN. -/
theorem isNaN_half_add {a b : F32} (ha : isFinite a = true) (hb : isFinite b = true) :
    isNaN (NumF32.mul 0x3F000000#32 (NumF32.add a b)) = false :=
  isNaN_mul_left (by decide) (by decide) (isNaN_add (isNaN_of_isFinite ha) hb)

/-- Half a sum of values in [−1, 1] lies in [−1, 1]. -/
theorem normalized_half_add {a b : F32} (ha : normalized a = true) (hb : normalized b = true) :
    normalized (NumF32.mul 0x3F000000#32 (NumF32.add a b)) = true := by
  obtain ⟨fa, a0, a1⟩ := (normalized_iff a).mp ha
  obtain ⟨fb, b0, b1⟩ := (normalized_iff b).mp hb
  have h2 : toInt 0x40000000#32 = 2 * one := by decide
  have hm2 : toInt 0xC0000000#32 = -(2 * one) := by decide
  have hhalf : 2 * toInt 0x3F000000#32 = one := by decide
  have hp : (0 : Int) < one := by positivity
  obtain ⟨fs, s0, s1⟩ := (add_rounds fa fb).between (lo := 0xC0000000#32) (hi := 0x40000000#32) (by decide) (by decide) (by decide)
    (by rw [hm2, Nat.cast_one]; linarith) (by rw [h2, Nat.cast_one]; linarith)
  rw [h2] at s1
  rw [hm2] at s0
  have := (mul_rounds (a := 0x3F000000#32) (by decide) fs).between (lo := 0xBF800000#32) (hi := 0x3F800000#32) (by positivity)
    (by decide) (by decide) (by rw [toInt_minusOne]; nlinarith) (by rw [toInt_one]; nlinarith)
  rw [toInt_minusOne, toInt_one] at this
  exact (normalized_iff _).mpr this

/-- The words of a frame's samples are words of the payload, or 0. -/
theorem getD_drop {raw : List Word} {P : Word → Prop} (h0 : P 0) (h : ∀ w ∈ raw, P w) (k i : Nat) :
    P ((raw.drop k).getD i 0) := by
  rw [List.getD_eq_getElem?_getD, List.getElem?_drop]
  cases e : raw[k + i]? with
  | none => exact h0
  | some w => exact h w (List.mem_of_getElem? e)

theorem mem_downmix {d : DataPath F32} {c : Nat} {enc : BitVec 8} {frames base : Nat} {raw : List Word} {m : F32}
    (h : m ∈ d.downmix c enc frames base raw) : ∃ k, m = d.dmxFrame c enc (base + k * c) (raw.drop (k * c)) := by
  obtain ⟨k, hk⟩ := List.mem_iff_getElem?.mp h
  have hlt : k < frames := by
    rw [← downmix_length d c enc frames base raw]; exact (List.getElem?_eq_some_iff.mp hk).1
  rw [downmix_getElem? d c enc frames base raw k hlt] at hk
  exact ⟨k, (Option.some.inj hk).symm⟩

/-- The mono samples of finite words are not NaNs. -/
theorem isNaN_of_mem_downmix {c : Nat} {enc : BitVec 8} {frames base : Nat} {raw : List Word} (henc : enc.toNat ≤ 2)
    (hraw : enc = 0 → ∀ w ∈ raw, isFinite w = true) {m : F32} (h : m ∈ dataF32.downmix c enc frames base raw) :
    isNaN m = false := by
  obtain ⟨k, rfl⟩ := mem_downmix h
  have hword : ∀ i free, isFinite (conv enc ((raw.drop (k * c)).getD i 0) free) = true := by
    intro i free
    have hw : enc = 0 → isFinite ((raw.drop (k * c)).getD i 0) = true := fun he => getD_drop (by decide) (hraw he) _ _
    rcases conv_cases henc hw free with ⟨he, e⟩ | hn
    · rw [e]; exact hw he
    · exact isFinite_of_normalized hn
  rw [dmxFrame_eq]
  refine isNaN_half_add (hword _ _) ?_
  split
  · exact hword _ _
  · decide

/-- The mono samples of words in [−1, 1] lie in [−1, 1]. -/
theorem normalized_of_mem_downmix {c : Nat} {enc : BitVec 8} {frames base : Nat} {raw : List Word} (henc : enc.toNat ≤ 2)
    (hraw : enc = 0 → ∀ w ∈ raw, normalized w = true) {m : F32} (h : m ∈ dataF32.downmix c enc frames base raw) :
    normalized m = true := by
  obtain ⟨k, rfl⟩ := mem_downmix h
  have hword : ∀ i free, normalized (conv enc ((raw.drop (k * c)).getD i 0) free) = true := by
    intro i free
    have hw : enc = 0 → normalized ((raw.drop (k * c)).getD i 0) = true := fun he => getD_drop (by decide) (hraw he) _ _
    rcases conv_cases henc (fun he => isFinite_of_normalized (hw he)) free with ⟨he, e⟩ | hn
    · rw [e]; exact hw he
    · exact hn
  rw [dmxFrame_eq]
  refine normalized_half_add (hword _ _) ?_
  split
  · exact hword _ _
  · decide

/-! ## The filters -/

/-- The new level of a band is in [0, 1] unless a sample of the window is a NaN (log 20). -/
theorem inUnit_outBand {x : List F32} (hx : ∀ m ∈ x, isNaN m = false) (b : Nat) (which : Config.Representation) (v : F32) :
    inUnit (dataF32.outBand x b which v) = true := by
  have hany : x.any isNaN = false := List.any_eq_false.mpr fun m hm => by simp [hx m hm]
  have hlt := (Config.outBand x b which).isLt
  rw [dataF32_outBand, NumF32.outBand, hany, Bool.or_false]
  split
  · assumption
  · have hm : (Config.outBand x b which : Nat) < 2 ^ 31 := by omega
    have hle : magImg (Config.outBand x b which) ≤ one := by
      have h1 : magImg 0x3F800000 = one := by decide
      rw [← h1]; exact magImg_strictMono.monotone (Nat.le_of_lt_succ hlt)
    refine (inUnit_iff _).mpr ⟨isFinite_pack false (by omega), ?_⟩
    rw [toInt_pack false hm, if_neg Bool.false_ne_true]
    exact ⟨by positivity, by exact_mod_cast hle⟩

/-- Every value of an advanced filter is the filter of a new level and of a value it held, or 0. -/
theorem mem_smoothAll {α : Type} {d : DataPath α} {new : Nat → α} {previous : List α} {P : α → Prop} {v : α}
    (h : v ∈ d.smoothAll new previous) (h0 : P d.zero) (hp : ∀ u ∈ previous, P u) :
    ∃ b u, P u ∧ v = d.smooth (new b) u := by
  obtain ⟨b, -, rfl⟩ := List.mem_map.mp h
  refine ⟨b, _, ?_, rfl⟩
  rw [List.getD_eq_getElem?_getD]
  cases e : previous[b]? with
  | none => exact h0
  | some u => exact hp u (List.mem_of_getElem? e)

/-- An analysis step keeps a range of the filters that has 0, every new level, and every filter of two of its values. -/
theorem analysis_keeps {α : Type} {p : Params α} {P : α → Prop} {bandmap : List Nat} {x smDb smLin : List α}
    (h0 : P p.data.zero) (hsmooth : ∀ a b, P a → P b → P (p.data.smooth a b))
    (hdb : ∀ power b, P (p.data.newDb bandmap x power b)) (hlin : ∀ power b, P (p.data.newLin bandmap x power b))
    (hf : ∀ v ∈ smDb ++ smLin, P v) :
    ∀ v ∈ (analysis p bandmap x smDb smLin).bands ++ (analysis p bandmap x smDb smLin).bandsLinear, P v := by
  intro v hv
  rcases List.mem_append.mp hv with hv | hv
  · obtain ⟨b, u, hu, rfl⟩ := mem_smoothAll hv h0 fun u hu => hf u (List.mem_append_left _ hu)
    exact hsmooth _ _ (hdb _ _) hu
  · obtain ⟨b, u, hu, rfl⟩ := mem_smoothAll hv h0 fun u hu => hf u (List.mem_append_right _ hu)
    exact hsmooth _ _ (hlin _ _) hu

theorem analysis_inUnit {bandmap : List Nat} {x smDb smLin : List F32} (hx : ∀ m ∈ x, isNaN m = false)
    (hf : ∀ v ∈ smDb ++ smLin, inUnit v = true) :
    ∀ v ∈ (analysis Params.default bandmap x smDb smLin).bands ++ (analysis Params.default bandmap x smDb smLin).bandsLinear,
      inUnit v = true :=
  analysis_keeps (P := fun v => inUnit v = true) (by rw [default_data, dataF32_zero]; decide)
    (fun _ _ => smooth_inUnit) (fun _ _ => inUnit_outBand hx _ _ _) (fun _ _ => inUnit_outBand hx _ _ _) hf

/-! ## The three ranges are kept -/

theorem keepsRange_f32 : KeepsRange Params.default Range.f32 where
  zero := by rw [default_data, dataF32_zero]; exact ⟨Tests.zero_nonneg.1, Tests.zero_nonneg.1⟩
  smoothInit := Tests.zero_nonneg.2
  analysis := fun _ _ _ _ hx hf => analysis_inUnit hx hf

theorem keepsRange_f32Normalized : KeepsRange Params.default Range.f32Normalized where
  zero := by rw [default_data, dataF32_zero]; exact Tests.zero_nonneg
  smoothInit := Tests.zero_nonneg.2
  analysis := fun _ _ _ _ hx hf => analysis_inUnit (fun m hm => isNaN_of_isFinite (isFinite_of_normalized (hx m hm))) hf

theorem newLevel_real_unit (bandmap : List Nat) (x power : List ℝ) (b : Nat) :
    (0 ≤ dataReal.newDb bandmap x power b ∧ dataReal.newDb bandmap x power b ≤ 1)
      ∧ 0 ≤ dataReal.newLin bandmap x power b ∧ dataReal.newLin bandmap x power b ≤ 1 := by
  refine ⟨?_, clamp01_real_unit _⟩
  show 0 ≤ dataReal.dbLevel _ ∧ dataReal.dbLevel _ ≤ 1
  unfold DataPath.dbLevel
  split
  · exact clamp01_real_unit _
  · rw [dataReal_zero]; exact ⟨le_rfl, zero_le_one⟩

theorem keepsRange_real : KeepsRange Params.reference Range.real where
  zero := ⟨dataReal_zero.ge, dataReal_zero.ge⟩
  smoothInit := ⟨le_rfl, zero_le_one⟩
  analysis := fun bandmap x _ _ _ hf =>
    analysis_keeps (p := Params.reference) (P := fun v : ℝ => 0 ≤ v ∧ v ≤ 1) ⟨dataReal_zero.ge, dataReal_zero.trans_le zero_le_one⟩
      (fun _ _ => smooth_real_unit) (fun power b => (newLevel_real_unit bandmap x power b).1)
      (fun power b => (newLevel_real_unit bandmap x power b).2) hf

/-- Every batch of real numbers is in range. -/
theorem batchInRange_real (mono : List ℝ) : BatchInRange Params.reference Range.real mono where
  samples := fun _ _ => trivial
  meter := by
    refine ⟨?_, peakOf_real_nonneg mono⟩
    show 0 ≤ dataReal.sumSquares mono
    rw [sumSquares_real]
    exact List.sum_nonneg fun x hx => by obtain ⟨m, -, rfl⟩ := List.mem_map.mp hx; exact mul_self_nonneg m
  level := by
    rcases levelOf_cases Params.reference mono with ⟨-, e⟩ | ⟨-, e⟩ <;> rw [e]
    · exact ⟨dataReal_zero.ge, dataReal_zero.ge⟩
    · exact ⟨rmsOf_real_nonneg mono, peakOf_real_nonneg mono⟩

theorem batchInRange_f32 {mono : List F32} (h : ∀ m ∈ mono, isNaN m = false) (hlen : mono.length < 2 ^ 24) :
    BatchInRange Params.default Range.f32 mono :=
  ⟨h, ⟨nonneg_sumSquares h, nonneg_peakOf h⟩, nonneg_levelOf h hlen⟩

theorem batchInRange_f32Normalized {mono : List F32} (h : ∀ m ∈ mono, normalized m = true) (hlen : mono.length < 2 ^ 24) :
    BatchInRange Params.default Range.f32Normalized mono :=
  have hn : ∀ m ∈ mono, isNaN m = false := fun m hm => isNaN_of_isFinite (isFinite_of_normalized (h m hm))
  ⟨h, ⟨nonneg_sumSquares hn, nonneg_peakOf hn⟩, inUnit_levelOf h hlen⟩

/-! ## The batch that the source's turn takes -/

section
variable {s : State} {n : Nat} {words : List Word}

/-- Its raw samples are those the promise of the source speaks of. -/
theorem incomingSamples_of_takes (h : s.Takes n words) : s.incomingSamples = words := by
  rcases h with ⟨hrx, rfl⟩ | ⟨w, rest, hrx, hin, hdec, rfl⟩
  · simp [State.incomingSamples, hrx, Instr.samples]
  · simp [State.incomingSamples, hrx, hin, hdec, Instr.samples]

/-- The header's count has 24 bits. -/
theorem length_of_takes (h : s.Takes n words) (inv : s.Inv Params.default) : words.length < 2 ^ 24 := by
  have hfits : (Instr.batch n).wellFormed = true := by
    rcases h with ⟨hrx, -⟩ | ⟨w, rest, -, -, hdec, -⟩
    · exact (inv.port.held _ hrx).1
    · exact decode_wellFormed hdec
  have hn : n < 2 ^ 24 := by simpa [Instr.wellFormed] using hfits
  have hle : words.length ≤ n := by
    rcases h with ⟨-, rfl⟩ | ⟨w, rest, -, -, -, rfl⟩ <;> exact List.length_take_le _ _
  omega

theorem monoOf_length_lt (h : s.Takes n words) (inv : s.Inv Params.default) :
    (s.monoOf Params.default words).length < 2 ^ 24 := by
  rw [State.monoOf, downmix_length]
  exact (Nat.div_le_self _ _).trans_lt (length_of_takes h inv)

/-- Under the promise of finite samples nothing strays. -/
theorem strays_of_promise (h : ∀ w ∈ words, s.encoding = 0 → isFinite w = true) : strays s.encoding words = false := by
  unfold strays
  by_cases he : s.encoding = 0
  · exact Bool.and_eq_false_iff.mpr (.inr (List.any_eq_false.mpr fun w hw => by simp [h w hw he]))
  · exact Bool.and_eq_false_iff.mpr (.inl (beq_eq_false_iff_ne.mpr he))

end

/-- One step from a state with both invariants, under a promise that makes the batches in range and finite. -/
theorem step_dataInv {r : Range F32} (keeps : KeepsRange Params.default r) {promise : F32 → Bool}
    (hfinite : ∀ w, promise w = true → isFinite w = true)
    (hbatch : ∀ (s : State) (n : Nat) (words : List Word), s.Inv Params.default → s.Takes n words → s.encoding.toNat ≤ 2 →
      (s.encoding = 0 → ∀ w ∈ words, promise w = true) → BatchInRange Params.default r (s.monoOf Params.default words))
    {s t : State} (inv : s.Inv Params.default) (data : s.DataInv r) (input : s.InputMeets promise) (hstep : step s = .next t) :
    t.DataInv r ∧ (s.strayed = false → t.strayed = false) := by
  obtain ⟨ts, fr, hm⟩ := step_moved hstep
  have inv' := inv.io s.srcIn s.conIn s.conOut ts fr
  have hwords : ∀ n words, State.Takes { s with turns := ts, fresh := fr } n words → s.cfgOk = true → s.encoding = 0 →
      ∀ w ∈ words, promise w = true := by
    intro n words ht hok henc
    have hin : s.incomingSamples = words := incomingSamples_of_takes (s := { s with turns := ts, fresh := fr }) ht
    exact hin ▸ input hok henc
  constructor
  · refine (data.turned ts fr).moved keeps hm fun n words ht hok => ?_
    exact hbatch _ n words inv' ht (inv.configured hok).encoding (hwords n words ht hok)
  · refine strayed_of_moved (s := { s with turns := ts, fresh := fr }) hm fun n words ht hok => ?_
    exact strays_of_promise fun w hw henc => hfinite w (hwords n words ht hok henc w hw)

/-- Settles O45: every transition keeps a range that its data path keeps, and the three ranges are such. -/
theorem everyStepKeepsTheDataInvariant : Obligations.EveryStepKeepsTheDataInvariant := by
  refine ⟨fun s t inv data input hstep => ?_, fun s t inv data input hstep => ?_, fun s t data hstep => ?_⟩
  · refine step_dataInv keepsRange_f32 (fun w h => h) (fun s n words inv ht henc hw => ?_) inv data input hstep
    exact batchInRange_f32 (fun m hm => isNaN_of_mem_downmix henc hw hm) (monoOf_length_lt ht inv)
  · refine step_dataInv keepsRange_f32Normalized (fun w h => isFinite_of_normalized h) (fun s n words inv ht henc hw => ?_)
      inv data input hstep
    exact batchInRange_f32Normalized (fun m hm => normalized_of_mem_downmix henc hw hm) (monoOf_length_lt ht inv)
  · obtain ⟨ts, fr, hm⟩ := stepAt_moved hstep
    exact (data.turned ts fr).moved keepsRange_real hm fun _ _ _ _ => batchInRange_real _

end Sys2Proof

/-! The turns of the parties: what they run, and what they leave alone (R4, R19, R73, R120, R271). -/

namespace Sys2Proof.Machine

variable {α : Type} {p : Params α} {s t : State α}

/-! ## What a turn runs -/

/-- A legal source command whose payload has not all arrived is held (R34). -/
theorem runSource_held {i : Instr} (run : List Word → State α → State α) (ready : s.capPhase = .ready)
    (short : s.srcIn.length < i.payloadWords) : runSource i false run s = holdCommand i s := by
  simp [runSource, ready, short]

/-- A turn of the source with a header at the front of its port (R73). -/
theorem stepSrc_header (run : Runner α) {w : Word} {rest : List Word} {i : Instr} (ready : s.capPhase = .ready)
    (header : s.srcRx = .header) (words : s.srcIn = w :: rest) (decoded : decode .src w = .ok i) :
    stepSrc run s = run i { s with srcIn := rest } := by
  simp [stepSrc, acceptSource, ready, header, words, decoded]

/-- A turn of the source with a held command (R34). -/
theorem stepSrc_held (run : Runner α) {i : Instr} (ready : s.capPhase = .ready) (held : s.srcRx = .held i) :
    stepSrc run s = run i s := by
  simp [stepSrc, ready, held]

/-- A turn of the source while a batch is in progress (R19). -/
theorem stepSrc_busy (run : Runner α) (busy : s.capPhase ≠ .ready) : stepSrc run s = .next s := by
  simp [stepSrc, busy]

/-- A turn of the consumer with a header at the front of its port (R235). -/
theorem stepCon_header (run : Runner α) {w : Word} {rest : List Word} {i : Instr} (words : s.conIn = w :: rest)
    (decoded : decode .con w = .ok i) : stepCon run s = run i { s with conIn := rest } := by
  simp [stepCon, acceptConsumer, words, decoded]

/-- Settles O5: by the turns of the two parties, and what the receive side of port SRC holds. -/
theorem turnRunsTheDecodedCommand : Obligations.TurnRunsTheDecodedCommand := by
  refine ⟨fun s ts w rest i turn ready header words decoded => ?_, fun s ts i turn ready held => ?_,
    fun s ts w rest i turn words decoded => ?_, fun s i ready isOpen cfgErr legal short => ?_⟩
  · rw [step_of_src turn]; exact stepSrc_header exec ready header words decoded
  · rw [step_of_src turn]; exact stepSrc_held exec ready held
  · rw [step_of_con turn]; exact stepCon_header exec words decoded
  · rcases legal with ⟨⟨channels, enc, rfl⟩, cfgOk⟩ | ⟨⟨n, rfl⟩, cfgOk⟩
    · have hr : s.refusesCfg = false := by simp [State.refusesCfg, cfgOk, cfgErr, isOpen]
      rw [exec_eq, execAt, runCfg, hr, runSource_held _ ready short]; rfl
    · have hr : s.refusesBatch = false := by simp [State.refusesBatch, cfgOk, cfgErr, isOpen]
      rw [exec_eq, execAt, runBatch, hr, runSource_held _ ready short]; rfl

/-! ## The capture context in a batch -/

/-- After a batch's level comes its mono batch, and then the port is ready (R128, R129). -/
theorem stepCap_phase (p : Params α) (s : State α) : (stepCap p s).capPhase = match s.capPhase with
    | .ready => .ready
    | .pubLevel => .pubFrame
    | .pubFrame => .ready := by
  rcases stepCap_cases p s with ⟨h, e⟩ | ⟨h, e⟩ | ⟨h, e⟩ <;> rw [e, h]
  · exact capPubl_capPhase s p
  · exact capPubf_capPhase s p

/-- Settles O57: the source's turn is idle in a batch, and the capture turns go through the phases in their order. -/
theorem sourceWaitsForTheBatch : Obligations.SourceWaitsForTheBatch := by
  intro s ts busy
  refine ⟨fun turn => by rw [step_of_src turn]; exact stepSrc_busy exec busy, ?_⟩
  simp only [stepCap_phase]
  cases h : s.capPhase with
  | ready => exact absurd h busy
  | pubLevel => simp
  | pubFrame => simp

/-! ## What a turn leaves alone (R4, R271) -/

/-- The consumer writes the two FIFOs it reads, its port and `STATUS`. -/
theorem moved_con_frame (hm : Moved p .con s t) : t = { s with
    lq := t.lq, sq := t.sq, conOut := t.conOut, status := t.status, conIn := t.conIn, turns := t.turns, fresh := t.fresh } := by
  cases hm with
  | idleCon | conIllegal => rfl
  | conRan w rest i s t words decoded ran =>
    have hport := decode_port decoded
    cases ran with
    | held i s src | refused i s src => rw [src] at hport; cases hport
    | cfgFailed | cfgDone | batch | closed => cases hport
    | lvlPop | lvlLatest | spcPop | spcLatest | register | noRegister => rfl

/-- The analyzer writes its own state, the two FIFOs it uses and `STATUS`. -/
theorem moved_ana_frame (hm : Moved p .ana s t) : t = { s with
    fq := t.fq, ring := t.ring, smDb := t.smDb, smLin := t.smLin, sq := t.sq, anaPhase := t.anaPhase, status := t.status
    turns := t.turns, fresh := t.fresh } := by
  cases hm with
  | idleAna | received | exited | passed | aborted => rfl

/-- What the source's turn leaves alone: port CON, the FIFOs, and the samples and filters of the analyzer. -/
structure SourceFrame (s t : State α) : Prop where
  port     : t.conOut = s.conOut ∧ t.conIn = s.conIn
  fifos    : t.lq = s.lq ∧ t.fq = s.fq ∧ t.sq = s.sq
  analyzer : t.ring = s.ring ∧ t.smDb = s.smDb ∧ t.smLin = s.smLin

theorem ran_src_frame {i : Instr} (ran : Ran p i s t) (hport : i.port = .src) : SourceFrame s t := by
  cases ran with
  | held | refused | cfgDone | batch | closed => exact ⟨⟨rfl, rfl⟩, ⟨rfl, rfl, rfl⟩, rfl, rfl, rfl⟩
  | cfgFailed channels enc rate rest s e ready words cfgOk cfgErr isOpen error =>
    obtain ⟨status, phase, e, -⟩ := raise_frame e { s with srcIn := rest, srcRx := .header }
    rw [e]
    exact ⟨⟨rfl, rfl⟩, ⟨rfl, rfl, rfl⟩, rfl, rfl, rfl⟩
  | lvlPop | lvlLatest | spcPop | spcLatest | register | noRegister => cases hport

theorem moved_src_frame (hm : Moved p .src s t) (held : ∀ i, s.srcRx = .held i → i.port = .src) : SourceFrame s t := by
  cases hm with
  | idleSrc | discarded | headerIllegal => exact ⟨⟨rfl, rfl⟩, ⟨rfl, rfl, rfl⟩, rfl, rfl, rfl⟩
  | heldRan i s t ready hheld ran => exact ran_src_frame ran (held i hheld)
  | headerRan w rest i s t ready header words decoded ran =>
    obtain ⟨hport, hfifos, hana⟩ := ran_src_frame ran (decode_port decoded)
    exact ⟨hport, hfifos, hana⟩

/-- Settles O55, by the frame of each party's turn. -/
theorem dataFlowsOneWay : Obligations.DataFlowsOneWay := by
  intro s t hstep
  obtain ⟨ts, fr, hm⟩ := step_moved hstep
  generalize (takeTurn s).1 = m at hm
  refine ⟨fun e => ?_, fun e => ?_, fun e held => ?_⟩ <;> subst e
  · exact (moved_con_frame hm :)
  · exact (moved_ana_frame hm :)
  · obtain ⟨⟨hout, hin⟩, ⟨hl, hf, hs⟩, hring, hdb, hlin⟩ := moved_src_frame hm held
    exact ⟨hout, hin, hl, hf, hs, hring, hdb, hlin⟩

end Sys2Proof.Machine

/-! The step of a machine with any parameters, command by command and turn by turn (R13, R17, R36). -/

namespace Sys2Proof.Machine

variable {α : Type} {p : Params α} {s : State α} {ts : List Move}

/-! ## The turns of the agents -/

/-- A scheduled turn (R19). -/
theorem stepAt_of_turns {m : Move} (turn : s.turns = m :: ts) :
    stepAt p s = Machine.turn p (execAt p) m { s with turns := ts } := by
  rw [stepAt, takeTurn_of_turns turn]

/-- The level's publish (R148). -/
theorem stepAt_publishes_level (turn : s.turns = .cap :: ts) (phase : s.capPhase = .pubLevel) :
    stepAt p s = .next (capPubl p { s with turns := ts }) := by
  rw [stepAt_of_turns turn]; simp [Machine.turn, stepCap, phase]

/-- The mono batch's publish (R149). -/
theorem stepAt_publishes_frame (turn : s.turns = .cap :: ts) (phase : s.capPhase = .pubFrame) :
    stepAt p s = .next (capPubf p { s with turns := ts }) := by
  rw [stepAt_of_turns turn]; simp [Machine.turn, stepCap, phase]

/-- `ANA.RECV` (R176). -/
theorem stepAt_receives {batch : List α} {rest : List (List α)} (turn : s.turns = .ana :: ts) (phase : s.anaPhase = .wait)
    (queue : s.fq = batch :: rest) : stepAt p s = .next (anaRecv p batch rest { s with turns := ts }) := by
  rw [stepAt_of_turns turn]; simp [Machine.turn, stepAna, anaWait, phase, queue]

/-- `ANA.STEP` (R181). -/
theorem stepAt_analyzes (turn : s.turns = .ana :: ts) (phase : s.anaPhase = .loop) (full : p.data.fftSize ≤ s.ring.length) :
    stepAt p s = .next (anaPass p (ringPeek p.data.fftSize s.ring) { s with turns := ts }) := by
  rw [stepAt_of_turns turn]; simp [Machine.turn, stepAna, anaStep, phase, ringPeek_length_eq full]

/-! ## The consumer's commands (R236 to R240) -/

/-- The words of a level are those of its two values. -/
theorem levelWords (p : Params α) (s : State α) (rms peak : α) : ∃ w₁ w₂, Sends s (p.data.image rms) w₁
    ∧ Sends s (p.data.image peak) w₂ ∧ levelResponse (portWords p s) (some ⟨rms, peak⟩) = [0x00000001#32, w₁, w₂] :=
  ⟨_, _, portWord_sends s 1 _, portWord_sends s 2 _, rfl⟩

/-- The words of a snapshot are those of its values. -/
theorem spectrumWords (p : Params α) (s : State α) (snap : Snapshot α) :
    ∃ words, List.Forall₂ (Sends s) ((snap.bands ++ snap.bandsLinear).map p.data.image) words
      ∧ spectrumResponse (portWords p s) (some snap) = 0x00000001#32 :: words :=
  ⟨_, portWords_sends p s _, rfl⟩

/-- An access to `LQ` that gives a level answers its words. -/
theorem answerLevel_some {rms peak : α} {got : Option (Level α) × List (Level α)} {rest : List (Level α)}
    (hgot : got = (some ⟨rms, peak⟩, rest)) : ∃ w₁ w₂, Sends s (p.data.image rms) w₁ ∧ Sends s (p.data.image peak) w₂
      ∧ answerLevel p got s = { s with lq := rest, conOut := s.conOut ++ [0x00000001#32, w₁, w₂] } := by
  obtain ⟨w₁, w₂, h₁, h₂, e⟩ := levelWords p s rms peak
  exact ⟨w₁, w₂, h₁, h₂, by rw [answerLevel, hgot, e]; rfl⟩

/-- An access to `SQ` that gives a snapshot answers its words. -/
theorem answerSpectrum_some {snap : Snapshot α} {got : Option (Snapshot α) × List (Snapshot α)} {rest : List (Snapshot α)}
    (hgot : got = (some snap, rest)) : ∃ words, List.Forall₂ (Sends s) ((snap.bands ++ snap.bandsLinear).map p.data.image) words
      ∧ answerSpectrum p got s = { s with sq := rest, conOut := s.conOut ++ (0x00000001#32 :: words) } := by
  obtain ⟨words, h, e⟩ := spectrumWords p s snap
  exact ⟨words, h, by rw [answerSpectrum, hgot, e]; rfl⟩

/-- The register table of R33. -/
def registerTable (p : Params α) (s : State α) : List Word :=
  [s.status, s.sampleRate, s.channels.zeroExtend 32, s.encoding.zeroExtend 32, BitVec.ofNat 32 p.data.fftSize,
    BitVec.ofNat 32 (p.data.fftSize / 2), BitVec.ofNat 32 p.data.bands, p.data.image p.data.fLo, p.data.image s.fHi,
    p.data.image p.data.alpha, p.data.image p.data.gain, p.data.image p.data.linScale, p.data.image p.data.dbWindow,
    BitVec.ofNat 32 p.capLevel, BitVec.ofNat 32 p.capFrame, BitVec.ofNat 32 p.capSpec, p.data.image p.data.fHiMax]

theorem readRegister_eq_table (p : Params α) (r : Nat) (s : State α) : readRegister p r s = (registerTable p s)[r]? := by
  by_cases hr : r ≤ 16
  · interval_cases r <;> rfl
  · rw [(readRegister_none_iff p r s).mpr (by omega)]
    exact (List.getElem?_eq_none (show (registerTable p s).length ≤ r from Nat.lt_of_not_le hr)).symm

/-- `RDREG` of a register of the table answers its word (R240). -/
theorem runRdreg_of_table {r : Nat} {w : Word} (h : (registerTable p s)[r]? = some w) : runRdreg p r s = respond [w] s := by
  rw [runRdreg, readRegister_eq_table, h]

/-! ## The source's commands (R121, R128) -/

/-- A `CFG` in an unconfigured open state with its rate there goes through its checks (R120, R121). -/
theorem runCfg_ready {channels enc : Nat} {rate : Word} {rest : List Word} (ready : s.capPhase = .ready) (cfgOk : s.cfgOk = false)
    (cfgErr : s.cfgErr = false) (isOpen : s.closed = false) (words : s.srcIn = rate :: rest) :
    runCfg p channels enc s = cfgBody p channels enc rate { s with srcIn := rest, srcRx := .header } := by
  have hr : s.refusesCfg = false := by simp [State.refusesCfg, cfgOk, cfgErr, isOpen]
  rw [runCfg, hr, runSource_ready _ _ ready (by simp [words, Instr.payloadWords])]
  simp [words, Instr.payloadWords]

/-- A rate from the least one on is taken (R124 to R126). -/
theorem cfgBody_configures {channels enc : Nat} {rate : Word} (encoding : enc ≤ 2) (channel : 0 < channels)
    (sampleRate : p.minRate ≤ rate.toNat) : cfgBody p channels enc rate s = configure p channels enc rate s := by
  rcases cfgBody_cases p channels enc rate s with ⟨h, -⟩ | ⟨-, h, -⟩ | ⟨-, -, h, -⟩ | ⟨-, -, -, e⟩
  · omega
  · omega
  · omega
  · exact e

/-- A rate below the least one is refused (R123 c, R260). -/
theorem cfgBody_rate {channels enc : Nat} {rate : Word} (encoding : enc ≤ 2) (channel : 0 < channels)
    (sampleRate : rate.toNat < p.minRate) : cfgBody p channels enc rate s = raise .cfgBadSampleRate s := by
  rcases cfgBody_cases p channels enc rate s with ⟨h, -⟩ | ⟨-, h, -⟩ | ⟨-, -, -, e⟩ | ⟨-, -, h, -⟩
  · omega
  · omega
  · exact e
  · omega

/-- A `BATCH` in the running state with its payload there is downmixed and metered (R120, R128). -/
theorem runBatch_ready {n : Nat} (ready : s.capPhase = .ready) (cfgOk : s.cfgOk = true) (cfgErr : s.cfgErr = false)
    (isOpen : s.closed = false) (words : n ≤ s.srcIn.length) :
    runBatch p n s = capDmx p (s.srcIn.take n) { s with srcIn := s.srcIn.drop n, srcRx := .header } := by
  have hr : s.refusesBatch = false := by simp [State.refusesBatch, cfgOk, cfgErr, isOpen]
  rw [runBatch, hr, runSource_ready _ _ ready (show (Instr.batch n).payloadWords ≤ _ from words)]
  rfl

/-- Settles O58, clause by clause: each command and turn goes by the parameters it is given. -/
theorem parametersGovernTheStep : Obligations.ParametersGovernTheStep := by
  refine ⟨step_eq, exec_eq, rfl, rfl, rfl, rfl, fun α p s ts => ⟨fun turn phase => stepAt_publishes_level turn phase,
    fun turn phase => stepAt_publishes_frame turn phase, fun batch rest turn phase queue => ?_, fun turn phase full => ?_,
    fun turn => ?_, fun r w h => ?_, fun rms peak rest queue => ?_, fun rms peak older queue => ?_, fun snap rest queue => ?_,
    fun snap older queue => ?_, fun channels enc rate rest ready cfgOk cfgErr isOpen words encoding channel => ?_,
    fun n ready cfgOk cfgErr isOpen words => ?_⟩⟩
  · rw [stepAt_receives turn phase queue, anaRecv, loopTest, ringAppend, List.length_append]
  · refine ⟨_, _, rfl, (stepAt_analyzes turn phase full).trans ?_⟩
    rw [anaPass, loopTest, ringDrop_length]
    rfl
  · exact ⟨_, stepAt_of_turns turn, rfl, rfl, rfl⟩
  · exact congrArg Host.Outcome.next (runRdreg_of_table h)
  · obtain ⟨w₁, w₂, h₁, h₂, e⟩ := answerLevel_some (p := p) (s := s) (got := fifoTryPop s.lq) (by rw [queue, fifoTryPop_cons])
    exact ⟨w₁, w₂, h₁, h₂, congrArg Host.Outcome.next e⟩
  · obtain ⟨w₁, w₂, h₁, h₂, e⟩ :=
      answerLevel_some (p := p) (s := s) (got := fifoTakeLatest s.lq) (by rw [queue, fifoTakeLatest_append])
    exact ⟨w₁, w₂, h₁, h₂, congrArg Host.Outcome.next e⟩
  · obtain ⟨words, h, e⟩ := answerSpectrum_some (p := p) (s := s) (got := fifoTryPop s.sq) (by rw [queue, fifoTryPop_cons])
    exact ⟨words, h, congrArg Host.Outcome.next e⟩
  · obtain ⟨words, h, e⟩ :=
      answerSpectrum_some (p := p) (s := s) (got := fifoTakeLatest s.sq) (by rw [queue, fifoTakeLatest_append])
    exact ⟨words, h, congrArg Host.Outcome.next e⟩
  · have hrun := runCfg_ready (p := p) (channels := channels) (enc := enc) ready cfgOk cfgErr isOpen words
    refine ⟨fun sampleRate => ?_, fun sampleRate => ?_⟩
    · rw [cfgBody_configures encoding channel sampleRate] at hrun
      exact ⟨_, congrArg Host.Outcome.next hrun, rfl, rfl⟩
    · rw [cfgBody_rate encoding channel sampleRate] at hrun
      exact congrArg Host.Outcome.next hrun
  · refine ⟨_, congrArg Host.Outcome.next (runBatch_ready ready cfgOk cfgErr isOpen words), ?_, fun k hk => ?_, rfl⟩
    · rw [capDmx_mono, downmix_length, List.length_take, Nat.min_eq_left words]
    · rw [capDmx_mono, List.length_take, Nat.min_eq_left words]
      exact downmix_getElem? _ _ _ _ _ _ k hk

end Sys2Proof.Machine

/-! Fair runs (R19, D35): a batch in progress is published, and the analyzer of a closed source exits. -/

namespace Sys2Proof.Machine

variable {α : Type} {p : Params α} {s t : State α}

/-! ## What stays from step to step -/

/-- A flag of `STATUS` that is set stays set until reset (R269). -/
theorem ran_flag {i : Instr} (ran : Ran p i s t) {b : Nat} (hb : b < 8) (h : s.status.getLsbD b = true) :
    t.status.getLsbD b = true := by
  cases ran with
  | held | batch | lvlPop | lvlLatest | spcPop | spcLatest | register => exact h
  | refused | cfgDone | closed | noRegister => simp [h]
  | cfgFailed channels enc rate rest s e ready words cfgOk cfgErr isOpen error =>
    obtain ⟨code, -, -, hraise⟩ := raise_cfgError error { s with srcIn := rest, srcRx := .header }
    rw [hraise, writeErrCause_getLsbD _ _ hb]
    simp [h]

theorem moved_flag {m : Move} (hm : Moved p m s t) (noReset : m ≠ .reset) {b : Nat} (hb : b < 8)
    (h : s.status.getLsbD b = true) : t.status.getLsbD b = true := by
  cases hm with
  | idleSrc | idleCon | idleCap | idleAna | discarded | publ | pubf | received | passed => exact h
  | heldRan i s t ready held ran => exact ran_flag ran hb h
  | headerRan w rest i s t ready header words decoded ran => exact ran_flag ran hb h
  | conRan w rest i s t words decoded ran => exact ran_flag ran hb h
  | headerIllegal | conIllegal => simp [h]
  | exited => simp [h]
  | aborted s => exact (BitVec.getLsbD_or).trans (by rw [h, Bool.true_or])
  | reset => exact absurd rfl noReset

/-- Only its own turns and reset move a batch in progress on (R19, R120). -/
theorem moved_busy {m : Move} (hm : Moved p m s t) (busy : s.capPhase ≠ .ready) (notCap : m ≠ .cap) (noReset : m ≠ .reset) :
    t.capPhase = s.capPhase ∧ t.mono = s.mono ∧ t.level = s.level := by
  cases m with
  | src =>
    cases hm with
    | idleSrc => exact ⟨rfl, rfl, rfl⟩
    | heldRan i s t ready | discarded n s ready | headerRan w rest i s t ready | headerIllegal w rest e s ready =>
      exact absurd ready busy
  | con => rw [moved_con_frame hm]; exact ⟨rfl, rfl, rfl⟩
  | ana => rw [moved_ana_frame hm]; exact ⟨rfl, rfl, rfl⟩
  | cap => exact absurd rfl notCap
  | reset => exact absurd rfl noReset

/-- A turn of the capture context is the sub-step that is due (R24). -/
theorem moved_cap_eq (hm : Moved p .cap s t) : t = stepCap p s := by
  cases hm with
  | idleCap s phase => simp [stepCap, phase]
  | publ s phase => simp [stepCap, phase]
  | pubf s phase => simp [stepCap, phase]

/-- A command of a configured state leaves the analyzer's phase (R122). -/
theorem ran_anaPhase {i : Instr} (ran : Ran p i s t) (configured : s.cfgOk = true) : t.anaPhase = s.anaPhase := by
  cases ran with
  | held | refused | batch | closed | lvlPop | lvlLatest | spcPop | spcLatest | register | noRegister => rfl
  | cfgFailed channels enc rate rest s e ready words cfgOk => rw [configured] at cfgOk; cases cfgOk
  | cfgDone channels enc rate rest s ready words cfgOk => rw [configured] at cfgOk; cases cfgOk

/-- The samples the analyzer has still to go through: those in the ring, and for each queued batch one and its samples. -/
def State.backlog (s : State α) : Nat := s.ring.length + (s.fq.map fun batch => batch.length + 1).sum

/-- A configured, closed state with the invariant (R188). -/
structure State.Draining (s : State α) (p : Params α) : Prop where
  inv        : s.Inv p
  configured : s.cfgOk = true
  isClosed   : s.closed = true

theorem State.Draining.ready (h : s.Draining p) : s.capPhase = .ready := by
  by_contra busy
  obtain ⟨-, isOpen, -⟩ := h.inv.port.in_progress busy
  exact absurd (h.isClosed.symm.trans isOpen) (by decide)

/-- Until it has exited, the analyzer of a closed source has an enabled step (R23, R188). -/
theorem State.Draining.enabled (h : s.Draining p) (running : s.anaPhase ≠ .exited) : s.anaEnabled = true := by
  cases hp : s.anaPhase with
  | idle => exact absurd hp (h.inv.configured h.configured).analyzer
  | aborted => exact absurd hp h.inv.analyzer.not_aborted
  | exited => exact absurd hp running
  | wait => simp [State.anaEnabled, hp, h.isClosed]
  | loop => simp [State.anaEnabled, hp]

/-- Whoever moves, a closed source stays closed. -/
theorem State.Draining.moved (h : s.Draining p) (hF : 0 < p.data.fftSize) {m : Move} (hm : Moved p m s t) (noReset : m ≠ .reset) :
    t.Draining p :=
  ⟨h.inv.moved hF hm, moved_flag hm noReset (b := 0) (by decide) h.configured,
    moved_flag hm noReset (b := 2) (by decide) h.isClosed⟩

/-- Only the analyzer's own turns touch what it works on, once the source is closed (R131). -/
theorem State.Draining.untouched (h : s.Draining p) {m : Move} (hm : Moved p m s t) (notAna : m ≠ .ana) (noReset : m ≠ .reset) :
    t.anaPhase = s.anaPhase ∧ t.backlog = s.backlog := by
  cases m with
  | src =>
    obtain ⟨-, ⟨-, hfq, -⟩, hring, -⟩ := moved_src_frame hm fun i hi => (h.inv.port.held i hi).2
    refine ⟨?_, by rw [State.backlog, hring, hfq]; rfl⟩
    cases hm with
    | idleSrc | discarded | headerIllegal => rfl
    | heldRan i s t ready held ran => exact ran_anaPhase ran h.configured
    | headerRan w rest i s t ready header words decoded ran =>
      exact ran_anaPhase (s := { s with srcIn := rest }) ran h.configured
  | con => rw [moved_con_frame hm]; exact ⟨rfl, rfl⟩
  | cap =>
    cases hm with
    | idleCap => exact ⟨rfl, rfl⟩
    | publ s phase => rw [h.ready] at phase; cases phase
    | pubf s phase => rw [h.ready] at phase; cases phase
  | ana => exact absurd rfl notAna
  | reset => exact absurd rfl noReset

/-- A turn of the analyzer exits, or leaves it less to go through (R176, R186, R188). -/
theorem State.Draining.advances (h : s.Draining p) (hH : 0 < p.data.hop) (hF : 0 < p.data.fftSize) (hm : Moved p .ana s t)
    (running : s.anaPhase ≠ .exited) : t.anaPhase = .exited ∨ t.backlog < s.backlog := by
  cases hm with
  | idleAna s disabled => rw [h.enabled running] at disabled; cases disabled
  | received batch rest s phase queue =>
    right
    simp only [State.backlog, anaRecv_ring, anaRecv_fq, queue, List.length_append, List.map_cons, List.sum_cons]
    omega
  | exited => exact .inl rfl
  | passed s phase full =>
    right
    simp only [State.backlog, anaPass_ring, anaPass_fq, ringDrop_length]
    omega
  | aborted s phase short => exact absurd (h.inv.analyzer.looping phase) (by omega)

/-! ## Runs -/

section
variable {r : Nat → State} {k : Nat}

/-- A step of a run is a transition of its mover, after which the outside adds words and moves. -/
theorem IsRun.moved (run : IsRun r) (k : Nat) :
    ∃ ts fr t, Moved Params.default (moverAt r k) { r k with turns := ts, fresh := fr } t ∧ t.Supplied (r (k + 1)) := by
  obtain ⟨t, hstep, hsup⟩ := run k
  obtain ⟨ts, fr, hm⟩ := step_moved hstep
  exact ⟨ts, fr, t, hm, hsup⟩

/-- A property that keeps an agent's step enabled, and that the others keep, lasts until the agent moves (D35). -/
theorem FairFor.eventually {agent : Move} {enabled : State → Bool} (fair : FairFor agent enabled r) {P : State → Prop}
    (start : P (r k)) (enables : ∀ s, P s → enabled s = true)
    (keeps : ∀ j, k ≤ j → P (r j) → moverAt r j ≠ agent → P (r (j + 1))) : ∃ j, k ≤ j ∧ P (r j) ∧ moverAt r j = agent := by
  by_contra never
  have always : ∀ j, k ≤ j → P (r j) := fun j hj =>
    Nat.le_induction start (fun j hj ih => keeps j hj ih fun e => never ⟨j, hj, ih, e⟩) j hj
  obtain ⟨j, hj, e⟩ := fair k fun j hj => enables _ (always j hj)
  exact never ⟨j, hj, always j hj, e⟩

/-- A batch in progress waits, whatever the others do, for a turn of the capture context. -/
theorem eventually_publishes (run : IsRun r) (fair : WeaklyFair r) (noReset : ∀ j, k ≤ j → moverAt r j ≠ .reset)
    (busy : (r k).capPhase ≠ .ready) : ∃ j, k ≤ j
      ∧ ((r j).capPhase = (r k).capPhase ∧ (r j).mono = (r k).mono ∧ (r j).level = (r k).level) ∧ moverAt r j = .cap := by
  refine fair.cap.eventually (P := fun s => s.capPhase = (r k).capPhase ∧ s.mono = (r k).mono ∧ s.level = (r k).level)
    ⟨rfl, rfl, rfl⟩ (fun s hs => ?_) (fun j hj hs notCap => ?_)
  · simp [State.capEnabled, hs.1, busy]
  · obtain ⟨hphase, hmono, hlevel⟩ := hs
    obtain ⟨ts, fr, t, hm, words, commands, moves, e⟩ := run.moved j
    obtain ⟨tphase, tmono, tlevel⟩ := moved_busy hm (hphase ▸ busy) notCap (noReset j hj)
    rw [e]
    exact ⟨tphase.trans hphase, tmono.trans hmono, tlevel.trans hlevel⟩

/-- Settles O59: fairness brings a turn of the capture context, and that turn is the publish that is due. -/
theorem batchInProgressIsPublished : Obligations.BatchInProgressIsPublished := by
  intro r k run fair noReset
  constructor <;> intro phase
  · obtain ⟨j, hj, ⟨hphase, hmono, hlevel⟩, mover⟩ := eventually_publishes run fair noReset (by simp [phase])
    obtain ⟨ts, fr, t, hm, words, commands, moves, e⟩ := run.moved j
    have ht := moved_cap_eq (mover ▸ hm)
    rw [phase] at hphase
    simp only [stepCap, hphase] at ht
    refine ⟨j, hj, hphase, ?_⟩
    rw [e, ht]
    exact ⟨by rw [← hlevel]; rfl, rfl, hmono⟩
  · obtain ⟨j, hj, ⟨hphase, hmono, -⟩, mover⟩ := eventually_publishes run fair noReset (by simp [phase])
    obtain ⟨ts, fr, t, hm, words, commands, moves, e⟩ := run.moved j
    have ht := moved_cap_eq (mover ▸ hm)
    rw [phase] at hphase
    simp only [stepCap, hphase] at ht
    refine ⟨j, hj, hphase, ?_⟩
    rw [e, ht]
    exact ⟨by rw [← hmono]; rfl, rfl⟩

/-- The outside leaves a closed source closed, and what the analyzer works on. -/
theorem State.Draining.supplied {s t : State} (h : s.Draining Params.default) (hsup : s.Supplied t) :
    t.Draining Params.default ∧ t.anaPhase = s.anaPhase ∧ t.backlog = s.backlog := by
  obtain ⟨words, commands, moves, rfl⟩ := hsup
  exact ⟨⟨h.inv.io _ _ s.conOut _ s.fresh, h.configured, h.isClosed⟩, rfl, rfl⟩

theorem State.Draining.turned (h : s.Draining p) (turns : List Move) (fresh : Nat) :
    ({ s with turns, fresh } : State α).Draining p :=
  ⟨h.inv.io s.srcIn s.conIn s.conOut turns fresh, h.configured, h.isClosed⟩

/-- The analyzer of a closed source exits: each of its turns leaves it less to go through. -/
theorem eventually_exits (run : IsRun r) (fair : WeaklyFair r) (noReset : ∀ j, k ≤ j → moverAt r j ≠ .reset)
    (h : (r k).Draining Params.default) : ∃ j, k ≤ j ∧ (r j).anaPhase = .exited ∧ (r j).Draining Params.default := by
  induction hn : (r k).backlog using Nat.strong_induction_on generalizing k with
  | _ n ih =>
  by_cases running : (r k).anaPhase = .exited
  · exact ⟨k, le_rfl, running, h⟩
  obtain ⟨j, hj, ⟨hdrain, hphase, hbacklog⟩, mover⟩ := fair.ana.eventually
    (P := fun s => s.Draining Params.default ∧ s.anaPhase ≠ .exited ∧ s.backlog = n) ⟨h, running, hn⟩
    (fun s hs => hs.1.enabled hs.2.1) fun j hj hs notAna => by
      obtain ⟨hdrain, hphase, hbacklog⟩ := hs
      obtain ⟨ts, fr, t, hm, hsup⟩ := run.moved j
      obtain ⟨tphase, tbacklog⟩ := (hdrain.turned ts fr).untouched hm notAna (noReset j hj)
      obtain ⟨next, nphase, nbacklog⟩ := ((hdrain.turned ts fr).moved (by decide) hm (noReset j hj)).supplied hsup
      exact ⟨next, by rw [nphase, tphase]; exact hphase, by rw [nbacklog, tbacklog]; exact hbacklog⟩
  obtain ⟨ts, fr, t, hm, hsup⟩ := run.moved j
  obtain ⟨next, nphase, nbacklog⟩ := ((hdrain.turned ts fr).moved (by decide) hm (noReset j hj)).supplied hsup
  rcases (hdrain.turned ts fr).advances (by decide) (by decide) (mover ▸ hm) hphase with hexit | hless
  · exact ⟨j + 1, by omega, nphase.trans hexit, next⟩
  · obtain ⟨i, hi, hexit, hdone⟩ := ih (r (j + 1)).backlog (by rw [nbacklog, ← hbacklog]; exact hless)
      (fun i hi => noReset i (by omega)) next rfl
    exact ⟨i, by omega, hexit, hdone⟩

/-- Settles O60: what an exited analyzer has left is in the invariant. -/
theorem closedAnalyzerExits : Obligations.ClosedAnalyzerExits := by
  intro r k run fair noReset inv configured isClosed
  obtain ⟨j, hj, hexit, hdone⟩ := eventually_exits run fair noReset ⟨inv, configured, isClosed⟩
  obtain ⟨-, hfq, hring⟩ := hdone.inv.analyzer.exit_closed hexit
  exact ⟨j, hj, hexit, hdone.inv.analyzer.exit_flag.mp hexit, hfq, hring⟩

end

end Sys2Proof.Machine

/-! What reset leaves (R37), and what no other step clears (R32, R269). -/

namespace Sys2Proof.Machine

variable {α : Type} {p : Params α} {s t : State α}

/-- Settles O7: the reset state is written out field by field, with the sizes of the default data path. -/
theorem resetValuesAreTheTables : Obligations.ResetValuesAreTheTables :=
  ⟨rfl, rfl, rfl, rfl, rfl, rfl, rfl, rfl, rfl, rfl, rfl, rfl, rfl, rfl, rfl, rfl, rfl, rfl, rfl, rfl⟩

/-- The masks of the flags are clear in the bits of `ERR_CAUSE`. -/
theorem setStatus_errCause_of_clear (s : State α) {mask : BitVec 32} (clear : mask.extractLsb' 8 4 = 0#4) :
    (s.setStatus mask).errCause = s.errCause := by
  rw [setStatus_errCause, clear, BitVec.or_zero]

/-- Running a command leaves the cause of a latched configuration error: `CFG` is refused then (R120). -/
theorem ran_errCause {i : Instr} (ran : Ran p i s t) (latched : s.cfgErr = true) : t.errCause = s.errCause := by
  cases ran with
  | held | batch | lvlPop | lvlLatest | spcPop | spcLatest | register => rfl
  | refused | cfgDone | closed | noRegister => exact setStatus_errCause_of_clear _ (by decide)
  | cfgFailed channels enc rate rest s e ready words cfgOk cfgErr => exact absurd latched (by simp [cfgErr])

theorem moved_errCause {m : Move} (hm : Moved p m s t) (noReset : m ≠ .reset) (latched : s.cfgErr = true) :
    t.errCause = s.errCause := by
  cases hm with
  | idleSrc | idleCon | idleCap | idleAna | discarded | publ | pubf | received | passed => rfl
  | heldRan i s t ready held ran => exact ran_errCause ran latched
  | headerRan w rest i s t ready header words decoded ran => exact (ran_errCause ran latched :)
  | conRan w rest i s t words decoded ran => exact (ran_errCause ran latched :)
  | headerIllegal | conIllegal | exited | aborted => exact setStatus_errCause_of_clear _ (by decide)
  | reset => exact absurd rfl noReset

/-- Settles O54, by cases over what a step can do. -/
theorem flagsAreStickyUntilReset : Obligations.FlagsAreStickyUntilReset := by
  intro s t noReset hstep
  obtain ⟨ts, fr, hm⟩ := step_moved hstep
  have keeps {b : Nat} (hb : b < 8) : s.status.getLsbD b = true → t.status.getLsbD b = true := moved_flag hm noReset hb
  exact ⟨keeps (by decide), keeps (by decide), keeps (by decide), keeps (by decide), keeps (by decide), keeps (by decide),
    (moved_errCause hm noReset · :)⟩

end Sys2Proof.Machine

/-! Rounding is monotone, and so are the operations the band map is computed with (R17 c, R200). -/

namespace Sys2Proof.NumF32

/-! ## Rounding -/

theorem rank_le_top {a : F32} (hn : isNaN a = false) : rank a ≤ top := by
  have := top_pos
  rcases isFinite_or_isInf hn with hf | hi
  · rw [rank_of_isFinite hf]
    exact (toInt_lt_top hf).2.le
  · rw [rank_of_isInf hi]
    split <;> omega

/-- Among values without sign, the infinity included, the order is that of the images. -/
theorem rank_pack_mono {m m' : Nat} (h : m ≤ m') (h' : m' ≤ infImage) : rank (pack false m) ≤ rank (pack false m') := by
  have hm' : m' < 2 ^ 31 := h'.trans_lt (by decide)
  have hm : m < 2 ^ 31 := h.trans_lt hm'
  rcases h'.eq_or_lt with rfl | hlt
  · have hn : isNaN (pack false m) = false := by
      rw [← Bool.not_eq_true, isNaN_iff, pack_toNat_mod _ hm]
      exact h.not_gt
    rw [← inf_eq, rank_inf, if_neg Bool.false_ne_true]
    exact rank_le_top hn
  · rw [rank_of_isFinite (isFinite_pack _ (h.trans_lt hlt)), rank_of_isFinite (isFinite_pack _ hlt), toInt_pack _ hm,
      toInt_pack _ hm', if_neg Bool.false_ne_true, if_neg Bool.false_ne_true]
    exact_mod_cast magImg_strictMono.monotone h

namespace Rounds

variable {num num' : Int} {den den' : Nat} {v v' : F32}

theorem rank_mono_of_pos (h : Rounds num den v) (h' : Rounds num' den' v') (hd : 0 < den) (hd' : 0 < den') (pos : 0 < num)
    (pos' : 0 < num') (hle : num * den' ≤ num' * den) : rank v ≤ rank v' := by
  obtain ⟨neg, hs, rfl⟩ := h
  obtain ⟨neg', hs', rfl⟩ := h'
  rw [hs.2 pos, hs'.2 pos']
  refine rank_pack_mono (roundMag_mono hd hd' ?_) (roundMag_le _ _)
  zify
  rwa [abs_of_pos pos, abs_of_pos pos']

/-- A larger ratio is not rounded to a smaller value. -/
theorem rank_mono (h : Rounds num den v) (h' : Rounds num' den' v') (hd : 0 < den) (hd' : 0 < den')
    (hle : num * den' ≤ num' * den) : rank v ≤ rank v' := by
  have hdz : (0 : Int) < den := by exact_mod_cast hd
  have hdz' : (0 : Int) < den' := by exact_mod_cast hd'
  rcases le_or_gt num 0 with hn | hn
  · rcases le_or_gt 0 num' with hn' | hn'
    · exact (h.rank_nonpos hd hn).trans (h'.rank_nonneg hd' hn')
    · have hneg : num < 0 := by
        have := hle.trans_lt (mul_neg_of_neg_of_pos hn' hdz)
        exact neg_of_mul_neg_left this hdz'.le
      have := h'.neg.rank_mono_of_pos h.neg hd' hd (by omega) (by omega) (by linarith)
      rw [rank_neg, rank_neg] at this
      omega
  · have : 0 < num' * den := (mul_pos hn hdz').trans_le hle
    exact h.rank_mono_of_pos h' hd hd' hn (pos_of_mul_pos_left this hdz.le) hle

end Rounds

/-! ## The operations -/

theorem ofInt_mono {z z' : Int} (h : z ≤ z') : rank (ofInt z) ≤ rank (ofInt z') :=
  (ofInt_rounds z).rank_mono (ofInt_rounds z') (by decide) (by decide) (by
    simpa only [Nat.cast_one, mul_one] using Int.mul_le_mul_of_nonneg_right h (by positivity))

theorem mul_mono {a a' b b' : F32} (ha : isFinite a = true) (ha' : isFinite a' = true) (hb : isFinite b = true)
    (hb' : isFinite b' = true) (a0 : 0 ≤ toInt a') (b0 : 0 ≤ toInt b) (hab : toInt a ≤ toInt a')
    (hbb : toInt b ≤ toInt b') :
    rank (mul a b) ≤ rank (mul a' b') :=
  (mul_rounds ha hb).rank_mono (mul_rounds ha' hb') (by positivity) (by positivity)
    (Int.mul_le_mul_of_nonneg_right (mul_le_mul hab hbb b0 a0) (by positivity))

/-- The quotient by a positive value is one rounding. -/
theorem div_rounds_of_pos {a b : F32} (ha : isFinite a = true) (hb : isFinite b = true) (h0 : 0 < toInt b) :
    Rounds (toInt a * (2 ^ 149 : Nat)) (toInt b).natAbs (div a b) := by
  have := div_rounds ha hb h0.ne'
  rwa [Int.sign_eq_one_of_pos h0, mul_one] at this

theorem div_mono {a a' b : F32} (ha : isFinite a = true) (ha' : isFinite a' = true) (hb : isFinite b = true)
    (h0 : 0 < toInt b) (h : toInt a ≤ toInt a') : rank (div a b) ≤ rank (div a' b) :=
  (div_rounds_of_pos ha hb h0).rank_mono (div_rounds_of_pos ha' hb h0) (by omega) (by omega)
    (Int.mul_le_mul_of_nonneg_right (Int.mul_le_mul_of_nonneg_right h (by positivity)) (by positivity))

/-! ## The logarithm: neighbours differ by far more than the fixed point errs -/

/-- Neighbouring values differ by at least one part in 2^24. -/
theorem magImg_gap (m : Nat) : magImg m * (2 ^ 24 + 1) ≤ magImg (m + 1) * 2 ^ 24 := by
  obtain ⟨k, r, rfl, hr, hk⟩ := image_split m
  rw [add_assoc, magImg_mul k r hr.le hk, magImg_mul k (r + 1) hr (by omega)]
  have : r * (2 ^ 24 + 1) ≤ (r + 1) * 2 ^ 24 := by omega
  calc r * 2 ^ k * (2 ^ 24 + 1) = r * (2 ^ 24 + 1) * 2 ^ k := by ring
    _ ≤ (r + 1) * 2 ^ 24 * 2 ^ k := Nat.mul_le_mul_right _ this
    _ = (r + 1) * 2 ^ k * 2 ^ 24 := by ring

theorem mag_gap {a b : F32} (h : mag a < mag b) : mag a * (2 ^ 24 + 1) ≤ mag b * 2 ^ 24 := by
  rw [mag_eq, mag_eq] at *
  have hlt := magImg_strictMono.lt_iff_lt.mp h
  exact (magImg_gap _).trans (Nat.mul_le_mul_right _ (magImg_strictMono.monotone hlt))

theorem log_mag_gap {a b : F32} (ha : 0 < mag a) (h : mag a < mag b) :
    Real.log ((mag a : ℝ) / 2 ^ 149) + 1 / 2 ^ 25 ≤ Real.log ((mag b : ℝ) / 2 ^ 149) := by
  have har : (0 : ℝ) < mag a := by exact_mod_cast ha
  have hbr : (0 : ℝ) < mag b := by exact_mod_cast ha.trans h
  have hgap : (mag a : ℝ) * (2 ^ 24 + 1) ≤ mag b * 2 ^ 24 := by exact_mod_cast mag_gap h
  have hquot : (mag a : ℝ) / mag b ≤ 1 - 1 / 2 ^ 25 := by
    rw [div_le_iff₀ hbr]
    norm_num at hgap ⊢
    linarith
  have hlog := Real.one_sub_inv_le_log_of_pos (div_pos hbr har)
  rw [inv_div, Real.log_div hbr.ne' har.ne'] at hlog
  rw [Real.log_div har.ne' (by positivity), Real.log_div hbr.ne' (by positivity)]
  linarith

theorem lnRef_mono {a b : F32} (ha : isFinite a = true) (hb : isFinite b = true) (h0 : 0 < mag a) (h : mag a ≤ mag b) :
    lnRef a ≤ lnRef b := by
  rcases h.eq_or_lt with e | hlt
  · unfold lnRef
    rw [e]
  · have hfix : (0 : ℝ) < (fix : ℝ) := by positivity
    have ca := abs_le.mp (lnRef_close ha h0)
    have cb := abs_le.mp (lnRef_close hb (h0.trans hlt))
    have gap := log_mag_gap h0 hlt
    have small : (1 : ℝ) / 2 ^ 130 + 1 / 2 ^ 130 ≤ 1 / 2 ^ 25 := by norm_num
    have hdiv : (lnRef a : ℝ) / fix ≤ lnRef b / fix := by linarith [ca.2, cb.1]
    exact_mod_cast (div_le_div_iff_of_pos_right hfix).mp hdiv

theorem ln_mono {a b : F32} (ha : isFinite a = true) (hb : isFinite b = true) (h0 : 0 < toInt a) (h : toInt a ≤ toInt b) :
    toInt (ln a) ≤ toInt (ln b) := by
  have hmag : ∀ {c}, 0 < toInt c → toInt c = mag c := fun {c} hc => by rw [← natAbs_toInt]; omega
  have hle : mag a ≤ mag b := by have := hmag h0; have := hmag (h0.trans_le h); omega
  have hm : 0 < mag a := by have := hmag h0; omega
  rw [← rank_of_isFinite (isFinite_ln ha h0), ← rank_of_isFinite (isFinite_ln hb (h0.trans_le h)), ln_eq ha h0,
    ln_eq hb (h0.trans_le h)]
  exact (ofFix_rounds _).rank_mono (ofFix_rounds _) (by decide) (by decide)
    (Int.mul_le_mul_of_nonneg_right (lnRef_mono ha hb hm hle) (by positivity))

/-! ## `round` with halves away from zero (R201) -/

theorem round_of_nonneg {a : F32} (hf : isFinite a = true) (h0 : 0 ≤ toInt a) :
    round .away a = (2 * toInt a + one) / (2 * one) := by
  have hmag : ((2 * mag a + one) / (2 * one) : Nat) = (2 * toInt a + one) / (2 * one) := by
    have : toInt a = mag a := by rw [← natAbs_toInt]; omega
    rw [this]
    push_cast
    rfl
  rw [round, if_pos hf, ← hmag]
  split
  · rename_i hs
    have : mag a = 0 := by rw [toInt, if_pos hs] at h0; omega
    rw [this]
    decide
  · rfl

theorem round_mono {a b : F32} (ha : isFinite a = true) (hb : isFinite b = true) (h0 : 0 ≤ toInt a) (h : toInt a ≤ toInt b) :
    round .away a ≤ round .away b := by
  rw [round_of_nonneg ha h0, round_of_nonneg hb (h0.trans h)]
  exact Int.ediv_le_ediv (by positivity) (by omega)

end Sys2Proof.NumF32

/-! The table the machine writes in the default arithmetic is monotone and anchored (R200, R202): every operation on the way
from a bin to its band is monotone, and those at the two ends are exact. -/

namespace Sys2Proof

open NumF32 Machine

/-! ## From a position on the scale to a band -/

theorem bandEntry_mono (bands : Nat) {a b : Int} (h : a ≤ b) : bandEntry bands a ≤ bandEntry bands b := by
  unfold bandEntry
  omega

theorem bandEntry_le (bands : Nat) (b : Int) : bandEntry bands b ≤ bands - 1 := Nat.min_le_right _ _

/-- The band of a position in [0, 1] on the scale. -/
def bandAt (t : F32) : Nat := bandEntry 96 (NumF32.round .away (NumF32.mul t (NumF32.ofInt 95)))

theorem ofInt_95 : NumF32.ofInt 95 = 0x42BE0000#32 := by decide

theorem isFinite_scaled {t : F32} (ht : inUnit t = true) :
    isFinite (NumF32.mul t (NumF32.ofInt 95)) = true ∧ 0 ≤ toInt (NumF32.mul t (NumF32.ofInt 95)) := by
  obtain ⟨hf, h0, h1⟩ := (inUnit_iff t).mp ht
  have h95 : (0 : Int) ≤ toInt 0x42BE0000#32 := by decide
  rw [ofInt_95]
  have := (mul_rounds hf (b := 0x42BE0000#32) (by decide)).between (by positivity) (lo := 0#32) (hi := 0x42BE0000#32) (by decide)
    (by decide) (by rw [toInt_zero, zero_mul]; exact mul_nonneg h0 h95)
    (by rw [mul_comm]; exact Int.mul_le_mul_of_nonneg_left h1 h95)
  exact ⟨this.1, toInt_zero ▸ this.2.1⟩

theorem bandAt_mono {t u : F32} (ht : inUnit t = true) (hu : inUnit u = true) (h : toInt t ≤ toInt u) :
    bandAt t ≤ bandAt u := by
  obtain ⟨tf, t0⟩ := isFinite_scaled ht
  obtain ⟨uf, -⟩ := isFinite_scaled hu
  have hle := mul_mono ((inUnit_iff t).mp ht).1 ((inUnit_iff u).mp hu).1 (b := NumF32.ofInt 95) (b' := NumF32.ofInt 95)
    (by decide) (by decide) ((inUnit_iff u).mp hu).2.1 (by decide) h le_rfl
  rw [rank_of_isFinite tf, rank_of_isFinite uf] at hle
  exact bandEntry_mono 96 (round_mono tf uf t0 hle)

theorem bandAt_zero {t : F32} (ht : isZero t = true) : bandAt t = 0 := by
  have hz := isZero_mul_left ht (b := NumF32.ofInt 95) (by decide)
  rw [bandAt, round_of_nonneg (isFinite_of_isZero hz) (toInt_of_isZero hz).ge, toInt_of_isZero hz]
  decide

theorem bandAt_one {t : F32} (hf : isFinite t = true) (h1 : toInt t = one) : bandAt t = 95 := by
  have hr := mul_rounds hf (b := 0x42BE0000#32) (by decide)
  rw [h1, mul_comm] at hr
  obtain ⟨hm, hval⟩ := hr.exact (by positivity) (by decide)
  have h95 : toInt 0x42BE0000#32 = 95 * one := by decide
  rw [bandAt, ofInt_95, round_of_nonneg hm (by rw [hval, h95]; positivity), hval, h95]
  decide

/-! ## From a frequency to its position -/

/-- `ln(f/F_LO)`. -/
def lnOverFloor (f : F32) : F32 := NumF32.ln (NumF32.div f 0x41A00000#32)

/-- The position of a frequency on the scale up to `hi`. -/
def scalePosition (hi f : F32) : F32 :=
  dataF32.clamp01 (NumF32.div (lnOverFloor (NumF32.max f 0x41A00000#32)) (lnOverFloor hi))

theorem bandOfFreq_eq (hi f : F32) : dataF32.bandOfFreq hi f = bandAt (scalePosition hi f) := rfl

/-- A frequency over the floor has a logarithm, if it is not below the floor. -/
theorem div_floor_pos {f : F32} (hf : isFinite f = true) (h : toInt 0x41A00000#32 ≤ toInt f) :
    isFinite (NumF32.div f 0x41A00000#32) = true ∧ 0 < toInt (NumF32.div f 0x41A00000#32) := by
  have h20 : (0 : Int) < toInt 0x41A00000#32 := by decide
  have hfin := (isFinite_div hf (h20.le.trans h) (b := 0x41A00000#32) (by decide) (by decide)).1
  have hmono := div_mono (a := 0x41A00000#32) (b := 0x41A00000#32) (by decide) hf (by decide) h20 h
  have hone : 0 < rank (NumF32.div 0x41A00000#32 0x41A00000#32) := by decide
  rw [rank_of_isFinite hfin] at hmono
  exact ⟨hfin, hone.trans_le hmono⟩

theorem isFinite_lnOverFloor {f : F32} (hf : isFinite f = true) (h : toInt 0x41A00000#32 ≤ toInt f) :
    isFinite (lnOverFloor f) = true := isFinite_ln (div_floor_pos hf h).1 (div_floor_pos hf h).2

theorem lnOverFloor_mono {f g : F32} (hf : isFinite f = true) (hg : isFinite g = true) (h : toInt 0x41A00000#32 ≤ toInt f)
    (hfg : toInt f ≤ toInt g) : toInt (lnOverFloor f) ≤ toInt (lnOverFloor g) := by
  obtain ⟨qf, q0⟩ := div_floor_pos hf h
  obtain ⟨qg, -⟩ := div_floor_pos hg (h.trans hfg)
  have hle := div_mono hf hg (b := 0x41A00000#32) (by decide) (by decide) hfg
  rw [rank_of_isFinite qf, rank_of_isFinite qg] at hle
  exact ln_mono qf qg q0 hle

theorem lnOverFloor_of_floor : lnOverFloor 0x41A00000#32 = 0#32 := by decide

/-- The logarithm of the smallest ceiling, 20.5 Hz, is positive. -/
theorem lnOverFloor_least_pos : 0 < toInt (lnOverFloor 0x41A40000#32) := by decide

/-- A ceiling not below the smallest one is above the floor. -/
theorem floor_le_ceiling {hi : F32} (least : toInt 0x41A40000#32 ≤ toInt hi) : toInt 0x41A00000#32 ≤ toInt hi :=
  le_trans (by decide) least

theorem max_floor_spec {f : F32} (hf : isFinite f = true) : isFinite (NumF32.max f 0x41A00000#32) = true
    ∧ toInt (NumF32.max f 0x41A00000#32) = Max.max (toInt f) (toInt 0x41A00000#32) := by
  have hfin := isFinite_max hf (b := 0x41A00000#32) (by decide)
  have := (max_spec (isNaN_of_isFinite hf) (b := 0x41A00000#32) (by decide)).2
  rw [rank_of_isFinite hfin, rank_of_isFinite hf, rank_of_isFinite (a := 0x41A00000#32) (by decide)] at this
  exact ⟨hfin, this⟩

section

variable {hi f g : F32} (hhi : isFinite hi = true) (least : toInt 0x41A40000#32 ≤ toInt hi)
include hhi least

theorem lnOverFloor_pos : 0 < toInt (lnOverFloor hi) :=
  lnOverFloor_least_pos.trans_le (lnOverFloor_mono (by decide) hhi (by decide) least)

theorem isNaN_scaleRatio (hf : isFinite f = true) :
    isNaN (NumF32.div (lnOverFloor (NumF32.max f 0x41A00000#32)) (lnOverFloor hi)) = false := by
  obtain ⟨hm, hval⟩ := max_floor_spec hf
  have hln := isFinite_lnOverFloor hm (by rw [hval]; exact le_max_right _ _)
  exact isNaN_div (isNaN_of_isFinite hln) (isFinite_lnOverFloor hhi (floor_le_ceiling least)) (lnOverFloor_pos hhi least).ne'

theorem inUnit_scalePosition (hf : isFinite f = true) : inUnit (scalePosition hi f) = true :=
  inUnit_clamp01 (isNaN_scaleRatio hhi least hf)

theorem bandOfFreq_mono (hf : isFinite f = true) (hg : isFinite g = true) (h : toInt f ≤ toInt g) :
    dataF32.bandOfFreq hi f ≤ dataF32.bandOfFreq hi g := by
  obtain ⟨mf, vf⟩ := max_floor_spec hf
  obtain ⟨mg, vg⟩ := max_floor_spec hg
  have uf := inUnit_scalePosition hhi least hf
  have ug := inUnit_scalePosition hhi least hg
  have hln := lnOverFloor_mono mf mg (by omega) (by omega)
  have hdiv := div_mono (isFinite_lnOverFloor mf (by omega)) (isFinite_lnOverFloor mg (by omega))
    (isFinite_lnOverFloor hhi (floor_le_ceiling least)) (lnOverFloor_pos hhi least) hln
  have cf := (clamp01_spec (isNaN_scaleRatio hhi least hf)).2
  have cg := (clamp01_spec (isNaN_scaleRatio hhi least hg)).2
  rw [← scalePosition, rank_of_isFinite ((inUnit_iff _).mp uf).1] at cf
  rw [← scalePosition, rank_of_isFinite ((inUnit_iff _).mp ug).1] at cg
  rw [bandOfFreq_eq, bandOfFreq_eq]
  exact bandAt_mono uf ug (by omega)

/-- A frequency not above the floor is in the first band (R202). -/
theorem bandOfFreq_low (hf : isFinite f = true) (h : toInt f ≤ toInt 0x41A00000#32) : dataF32.bandOfFreq hi f = 0 := by
  obtain ⟨mf, vf⟩ := max_floor_spec hf
  have hfin := isFinite_lnOverFloor mf (by omega)
  have lo := lnOverFloor_mono (f := 0x41A00000#32) (by decide) mf le_rfl (by omega)
  have up := lnOverFloor_mono (g := 0x41A00000#32) mf (by decide) (by omega) (by omega)
  rw [lnOverFloor_of_floor, toInt_zero] at lo up
  have hz := isZero_div (isZero_of_toInt hfin (le_antisymm up lo)) (isFinite_lnOverFloor hhi (floor_le_ceiling least))
    (lnOverFloor_pos hhi least).ne'
  rw [bandOfFreq_eq]
  exact bandAt_zero (isZero_clamp01 (isNaN_scaleRatio hhi least hf)
    (by rw [rank_of_isFinite (isFinite_of_isZero hz), toInt_of_isZero hz]))

/-- A frequency not below the ceiling is in the last band (R202). -/
theorem bandOfFreq_high (hf : isFinite f = true) (h : toInt hi ≤ toInt f) : dataF32.bandOfFreq hi f = 95 := by
  obtain ⟨mf, vf⟩ := max_floor_spec hf
  have floor := floor_le_ceiling least
  have pos := lnOverFloor_pos hhi least
  have hln := lnOverFloor_mono hhi mf floor (by omega)
  have hone := (div_rounds_of_pos (isFinite_lnOverFloor mf (by omega)) (isFinite_lnOverFloor hhi floor) pos).le_rank (by omega)
    (w := 0x3F800000#32) (by decide) (by
      rw [toInt_one, Int.natCast_natAbs, abs_of_pos pos, mul_comm]
      exact Int.mul_le_mul_of_nonneg_right hln (by positivity))
  have hc := (clamp01_spec (isNaN_scaleRatio hhi least hf)).2
  have hfin := ((inUnit_iff _).mp (inUnit_scalePosition hhi least hf)).1
  rw [← scalePosition, rank_of_isFinite hfin] at hc
  rw [toInt_one] at hone
  rw [bandOfFreq_eq]
  exact bandAt_one hfin (by omega)

end

/-! ## From a bin to its frequency -/

/-- `i·SAMPLE_RATE/F`. -/
def binCenter (rate i : Nat) : F32 :=
  NumF32.div (NumF32.mul (NumF32.ofInt i) (NumF32.ofInt rate)) (NumF32.ofInt 1024)

theorem bandOfBin_eq (rate i : Nat) : dataF32.bandOfBin rate i = dataF32.bandOfFreq (dataF32.fHi rate) (binCenter rate i) := rfl

theorem fHi_eq (rate : Nat) :
    dataF32.fHi rate = NumF32.min (NumF32.div (NumF32.ofInt rate) (NumF32.ofInt 2)) 0x469C4000#32 := by
  rw [DataPath.fHi, dataF32_min, dataF32_div, dataF32_ofInt, dataF32_fHiMax]

theorem ofInt_word {n : Nat} (h : n ≤ 2 ^ 32) :
    isFinite (NumF32.ofInt n) = true ∧ 0 ≤ toInt (NumF32.ofInt n)
      ∧ toInt (NumF32.ofInt n) ≤ (2 ^ 32 : Nat) * (2 ^ 149 : Nat) := by
  have top : toInt 0x4F800000#32 = (2 ^ 32 : Nat) * (2 ^ 149 : Nat) := by decide
  have := (ofInt_rounds n).between (by decide) (lo := 0#32) (hi := 0x4F800000#32) (by decide) (by decide)
    (by rw [toInt_zero, zero_mul]; exact mul_nonneg (Int.natCast_nonneg _) (Int.natCast_nonneg _))
    (by rw [top, Nat.cast_one, mul_one]; exact_mod_cast Nat.mul_le_mul_right _ h)
  rwa [top, toInt_zero] at this

/-- An integer of 24 bits scaled by a power of two is a binary32 number. -/
theorem ofInt_scaled {n k : Nat} (hn : n < 2 ^ 24) (hk : k ≤ 104) :
    isFinite (NumF32.ofInt (n * 2 ^ k : Nat)) = true
      ∧ toInt (NumF32.ofInt (n * 2 ^ k : Nat)) = (n * 2 ^ k : Nat) * (2 ^ 149 : Nat) := by
  obtain ⟨m, hm, e⟩ := exists_image n (k + 149) hn (by omega)
  have hval : toInt (pack false m) = (n * 2 ^ k : Nat) * (2 ^ 149 : Nat) := by
    rw [toInt_pack false (by omega), if_neg Bool.false_ne_true, e, pow_add]
    push_cast
    ring
  have hr := ofInt_rounds (n * 2 ^ k : Nat)
  rw [← hval] at hr ⊢
  exact Rounds.exact (den := 1) (by decide) (isFinite_pack false hm) (by rwa [Nat.cast_one, mul_one])

/-- The product of two integers of 24 bits is rounded once. -/
theorem rank_mul_ofInt {m n : Nat} (hm : m ≤ 2 ^ 24) (hn : n ≤ 2 ^ 24) :
    rank (NumF32.mul (NumF32.ofInt m) (NumF32.ofInt n)) = rank (NumF32.ofInt (m * n : Nat)) := by
  obtain ⟨mf, mv⟩ := ofInt_exact hm
  obtain ⟨nf, nv⟩ := ofInt_exact hn
  have hmul := mul_rounds mf nf
  rw [mv, nv] at hmul
  have e : (m * (2 ^ 149 : Nat) * (n * (2 ^ 149 : Nat)) : Int) * (1 : Nat) = (m * n : Nat) * (2 ^ 149 : Nat) * one := by
    rw [Nat.cast_one, Nat.cast_mul]; ring
  exact le_antisymm (hmul.rank_mono (ofInt_rounds _) (by positivity) (by decide) e.le)
    ((ofInt_rounds _).rank_mono hmul (by decide) (by positivity) e.ge)

section

variable {rate i j : Nat} (hrate : rate < 2 ^ 32)
include hrate

theorem isFinite_product (hi : i ≤ 512) : isFinite (NumF32.mul (NumF32.ofInt i) (NumF32.ofInt rate)) = true
    ∧ 0 ≤ toInt (NumF32.mul (NumF32.ofInt i) (NumF32.ofInt rate)) := by
  obtain ⟨rf, r0, r1⟩ := ofInt_word hrate.le
  obtain ⟨nf, nv⟩ := ofInt_exact (n := i) (by omega)
  have top : toInt 0x54000000#32 = 512 * (2 ^ 149 : Nat) * (2 ^ 32 : Nat) := by decide
  have hn : toInt (NumF32.ofInt i) ≤ 512 * (2 ^ 149 : Nat) := by
    rw [nv]; exact Int.mul_le_mul_of_nonneg_right (by omega) (by positivity)
  have := (mul_rounds nf rf).between (by positivity) (lo := 0#32) (hi := 0x54000000#32) (by decide) (by decide)
    (by rw [toInt_zero, zero_mul, nv]; exact mul_nonneg (mul_nonneg (Int.natCast_nonneg _) (Int.natCast_nonneg _)) r0)
    (by rw [top, mul_assoc (512 * _)]; exact mul_le_mul hn r1 r0 (by positivity))
  exact ⟨this.1, toInt_zero ▸ this.2.1⟩

theorem isFinite_binCenter (hi : i ≤ 512) : isFinite (binCenter rate i) = true :=
  (isFinite_div (isFinite_product hrate hi).1 (isFinite_product hrate hi).2 (b := NumF32.ofInt 1024) (by decide)
    (by decide)).1

/-- A bound on the product in the bin's frequency is one on the frequency. -/
theorem binCenter_le_of_product {w : F32} (hi : i ≤ 512) (hw : isFinite w = true)
    (h : rank (NumF32.mul (NumF32.ofInt i) (NumF32.ofInt rate)) ≤ toInt w) :
    toInt (binCenter rate i) ≤ rank (NumF32.div w (NumF32.ofInt 1024)) := by
  rw [rank_of_isFinite (isFinite_product hrate hi).1] at h
  rw [← rank_of_isFinite (isFinite_binCenter hrate hi)]
  exact div_mono (isFinite_product hrate hi).1 hw (by decide) (by decide) h

theorem le_binCenter_of_product {w : F32} (hi : i ≤ 512) (hw : isFinite w = true)
    (h : toInt w ≤ rank (NumF32.mul (NumF32.ofInt i) (NumF32.ofInt rate))) :
    rank (NumF32.div w (NumF32.ofInt 1024)) ≤ toInt (binCenter rate i) := by
  rw [rank_of_isFinite (isFinite_product hrate hi).1] at h
  rw [← rank_of_isFinite (isFinite_binCenter hrate hi)]
  exact div_mono hw (isFinite_product hrate hi).1 (by decide) (by decide) h

theorem product_mono {m n : Nat} (hn : n ≤ rate) (him : m ≤ i) (hi : i ≤ 512) :
    rank (NumF32.mul (NumF32.ofInt m) (NumF32.ofInt n)) ≤ rank (NumF32.mul (NumF32.ofInt i) (NumF32.ofInt rate)) := by
  obtain ⟨rf, -⟩ := ofInt_word hrate.le
  obtain ⟨nf, n0, -⟩ := ofInt_word (hn.trans hrate.le)
  obtain ⟨mf, mv⟩ := ofInt_exact (n := m) (by omega)
  obtain ⟨ef, ev⟩ := ofInt_exact (n := i) (by omega)
  have hm := ofInt_mono (z := m) (z' := i) (by exact_mod_cast him)
  have hr := ofInt_mono (z := n) (z' := rate) (by exact_mod_cast hn)
  rw [rank_of_isFinite mf, rank_of_isFinite ef] at hm
  rw [rank_of_isFinite nf, rank_of_isFinite rf] at hr
  exact mul_mono mf ef nf rf (ev ▸ mul_nonneg (Int.natCast_nonneg _) (Int.natCast_nonneg _)) n0 hm hr

theorem binCenter_mono (hij : i ≤ j) (hj : j ≤ 512) : toInt (binCenter rate i) ≤ toInt (binCenter rate j) := by
  have hi := hij.trans hj
  have h := product_mono hrate le_rfl hij hj
  rw [rank_of_isFinite (isFinite_product hrate hj).1] at h
  have := binCenter_le_of_product hrate hi (isFinite_product hrate hj).1 h
  rwa [← binCenter, rank_of_isFinite (isFinite_binCenter hrate hj)] at this

/-- A bin at or below the scale's floor is there in the arithmetic too: its product is exact. -/
theorem binCenter_low (hi : i ≤ 512) (h : i * rate ≤ 20 * 1024) : toInt (binCenter rate i) ≤ toInt 0x41A00000#32 := by
  have hprod : rank (NumF32.mul (NumF32.ofInt i) (NumF32.ofInt rate)) ≤ toInt (NumF32.ofInt (20 * 1024 : Nat)) := by
    rw [← rank_of_isFinite (by decide)]
    rcases Nat.eq_zero_or_pos i with rfl | hpos
    · have := isZero_mul_left (a := NumF32.ofInt (0 : Nat)) (by decide) (ofInt_word hrate.le).1
      rw [rank_of_isFinite (isFinite_of_isZero this), toInt_of_isZero this]
      decide
    · have hr : rate ≤ i * rate := Nat.le_mul_of_pos_left rate hpos
      rw [rank_mul_ofInt (by omega) (by omega)]
      exact ofInt_mono (by exact_mod_cast h)
  have := binCenter_le_of_product hrate hi (by decide) hprod
  exact this.trans (by decide)

variable (least : 41 ≤ rate)
include least

theorem fHi_spec : isFinite (dataF32.fHi rate) = true ∧ toInt 0x41A40000#32 ≤ toInt (dataF32.fHi rate)
    ∧ toInt (dataF32.fHi rate) ≤ rank (NumF32.div (NumF32.ofInt rate) (NumF32.ofInt 2))
    ∧ toInt (dataF32.fHi rate) ≤ toInt 0x469C4000#32 := by
  obtain ⟨rf, r0, -⟩ := ofInt_word hrate.le
  have hfin := (isFinite_div rf r0 (b := NumF32.ofInt 2) (by decide) (by decide)).1
  have hmin := (min_spec (isNaN_of_isFinite hfin) (b := 0x469C4000#32) (by decide)).2
  have h41 := ofInt_mono (z := (41 : Nat)) (z' := rate) (by exact_mod_cast least)
  rw [rank_of_isFinite (by decide), rank_of_isFinite rf] at h41
  have hdiv := div_mono (b := NumF32.ofInt 2) (by decide) rf (by decide) (by decide) h41
  have e41 : rank (NumF32.div (NumF32.ofInt (41 : Nat)) (NumF32.ofInt 2)) = toInt 0x41A40000#32 := by decide
  have hmax : toInt 0x41A40000#32 ≤ toInt 0x469C4000#32 := by decide
  have hres := isFinite_min hfin (b := 0x469C4000#32) (by decide)
  rw [← fHi_eq] at hmin hres
  rw [rank_of_isFinite hres, rank_of_isFinite (a := 0x469C4000#32) (by decide)] at hmin
  exact ⟨hres, by omega, by omega, by omega⟩

/-- A bin at or above the scale's ceiling is there in the arithmetic too. -/
theorem fHi_le_binCenter (hi : i ≤ 512) (h : Min.min rate 40000 * 1024 ≤ 2 * (i * rate)) :
    toInt (dataF32.fHi rate) ≤ toInt (binCenter rate i) := by
  obtain ⟨-, -, half, ceiling⟩ := fHi_spec hrate least
  rcases le_or_gt rate 40000 with hsmall | hlarge
  · -- only the last bin, whose frequency is half the rate exactly
    have hi512 : i = 512 := by
      rw [min_eq_left hsmall] at h
      have : rate * 512 ≤ rate * i := by linarith
      have := Nat.le_of_mul_le_mul_left this (by omega)
      omega
    obtain ⟨rf, rv⟩ := ofInt_exact (n := rate) (by omega)
    obtain ⟨wf, wv⟩ := ofInt_scaled (n := rate) (k := 9) (by omega) (by decide)
    have hprod : toInt (NumF32.ofInt (rate * 2 ^ 9 : Nat)) ≤ rank (NumF32.mul (NumF32.ofInt i) (NumF32.ofInt rate)) := by
      rw [← rank_of_isFinite wf, rank_mul_ofInt (by omega) (by omega), hi512, mul_comm 512, show 2 ^ 9 = 512 from rfl]
    refine half.trans (le_trans ?_ (le_binCenter_of_product hrate hi wf hprod))
    refine (div_rounds_of_pos rf (by decide) (by decide)).rank_mono
      (div_rounds_of_pos wf (by decide) (by decide)) (by decide) (by decide) (le_of_eq ?_)
    have e2 : (toInt (NumF32.ofInt 2)).natAbs = 2 * 2 ^ 149 := by decide
    have e1024 : (toInt (NumF32.ofInt 1024)).natAbs = 1024 * 2 ^ 149 := by decide
    rw [rv, wv, e2, e1024]
    push_cast
    ring
  · -- the product is at least the ceiling's, 20000·1024
    rw [min_eq_right hlarge.le] at h
    have hceil : toInt 0x469C4000#32 ≤ rank (NumF32.div (NumF32.ofInt (20480000 : Nat)) (NumF32.ofInt 1024)) := by
      decide
    have hprod : rank (NumF32.ofInt (20480000 : Nat)) ≤ rank (NumF32.mul (NumF32.ofInt i) (NumF32.ofInt rate)) := by
      rcases le_or_gt rate (2 ^ 24) with h24 | h24
      · rw [rank_mul_ofInt (by omega) h24]
        exact ofInt_mono (by omega)
      · rcases le_or_gt i 1 with h1 | h2
        · have : i * rate ≤ 1 * rate := Nat.mul_le_mul_right _ h1
          have : i ≠ 0 := by rintro rfl; omega
          exact le_trans (by decide) (product_mono hrate (m := 1) (n := 20480000) (by omega) (by omega) hi)
        · exact le_trans (by decide) (product_mono hrate h24.le (Nat.succ_le_of_lt h2) hi)
    rw [rank_of_isFinite (by decide)] at hprod
    exact ceiling.trans (hceil.trans (le_binCenter_of_product hrate hi (by decide) hprod))

theorem bandOfBin_mono (hij : i ≤ j) (hj : j ≤ 512) : dataF32.bandOfBin rate i ≤ dataF32.bandOfBin rate j := by
  obtain ⟨hhi, h20, -⟩ := fHi_spec hrate least
  rw [bandOfBin_eq, bandOfBin_eq]
  exact bandOfFreq_mono hhi h20 (isFinite_binCenter hrate (hij.trans hj)) (isFinite_binCenter hrate hj)
    (binCenter_mono hrate hij hj)

theorem bandOfBin_low (hi : i ≤ 512) (h : i * rate ≤ 20 * 1024) : dataF32.bandOfBin rate i = 0 := by
  obtain ⟨hhi, h20, -⟩ := fHi_spec hrate least
  rw [bandOfBin_eq]
  exact bandOfFreq_low hhi h20 (isFinite_binCenter hrate hi) (binCenter_low hrate hi h)

theorem bandOfBin_high (hi : i ≤ 512) (h : Min.min rate 40000 * 1024 ≤ 2 * (i * rate)) : dataF32.bandOfBin rate i = 95 := by
  obtain ⟨hhi, h20, -⟩ := fHi_spec hrate least
  rw [bandOfBin_eq]
  exact bandOfFreq_high hhi h20 (isFinite_binCenter hrate hi) (fHi_le_binCenter hrate least hi h)

end

theorem bandmapFor_le {rate b : Nat} (h : b ∈ bandmapFor Params.default rate) : b ≤ 95 := by
  obtain ⟨i, -, rfl⟩ := List.mem_map.mp h
  exact bandEntry_le 96 _

/-! ## The exact table -/

/-- A larger ratio reaches every band that a smaller one reaches. -/
theorem bandOfRatio_mono {a a' d c e : Nat} (hd : 0 < d) (ha : 0 < a) (haa : a ≤ a') (he : 0 < e) (hc : e < c) :
    bandOfRatio a d c e ≤ bandOfRatio a' d c e := by
  have hM : 0 < Real.log ((c : ℝ) / e) := Real.log_pos ((one_lt_div (by exact_mod_cast he)).mpr (by exact_mod_cast hc))
  have hlog : Real.log ((a : ℝ) / d) ≤ Real.log ((a' : ℝ) / d) :=
    Real.log_le_log (by positivity) (by gcongr)
  refine (List.monotone_filter_right _ fun j hj => ?_).length_le
  rw [reaches_iff hd ha he hc (by omega)] at hj
  rw [reaches_iff hd (by omega) he hc (by omega)]
  exact hj.trans (by gcongr)

/-- The ratio 1 reaches no band above the first. -/
theorem bandOfRatio_one {d c e : Nat} (hd : 0 < d) (he : 0 < e) (hc : e < c) : bandOfRatio d d c e = 0 := by
  refine List.length_eq_zero_iff.mpr (List.filter_eq_nil_iff.mpr fun j _ hj => ?_)
  rw [reaches_iff hd hd he hc (by omega), div_self (by positivity), Real.log_one, zero_div, zero_mul] at hj
  push_cast at hj
  have : (0 : ℝ) ≤ j := by positivity
  linarith

/-- A ratio not below the scale's reaches every band. -/
theorem bandOfRatio_top {a d c e : Nat} (hd : 0 < d) (he : 0 < e) (hc : e < c) (h : c * d ≤ a * e) :
    bandOfRatio a d c e = 95 := by
  have hM : 0 < Real.log ((c : ℝ) / e) := Real.log_pos ((one_lt_div (by exact_mod_cast he)).mpr (by exact_mod_cast hc))
  have hc0 : 0 < c := he.trans hc
  have ha : 0 < a := Nat.pos_of_ne_zero fun h0 => by
    rw [h0, zero_mul] at h
    exact absurd h (Nat.mul_pos hc0 hd).not_ge
  have hlog : Real.log ((c : ℝ) / e) ≤ Real.log ((a : ℝ) / d) := by
    refine Real.log_le_log (by positivity) ?_
    rw [div_le_div_iff₀ (by positivity) (by positivity)]
    exact_mod_cast h
  have hall : ∀ j ∈ List.range (Config.bands - 1), reaches a d c e (j + 1) = true := fun j hj => by
    rw [reaches_iff hd ha he hc (by omega)]
    have hj : (j + 1 : ℝ) ≤ 95 := by exact_mod_cast List.mem_range.mp hj
    have := (one_le_div hM).mpr hlog
    push_cast
    linarith
  rw [bandOfRatio, List.filter_eq_self.mpr hall]
  rfl

section

variable {rate i j : Nat} (least : 41 ≤ rate)
include least

theorem twiceFHi_gt : 2 * Config.fLoHz < twiceFHi rate := by
  unfold twiceFHi
  show 40 < Min.min rate 40000
  omega

theorem exact_bandOfBin_mono (hij : i ≤ j) : NumF32.bandOfBin rate i ≤ NumF32.bandOfBin rate j :=
  bandOfRatio_mono (by decide) (lt_of_lt_of_le (by decide) (le_max_right _ _))
    (max_le_max (Nat.mul_le_mul_right rate hij) le_rfl) (by decide) (twiceFHi_gt least)

theorem exact_bandOfBin_low (h : i * rate ≤ 20 * 1024) : NumF32.bandOfBin rate i = 0 := by
  have hfloor : Nat.max (i * rate) (Config.fftSize * Config.fLoHz) = Config.fftSize * Config.fLoHz := max_eq_right h
  rw [NumF32.bandOfBin, hfloor]
  exact bandOfRatio_one (by decide) (by decide) (twiceFHi_gt least)

theorem exact_bandOfBin_high (h : Min.min rate 40000 * 1024 ≤ 2 * (i * rate)) : NumF32.bandOfBin rate i = 95 := by
  refine bandOfRatio_top (by decide) (by decide) (twiceFHi_gt least) ?_
  have hfreq : i * rate ≤ Nat.max (i * rate) (Config.fftSize * Config.fLoHz) := le_max_left _ _
  calc twiceFHi rate * (Config.fftSize * Config.fLoHz) = Min.min rate 40000 * 1024 * 20 := (mul_assoc _ _ _).symm
    _ ≤ 2 * (i * rate) * 20 := Nat.mul_le_mul_right _ h
    _ = i * rate * 40 := by ring
    _ ≤ _ := Nat.mul_le_mul_right _ hfreq

end

/-- The last bin lies at half the rate, which is not below the ceiling. -/
theorem ceiling_le_last_bin (rate : Nat) : Min.min rate 40000 * 1024 ≤ 2 * (512 * rate) := by omega

/-- Settles O16: the exact comparisons and the arithmetic's operations are monotone, and those at the two ends are exact. -/
theorem bandMapIsMonotoneAndAnchored : Obligations.BandMapIsMonotoneAndAnchored := by
  intro rate least
  refine ⟨fun i j => exact_bandOfBin_mono least, exact_bandOfBin_low least (by omega),
    exact_bandOfBin_high least (ceiling_le_last_bin rate), fun i => exact_bandOfBin_high least, fun i => exact_bandOfBin_low least,
    fun hrate => ⟨fun i j => bandOfBin_mono hrate least, bandOfBin_low hrate least (by decide) (by omega),
      bandOfBin_high hrate least le_rfl (ceiling_le_last_bin rate), fun i => bandOfBin_high hrate least,
      fun i => bandOfBin_low hrate least, fun b => bandmapFor_le⟩⟩

end Sys2Proof

/-! The decoder and the encoder are inverse to each other, and which headers are illegal (R87, R102, R109). -/

namespace Sys2Proof

/-! ## A header and its fields (R86) -/

theorem opcode_eq (w : Word) : field w 24 8 = w.toNat / 2 ^ 24 := by
  have := w.isLt
  rw [field_eq]; omega

theorem operand_eq (w : Word) : field w 0 24 = w.toNat % 2 ^ 24 := by
  rw [field_eq, pow_zero, Nat.div_one]

theorem upper_eq (w : Word) : field w 8 16 = w.toNat % 2 ^ 24 / 2 ^ 8 := by
  rw [field_eq]; omega

/-- A word is the header of its opcode and its operand. -/
theorem header_fields (w : Word) : header (field w 24 8) (field w 0 24) = w :=
  header_of_toNat (by rw [opcode_eq, operand_eq]; omega)

/-- The operand of `CFG` and `RDREG` is its upper 16 bits and its lower 8 (R88, R98). -/
theorem operand_split (w : Word) : field w 0 24 = field w 8 16 * 2 ^ 8 + field w 0 8 := by
  rw [field_eq w 8, field_eq w 0 8, operand_eq]; omega

section

variable {op a : Nat} (hop : op < 2 ^ 8) (ha : a < 2 ^ 24)
include hop ha

theorem opcode_header : field (header op a) 24 8 = op := by
  rw [opcode_eq, header_toNat hop ha]; omega

theorem operand_header : field (header op a) 0 24 = a := by
  rw [operand_eq, header_toNat hop ha]; omega

theorem upper_header : field (header op a) 8 16 = a / 2 ^ 8 := by
  rw [field_eq, header_toNat hop ha]; omega

theorem lower_header : field (header op a) 0 8 = a % 2 ^ 8 := by
  rw [field_eq, header_toNat hop ha]; omega

end

/-! ## The opcode map (R87) -/

/-- The opcode of a command's row. -/
def Instr.opcode : Instr → Nat
  | .cfg _ _ => 0x01
  | .batch _ => 0x02
  | .close => 0x03
  | .lvlPop => 0x10
  | .lvlLatest => 0x11
  | .spcPop => 0x12
  | .spcLatest => 0x13
  | .rdreg _ => 0x18

/-- The operand field of a command's header. -/
def Instr.operand : Instr → Nat
  | .cfg channels enc => channels * 2 ^ 8 + enc
  | .batch n => n
  | .close | .lvlPop | .lvlLatest | .spcPop | .spcLatest => 0
  | .rdreg r => r

theorem encode_eq_header (i : Instr) : encode i = header i.opcode i.operand := by cases i <;> rfl

theorem Instr.opcode_lt (i : Instr) : i.opcode < 2 ^ 8 := by cases i <;> simp [opcode]

theorem Instr.operand_lt {i : Instr} (h : i.wellFormed = true) : i.operand < 2 ^ 24 := by
  cases i with
  | cfg channels enc =>
    simp only [wellFormed, Bool.and_eq_true, decide_eq_true_eq] at h
    rw [operand]; omega
  | batch n => exact of_decide_eq_true h
  | close | lvlPop | lvlLatest | spcPop | spcLatest => decide
  | rdreg r => exact (of_decide_eq_true h).trans (by decide)

theorem opcode_encode {i : Instr} (h : i.wellFormed = true) : field (encode i) 24 8 = i.opcode := by
  rw [encode_eq_header, opcode_header i.opcode_lt (Instr.operand_lt h)]

/-! ## Decoding and encoding are inverse -/

/-- The header of a well-formed command decodes to it (R87, R88, R90, R92, R98). -/
theorem decodeHeader_encode {i : Instr} (h : i.wellFormed = true) : decodeHeader (encode i) = .ok i := by
  have ha := Instr.operand_lt h
  have hop := i.opcode_lt
  simp only [decodeHeader, bareCommand, encode_eq_header, opcode_header hop ha, operand_header hop ha, upper_header hop ha,
    lower_header hop ha]
  cases i with
  | cfg channels enc =>
    simp only [Instr.wellFormed, Bool.and_eq_true, decide_eq_true_eq] at h
    have hupper : (channels * 2 ^ 8 + enc) / 2 ^ 8 = channels := by omega
    have hlower : (channels * 2 ^ 8 + enc) % 2 ^ 8 = enc := by omega
    simp only [Instr.opcode, Instr.operand, hupper, hlower]
  | batch n => rfl
  | close | lvlPop | lvlLatest | spcPop | spcLatest => rfl
  | rdreg r =>
    have hr : r < 2 ^ 8 := of_decide_eq_true h
    simp only [Instr.opcode, Instr.operand, Nat.div_eq_of_lt hr, Nat.mod_eq_of_lt hr, if_true]

/-- A header that decodes is legal on the command's own port (R108). -/
theorem decode_own_port {w : Word} {i : Instr} (h : decodeHeader w = .ok i) : decode i.port w = .ok i := by
  simp [decode, h]

/-- Settles O1: a header's fields are the operands it was made of. -/
theorem decodeOfEncodeIsTheCommand : Obligations.DecodeOfEncodeIsTheCommand :=
  fun _ h => decode_own_port (decodeHeader_encode h)

/-- A command without operand is decoded from a word with operand 0 (R92, R102 b). -/
theorem bareCommand_ok {w : Word} {i j : Instr} (h : bareCommand w i = .ok j) : j = i ∧ field w 0 24 = 0 := by
  unfold bareCommand at h
  split at h
  · cases h; exact ⟨rfl, ‹_›⟩
  · cases h

/-- A word that decodes is the header of the command it decodes to (R87, R109). -/
theorem encode_of_decodeHeader {w : Word} {i : Instr} (h : decodeHeader w = .ok i) : encode i = w := by
  have hw := header_fields w
  unfold decodeHeader at h
  split at h
  case h_1 hop => cases h; rwa [hop, operand_split] at hw
  case h_2 hop => cases h; rwa [hop] at hw
  case h_8 hop =>
    split at h
    · rename_i hupper
      cases h
      rwa [hop, operand_split, hupper, zero_mul, zero_add] at hw
    · cases h
  case h_9 => cases h
  all_goals
    rename_i hop
    obtain ⟨rfl, hoperand⟩ := bareCommand_ok h
    rwa [hop, hoperand] at hw

/-- Settles O2: each row of the decoder takes a word apart into the fields that its header is made of. -/
theorem decodedWordIsTheCommandsHeader : Obligations.DecodedWordIsTheCommandsHeader :=
  fun _ _ _ h => ⟨decode_wellFormed h, decode_port h, encode_of_decodeHeader (decodeHeader_of_decode h)⟩

/-! ## Illegal headers (R102) -/

/-- The opcodes of the eight commands (R87). -/
def opcodes : List Nat := [0x01, 0x02, 0x03, 0x10, 0x11, 0x12, 0x13, 0x18]

/-- The opcodes of the commands without operand (R92). -/
def bareOpcodes : List Nat := [0x03, 0x10, 0x11, 0x12, 0x13]

/-- The opcodes of the commands that are legal on a port (R87, R108). -/
def portOpcodes : Port → List Nat
  | .src => [0x01, 0x02, 0x03]
  | .con => [0x10, 0x11, 0x12, 0x13, 0x18]

theorem portOpcodes_unique {op : Nat} {p q : Port} (hp : op ∈ portOpcodes p) (hq : op ∈ portOpcodes q) : p = q := by
  have disjoint : ∀ op ∈ portOpcodes .src, op ∉ portOpcodes .con := by decide
  cases p <;> cases q
  · rfl
  · exact absurd hq (disjoint op hp)
  · exact absurd hp (disjoint op hq)
  · rfl

/-- The opcode of a legal header is one of its command's port. -/
theorem opcode_mem_port {w : Word} {i : Instr} (h : decodeHeader w = .ok i) : field w 24 8 ∈ portOpcodes i.port := by
  rw [← encode_of_decodeHeader h, opcode_encode (decodeHeader_wellFormed h)]
  cases i <;> simp [Instr.opcode, Instr.port, portOpcodes]

theorem bareCommand_error_iff (w : Word) (i : Instr) : (∃ e, bareCommand w i = .error e) ↔ field w 0 24 ≠ 0 := by
  unfold bareCommand
  split <;> simp_all

/-- Which headers are illegal on either port (R102 a to c). -/
theorem decodeHeader_error_iff (w : Word) : (∃ e, decodeHeader w = .error e) ↔
    field w 24 8 ∉ opcodes ∨ (field w 24 8 ∈ bareOpcodes ∧ field w 0 24 ≠ 0)
      ∨ (field w 24 8 = 0x18 ∧ field w 8 16 ≠ 0) := by
  unfold decodeHeader
  split
  case h_1 hop => simp [hop, opcodes, bareOpcodes]
  case h_2 hop => simp [hop, opcodes, bareOpcodes]
  case h_8 hop => split <;> simp_all [opcodes, bareOpcodes]
  case h_9 => simp_all [opcodes, bareOpcodes]
  all_goals
    rename_i hop
    rw [bareCommand_error_iff, hop]
    simp [opcodes, bareOpcodes]

/-- Which headers are illegal on a port: those illegal on either, and those of the other port's commands (R102 d, R108). -/
theorem decode_error_iff (p : Port) (w : Word) : (∃ e, decode p w = .error e) ↔
    (∃ e, decodeHeader w = .error e) ∨ ∃ q, q ≠ p ∧ field w 24 8 ∈ portOpcodes q := by
  cases hd : decodeHeader w with
  | error e => simp [decode, hd]
  | ok i =>
    have hport := opcode_mem_port hd
    have herror : (∃ e, decode p w = .error e) ↔ i.port ≠ p := by
      simp only [decode, hd]
      split <;> simp_all
    rw [herror]
    constructor
    · exact fun hne => .inr ⟨i.port, hne, hport⟩
    · rintro (⟨e, he⟩ | ⟨q, hne, hq⟩)
      · cases he
      · rwa [portOpcodes_unique hport hq]

/-- The other port's opcodes, port by port. -/
theorem wrongPort_iff (p : Port) (op : Nat) : (∃ q, q ≠ p ∧ op ∈ portOpcodes q) ↔
    (op ∈ portOpcodes .src ∧ p = .con) ∨ (op ∈ portOpcodes .con ∧ p = .src) := by
  constructor
  · rintro ⟨q, hne, hop⟩
    cases q <;> cases p
    · exact absurd rfl hne
    · exact .inl ⟨hop, rfl⟩
    · exact .inr ⟨hop, rfl⟩
    · exact absurd rfl hne
  · rintro (⟨hop, rfl⟩ | ⟨hop, rfl⟩)
    · exact ⟨.src, by decide, hop⟩
    · exact ⟨.con, by decide, hop⟩

/-- Settles O4: the fields of each word, computed. -/
theorem sampleHeaderWordsDecode : Obligations.SampleHeaderWordsDecode := by
  unfold Obligations.SampleHeaderWordsDecode
  decide

end Sys2Proof

namespace Sys2Proof.Machine

variable {α : Type} {p : Params α} {s : State α}

/-! ## What an illegal header and a refused command do (R102, R103, R262) -/

theorem stepSrc_illegal (run : Runner α) {w : Word} {rest : List Word} {e : Illegal} (ready : s.capPhase = .ready)
    (header : s.srcRx = .header) (words : s.srcIn = w :: rest) (illegal : decode .src w = .error e) :
    stepSrc run s = .next (raise .illegalCommand { s with srcIn := rest }) := by
  simp [stepSrc, acceptSource, ready, header, words, illegal]

theorem stepCon_illegal (run : Runner α) {w : Word} {rest : List Word} {e : Illegal} (words : s.conIn = w :: rest)
    (illegal : decode .con w = .error e) : stepCon run s = .next (raise .illegalCommand { s with conIn := rest }) := by
  simp [stepCon, acceptConsumer, words, illegal]

/-- A reserved register's number is refused (R240). -/
theorem runRdreg_reserved {r : Nat} (reserved : 16 < r) : runRdreg p r s = raise .illegalCommand s := by
  rw [runRdreg, (readRegister_none_iff p r s).mpr reserved]

/-- Settles O3: which headers decode to nothing, and that such a header's turn only raises the exception. -/
theorem illegalHeadersRaiseIllegalCommand : Obligations.IllegalHeadersRaiseIllegalCommand := by
  refine ⟨fun p w => ?_, fun s ts w rest e turn ready header words illegal => ?_,
    fun s ts w rest e turn words illegal => ?_, fun r s reserved bound => ⟨?_, ?_⟩⟩
  · rw [decode_error_iff, decodeHeader_error_iff, wrongPort_iff, opcode_eq, operand_eq, upper_eq, or_assoc, or_assoc]
    rfl
  · rw [step_of_src turn]; exact stepSrc_illegal exec ready header words illegal
  · rw [step_of_con turn]; exact stepCon_illegal exec words illegal
  · exact decodeOfEncodeIsTheCommand (.rdreg r) (decide_eq_true bound)
  · exact congrArg Host.Outcome.next (runRdreg_reserved reserved)

/-- The port expects a header again exactly when all the payload has arrived (R103; log 13). -/
theorem discardPayload_eq (n : Nat) (s : State α) : discardPayload n s = { s with
    srcIn := s.srcIn.drop n
    srcRx := if n ≤ s.srcIn.length then .header else .discard (n - s.srcIn.length) } := by
  simp only [discardPayload, Nat.sub_eq_zero_iff_le]

/-- A turn of the source with payload of a refused command still to come (R103). -/
theorem stepSrc_discard (run : Runner α) {n : Nat} (ready : s.capPhase = .ready) (discard : s.srcRx = .discard n) :
    stepSrc run s = .next { s with
      srcIn := s.srcIn.drop n
      srcRx := if n ≤ s.srcIn.length then .header else .discard (n - s.srcIn.length) } := by
  simp [stepSrc, ready, discard, discardPayload_eq]

/-- A source command is refused by the state (R120). -/
def State.Refuses (s : State α) (i : Instr) : Prop :=
  (∃ channels enc, i = .cfg channels enc ∧ (s.cfgOk = true ∨ s.cfgErr = true ∨ s.closed = true))
    ∨ (∃ n, i = .batch n ∧ ¬(s.cfgOk = true ∧ s.cfgErr = false ∧ s.closed = false))
    ∨ (i = .close ∧ s.closed = true)

/-- A refused source command raises `IllegalCommand` and its payload is discarded (R103, R120). -/
theorem execAt_refused {i : Instr} (ready : s.capPhase = .ready) (refused : s.Refuses i) :
    execAt p i s = .next (discardPayload i.payloadWords (raise .illegalCommand s)) := by
  rcases refused with ⟨channels, enc, rfl, hcfg⟩ | ⟨n, rfl, hbatch⟩ | ⟨rfl, hclose⟩
  · have hr : s.refusesCfg = true := by simpa [State.refusesCfg, or_assoc] using hcfg
    rw [execAt, runCfg, hr, runSource_refused _ _ ready]
  · have hr : s.refusesBatch = true := by simpa [State.refusesBatch, or_iff_not_imp_left] using hbatch
    rw [execAt, runBatch, hr, runSource_refused _ _ ready]
  · rw [execAt, runClose, State.refusesClose, hclose, runSource_refused _ _ ready]

/-- Settles O13: a refusal raises the exception and discards the payload, and so does a later turn with the rest of it. -/
theorem sourceCommandsRefusedByState : Obligations.SourceCommandsRefusedByState := by
  refine ⟨fun s i ready refused => ?_, fun s ts n turn ready discard => ?_⟩
  · rw [exec_eq, execAt_refused ready refused, discardPayload_eq]; rfl
  · rw [step_of_src turn]; exact stepSrc_discard exec ready discard

end Sys2Proof.Machine

/-! The level and spectrum commands under the default parameters (R236 to R239). -/

namespace Sys2Proof.Machine

variable {α : Type} {p : Params α} {s : State α}

/-- An access to `LQ` that gives nothing answers "not valid" (R99). -/
theorem answerLevel_none {got : Option (Level α) × List (Level α)} (hgot : got = (none, s.lq)) :
    answerLevel p got s = { s with conOut := s.conOut ++ [0x00000000#32] } := by
  rw [answerLevel, hgot]; rfl

/-- An access to `SQ` that gives nothing answers "not valid" (R100). -/
theorem answerSpectrum_none {got : Option (Snapshot α) × List (Snapshot α)} (hgot : got = (none, s.sq)) :
    answerSpectrum p got s = { s with conOut := s.conOut ++ [0x00000000#32] } := by
  rw [answerSpectrum, hgot]; rfl

/-- A value of the default arithmetic is its own image (R107). -/
theorem map_image (values : List F32) : values.map Params.default.data.image = values := List.map_id' values

/-- Settles O48: what `LQ` gives is popped from its front. -/
theorem levelPopAnswersTheOldest : Obligations.LevelPopAnswersTheOldest := by
  refine fun s => ⟨fun rms peak rest queue => ?_, fun queue => ?_⟩
  · obtain ⟨w₁, w₂, h₁, h₂, e⟩ := answerLevel_some (p := Params.default) (s := s) (got := fifoTryPop s.lq)
      (by rw [queue, fifoTryPop_cons])
    exact ⟨w₁, w₂, h₁, h₂, congrArg Host.Outcome.next e⟩
  · exact congrArg Host.Outcome.next (answerLevel_none (by rw [queue, fifoTryPop_nil]))

/-- Settles O49: what `LQ` gives is the last of it. -/
theorem levelLatestAnswersTheNewest : Obligations.LevelLatestAnswersTheNewest := by
  refine fun s => ⟨fun rms peak older queue => ?_, fun queue => ?_⟩
  · obtain ⟨w₁, w₂, h₁, h₂, e⟩ := answerLevel_some (p := Params.default) (s := s) (got := fifoTakeLatest s.lq)
      (by rw [queue, fifoTakeLatest_append])
    exact ⟨w₁, w₂, h₁, h₂, congrArg Host.Outcome.next e⟩
  · exact congrArg Host.Outcome.next (answerLevel_none (by rw [queue, fifoTakeLatest_nil]))

/-- Settles O50: what `SQ` gives is popped from its front, and a word answers each of its values. -/
theorem spectrumPopAnswersTheOldest : Obligations.SpectrumPopAnswersTheOldest := by
  refine fun s => ⟨fun snap rest queue => ?_, fun queue => ?_⟩
  · obtain ⟨words, h, e⟩ := answerSpectrum_some (p := Params.default) (s := s) (got := fifoTryPop s.sq)
      (by rw [queue, fifoTryPop_cons])
    rw [map_image] at h
    refine ⟨words, h, congrArg Host.Outcome.next e, fun hbands hlinear => ?_⟩
    rw [List.length_cons, ← h.length_eq, List.length_append, hbands, hlinear]
  · exact congrArg Host.Outcome.next (answerSpectrum_none (by rw [queue, fifoTryPop_nil]))

/-- Settles O51: what `SQ` gives is the last of it. -/
theorem spectrumLatestAnswersTheNewest : Obligations.SpectrumLatestAnswersTheNewest := by
  refine fun s => ⟨fun snap older queue => ?_, fun queue => ?_⟩
  · obtain ⟨words, h, e⟩ := answerSpectrum_some (p := Params.default) (s := s) (got := fifoTakeLatest s.sq)
      (by rw [queue, fifoTakeLatest_append])
    rw [map_image] at h
    exact ⟨words, h, congrArg Host.Outcome.next e⟩
  · exact congrArg Host.Outcome.next (answerSpectrum_none (by rw [queue, fifoTakeLatest_nil]))

end Sys2Proof.Machine

/-! `CONV` and `BATCH` (R141 to R146). -/

namespace Sys2Proof

open NumF32 Machine

/-! ## `CONV` (R141) -/

/-- A number of 16 bits over 32768 is a binary32 number: 2^149 quanta are a multiple of 32768. -/
theorem sampleOfInt_exact {z : Int} (h : z.natAbs ≤ 32768) :
    isFinite (sampleOfInt z) = true ∧ 32768 * toInt (sampleOfInt z) = z * (2 ^ 149 : Nat) := by
  obtain ⟨hlt, hmag⟩ := roundMag_of_eq (num := z.natAbs * one) (den := 32768) (r := z.natAbs) (j := 134) (by decide)
    (by omega) (by decide) (by rw [mul_assoc]; rfl)
  refine ⟨isFinite_pack _ hlt, ?_⟩
  rw [sampleOfInt, ofRat, toInt_pack _ (hlt.trans (by decide)), hmag]
  rcases lt_or_ge z 0 with hz | hz
  · rw [decide_eq_true hz, if_pos rfl]; push_cast; rw [abs_of_neg hz]; ring
  · rw [decide_eq_false hz.not_gt, if_neg Bool.false_ne_true]; push_cast; rw [abs_of_nonneg hz]; ring

/-- Settles O21: a sample of 16 bits over 32768 is held exactly, and a finite word is passed through. -/
theorem sampleConversionIsExact : Obligations.SampleConversionIsExact := by
  intro w free
  have hlo := BitVec.le_two_mul_toInt (x := w.extractLsb' 0 16)
  have hhi := BitVec.two_mul_toInt_lt (x := w.extractLsb' 0 16)
  have hlt := (w.extractLsb' 0 16).isLt
  refine ⟨?_, ?_, fun hfinite => ?_⟩
  · exact sampleOfInt_exact (z := (w.extractLsb' 0 16).toInt) (by omega)
  · exact sampleOfInt_exact (z := (w.extractLsb' 0 16).toNat - 32768) (by omega)
  · rw [conv, if_pos rfl, if_pos hfinite]

/-! ## `BATCH` -/

/-- A word of the payload is one of port SRC. -/
theorem getD_drop_take {words : List Word} {n m j : Nat} (h : m + j < n) :
    ((words.take n).drop m).getD j 0 = words.getD (m + j) 0 := by
  rw [List.getD_eq_getElem?_getD, List.getElem?_drop, List.getElem?_take_of_lt h, List.getD_eq_getElem?_getD]

/-- A frame's mono sample from the words of port SRC: a complete frame lies inside the payload (R142, R143). -/
theorem dmxFrame_payload {words : List Word} {c n k : Nat} (hk : k < n / c) (enc : BitVec 8) (base : Nat) :
    dataF32.dmxFrame c enc base ((words.take n).drop (k * c))
      = NumF32.mul 0x3F000000#32 (NumF32.add (conv enc (words.getD (k * c) 0) (Config.freeSample base))
          (if 1 < c then conv enc (words.getD (k * c + 1) 0) (Config.freeSample (base + 1)) else 0x00000000#32)) := by
  have hend : (k + 1) * c ≤ n := (Nat.mul_le_mul_right c hk).trans (Nat.div_mul_le_self n c)
  rw [add_mul, one_mul] at hend
  have hc : 0 < c := Nat.pos_of_ne_zero fun h0 => by simp [h0] at hk
  rw [dmxFrame_eq, getD_drop_take (j := 0) (by omega)]
  split
  · rw [getD_drop_take (j := 1) (by omega)]; rfl
  · rfl

/-- A batch has one mono sample a complete frame (R142). -/
theorem capDmx_mono_length {α : Type} (p : Params α) (raw : List Word) (s : State α) :
    (capDmx p raw s).mono.length = raw.length / s.channels.toNat := by rw [capDmx_mono, downmix_length]

/-- The level of a batch with its accumulators (R145, R146). -/
theorem levelOf_eq (mono : List F32) : Machine.levelOf Params.default mono =
    if mono.length = 0 then ⟨0x00000000#32, 0x00000000#32⟩
    else ⟨NumF32.sqrt (NumF32.div (dataF32.sumSquares mono) (NumF32.ofNat mono.length)), dataF32.peakOf mono⟩ := by
  rcases levelOf_cases Params.default mono with ⟨h0, e⟩ | ⟨hne, e⟩
  · rw [e, if_pos h0, default_data, dataF32_zero]
  · rw [e, if_neg hne, default_data, rmsOf_eq]

/-- Settles O19, field by field of the downmix. -/
theorem batchDownmixesAndMeters : Obligations.BatchDownmixesAndMeters := by
  intro s n ready cfgOk cfgErr isOpen bound words
  have hlen : (s.srcIn.take n).length = n := by rw [List.length_take, Nat.min_eq_left words]
  have hframes : (s.srcIn.take n).length / s.channels.toNat = n / s.channels.toNat := by rw [hlen]
  refine ⟨_, congrArg Host.Outcome.next (runBatch_ready ready cfgOk cfgErr isOpen words), ?_, ?_, fun k hk => ?_,
    sumSquares_eq _, peakOf_eq _, ?_, rfl, rfl, rfl, rfl, rfl⟩
  · rw [capDmx_nframes, hframes, BitVec.toNat_ofNat]
    exact Nat.mod_eq_of_lt ((Nat.div_le_self _ _).trans_lt bound)
  · rw [capDmx_mono_length, hframes]
  · rw [capDmx_mono, hframes, downmix_getElem? _ _ _ _ _ _ k hk, default_data, dmxFrame_payload hk]
  · rw [capDmx_level, levelOf_eq, capDmx_mono_length, hframes]
    rfl

end Sys2Proof

/-! The commands of the configuration and of the close: `CFG` (R121 to R126) and `CLOSE` (R130, R131). -/

namespace Sys2Proof.NumF32

/-! ## The frequency ceiling in the default arithmetic (R22, R125) -/

section

variable {rate : Nat}

/-- Half a rate of 24 bits is a binary32 number, and the division gives it. -/
theorem half_exact (h : rate < 2 ^ 24) : isFinite (div (ofInt rate) (ofInt 2)) = true
    ∧ 2 * toInt (div (ofInt rate) (ofInt 2)) = (rate * 2 ^ 149 : Nat) := by
  obtain ⟨rf, rv⟩ := ofInt_exact h.le
  obtain ⟨m, hm, e⟩ := exists_image rate 148 h (by decide)
  have hval : toInt (pack false m) = (rate * 2 ^ 148 : Nat) := by
    rw [toInt_pack false (by omega), if_neg Bool.false_ne_true, e]
  have two : (toInt (ofInt 2)).natAbs = 2 * 2 ^ 149 := by decide
  have hr := div_rounds_of_pos rf (b := ofInt 2) (by decide) (by decide)
  have hnum : toInt (ofInt rate) * (2 ^ 149 : Nat) = toInt (pack false m) * (2 * 2 ^ 149 : Nat) := by
    rw [rv, hval]; push_cast; ring
  rw [two, hnum] at hr
  obtain ⟨hfin, hv⟩ := Rounds.exact (by decide) (isFinite_pack false hm) hr
  exact ⟨hfin, by rw [hv, hval]; push_cast; ring⟩

/-- Half a rate at or above the ceiling's double is rounded to at least the ceiling. -/
theorem ceiling_le_half (hrate : rate < 2 ^ 32) (h : 40000 ≤ rate) :
    toInt 0x469C4000#32 ≤ rank (div (ofInt rate) (ofInt 2)) := by
  have hofInt := ofInt_mono (z := (40000 : Nat)) (z' := rate) (by exact_mod_cast h)
  have rf := (ofInt_word hrate.le).1
  rw [rank_of_isFinite (by decide), rank_of_isFinite rf] at hofInt
  have e : rank (div (ofInt (40000 : Nat)) (ofInt 2)) = toInt 0x469C4000#32 := by decide
  exact e ▸ div_mono (by decide) rf (by decide) (by decide) hofInt

/-- `F_HI` is exactly the lesser of half the rate and 20000 Hz, although half a large rate is rounded. -/
theorem fHi_exact (hrate : rate < 2 ^ 32) : isFinite (dataF32.fHi rate) = true
    ∧ 2 * toInt (dataF32.fHi rate) = (Min.min rate 40000 * 2 ^ 149 : Nat) := by
  obtain ⟨rf, r0, -⟩ := ofInt_word hrate.le
  have hhalf := (isFinite_div rf r0 (b := ofInt 2) (by decide) (by decide)).1
  have hfin := isFinite_min hhalf (b := 0x469C4000#32) (by decide)
  have hmin := (min_spec (isNaN_of_isFinite hhalf) (b := 0x469C4000#32) (by decide)).2
  have ceiling : 2 * toInt 0x469C4000#32 = (40000 * 2 ^ 149 : Nat) := by decide
  rw [← fHi_eq] at hfin hmin
  rw [rank_of_isFinite hfin, rank_of_isFinite (a := 0x469C4000#32) (by decide)] at hmin
  refine ⟨hfin, ?_⟩
  rcases le_or_gt rate 40000 with hsmall | hlarge
  · obtain ⟨-, hv⟩ := half_exact (rate := rate) (by omega)
    rw [rank_of_isFinite hhalf] at hmin
    rw [min_eq_left hsmall]
    omega
  · have hle := ceiling_le_half hrate hlarge.le
    rw [min_eq_right hlarge.le]
    omega

end

end Sys2Proof.NumF32

namespace Sys2Proof.Machine

variable {α : Type} {p : Params α} {s t : State α}

/-! ## What a `CFG` does (R121, R123 to R126) -/

/-- An unsupported encoding is the first error (R123 a). -/
theorem cfgBody_encoding {channels enc : Nat} {rate : Word} (h : 2 < enc) :
    cfgBody p channels enc rate s = raise .cfgUnsupportedEncoding s := if_pos h

/-- No channels is the second error (R123 b). -/
theorem cfgBody_channels {channels enc : Nat} {rate : Word} (encoding : enc ≤ 2) (h : channels = 0) :
    cfgBody p channels enc rate s = raise .cfgZeroChannels s := by
  rw [cfgBody, if_neg (by omega), if_pos h]

/-- A configuration writes its registers, `STATUS` and `ANA.phase` only (R124 to R126). -/
theorem configure_frame (p : Params α) (channels enc : Nat) (rate : Word) (s : State α) :
    configure p channels enc rate s = { s with
      sampleRate := (configure p channels enc rate s).sampleRate, channels := (configure p channels enc rate s).channels
      encoding := (configure p channels enc rate s).encoding, fHi := (configure p channels enc rate s).fHi
      bandmap := (configure p channels enc rate s).bandmap, status := (configure p channels enc rate s).status
      anaPhase := (configure p channels enc rate s).anaPhase } := rfl

/-- `BANDMAP` of the default block has 513 entries (R28, R126). -/
theorem bandmapFor_default (rate : Nat) :
    bandmapFor Params.default rate = (List.range 513).map (dataF32.bandOfBin rate) := by
  simp only [bandmapFor, default_data, dataF32_nbins]

/-- Settles O11: the checks pass, and the configuration is read field by field. -/
theorem configurationWritesTheRegisters : Obligations.ConfigurationWritesTheRegisters := by
  intro s channels enc rate rest ready cfgOk cfgErr isOpen words encoding channel bound sampleRate
  refine ⟨configure Params.default channels enc rate { s with srcIn := rest, srcRx := .header }, ?_, rfl, ?_, ?_,
    NumF32.fHi_exact rate.isLt, ?_, rfl, rfl, rfl, rfl, configure_frame ..⟩
  · rw [exec_eq, execAt, runCfg_ready ready cfgOk cfgErr isOpen words, cfgBody_configures encoding channel sampleRate]
  · rw [configure_channels, BitVec.toNat_ofNat, Nat.mod_eq_of_lt bound]
  · rw [configure_encoding, BitVec.toNat_ofNat, Nat.mod_eq_of_lt (by omega)]
  · rw [configure_bandmap, bandmapFor_default]

/-- Settles O12, error by error. -/
theorem configurationErrorsInOrder : Obligations.ConfigurationErrorsInOrder := by
  intro s channels enc rate rest ready cfgOk cfgErr isOpen words code error
  rw [exec_eq, execAt, runCfg_ready ready cfgOk cfgErr isOpen words]
  rcases error with ⟨encoding, rfl⟩ | ⟨encoding, channel, rfl⟩ | ⟨encoding, channel, sampleRate, rfl⟩
  · rw [cfgBody_encoding encoding]; rfl
  · rw [cfgBody_channels encoding channel]; rfl
  · rw [cfgBody_rate encoding (Nat.pos_of_ne_zero channel) sampleRate]; rfl

/-! ## Once written, the configuration stays (R122) -/

/-- What a `CFG` decides: its outcome and cause, the configuration registers, `F_HI` and the band map. -/
def State.configuration (s : State α) :
    (Bool × Bool × BitVec 4) × (BitVec 32 × BitVec 16 × BitVec 8) × α × List Nat :=
  ((s.cfgOk, s.cfgErr, s.errCause), (s.sampleRate, s.channels, s.encoding), s.fHi, s.bandmap)

/-- A flag other than the two of `CFG` is no part of it. -/
theorem setStatus_configuration (s : State α) {mask : BitVec 32}
    (clear : mask.getLsbD 0 = false ∧ mask.getLsbD 1 = false ∧ mask.extractLsb' 8 4 = 0#4) :
    (s.setStatus mask).configuration = s.configuration := by
  obtain ⟨ok, err, cause⟩ := clear
  simp only [State.configuration, setStatus_cfgOk, setStatus_cfgErr, setStatus_errCause_of_clear s cause, ok, err,
    Bool.or_false, State.setStatus_sampleRate, State.setStatus_channels, State.setStatus_encoding, State.setStatus_fHi,
    State.setStatus_bandmap]

/-- A command after a `CFG` leaves the configuration: another `CFG` is refused (R120). -/
theorem ran_configuration {i : Instr} (ran : Ran p i s t) (executed : s.cfgOk = true ∨ s.cfgErr = true) :
    t.configuration = s.configuration := by
  cases ran with
  | held | batch | lvlPop | lvlLatest | spcPop | spcLatest | register => rfl
  | refused | closed | noRegister => exact setStatus_configuration _ (by decide)
  | cfgFailed channels enc rate rest s e ready words cfgOk cfgErr => simp [cfgOk, cfgErr] at executed
  | cfgDone channels enc rate rest s ready words cfgOk cfgErr => simp [cfgOk, cfgErr] at executed

theorem moved_configuration {m : Move} (hm : Moved p m s t) (noReset : m ≠ .reset)
    (executed : s.cfgOk = true ∨ s.cfgErr = true) : t.configuration = s.configuration := by
  cases hm with
  | idleSrc | idleCon | idleCap | idleAna | discarded | publ | pubf | received | passed => rfl
  | heldRan i s t ready held ran => exact ran_configuration ran executed
  | headerRan w rest i s t ready header words decoded ran => exact (ran_configuration ran executed :)
  | conRan w rest i s t words decoded ran => exact (ran_configuration ran executed :)
  | headerIllegal | conIllegal | exited | aborted => exact setStatus_configuration _ (by decide)
  | reset => exact absurd rfl noReset

/-- Settles O14, by cases over what a step can do. -/
theorem configurationIsWrittenAtMostOnce : Obligations.ConfigurationIsWrittenAtMostOnce := by
  intro s t executed noReset hstep
  obtain ⟨ts, fr, hm⟩ := step_moved hstep
  have keeps : t.configuration = s.configuration := (moved_configuration hm noReset executed :)
  simp only [State.configuration, Prod.mk.injEq] at keeps
  obtain ⟨⟨ok, err, cause⟩, ⟨rate, channels, encoding⟩, ceiling, map⟩ := keeps
  exact ⟨ok, err, cause, rate, channels, encoding, ceiling, map⟩

/-! ## `CLOSE` and the closed source (R130, R131) -/

/-- `CLOSE` of an open source sets `CLOSED` (R130). -/
theorem runClose_open (ready : s.capPhase = .ready) (isOpen : s.closed = false) :
    runClose s = { s with status := s.status ||| closedMask, srcRx := .header } := by
  rw [runClose, State.refusesClose, isOpen, runSource_ready _ _ ready (Nat.zero_le _)]
  rfl

/-- Settles O24: an open source's `CLOSE` runs, and a closed one's is refused with no payload to discard. -/
theorem closeSetsClosedOnly : Obligations.CloseSetsClosedOnly := by
  refine fun s ready => ⟨fun isOpen => ?_, fun isClosed => ?_⟩
  · exact congrArg Host.Outcome.next (runClose_open ready isOpen)
  · rw [exec_eq, execAt_refused ready (.inr (.inr ⟨rfl, isClosed⟩)), discardPayload_eq]
    exact congrArg Host.Outcome.next (by simp [Instr.payloadWords, State.setStatus, illMask])

/-- From one state to the other only the receive side of port SRC and `ILL` have changed. -/
def FeedsNothing (s t : State α) : Prop :=
  t = { s with srcIn := t.srcIn, srcRx := t.srcRx, status := t.status }
    ∧ (t.status = s.status ∨ t.status = s.status ||| 0x00000020#32)

/-- A command of a closed source waits for its payload or is refused (R120, R131). -/
theorem ran_feedsNothing {i : Instr} (ran : Ran p i s t) (isClosed : s.closed = true) (hport : i.port = .src) :
    FeedsNothing s t := by
  cases ran with
  | held => exact ⟨rfl, .inl rfl⟩
  | refused => exact ⟨rfl, .inr rfl⟩
  | cfgFailed | cfgDone | batch | closed => exact absurd isClosed (ne_true_of_eq_false ‹_›)
  | lvlPop | lvlLatest | spcPop | spcLatest | register | noRegister => cases hport

theorem moved_src_feedsNothing (hm : Moved p .src s t) (isClosed : s.closed = true)
    (held : ∀ i, s.srcRx = .held i → i.port = .src) : FeedsNothing s t := by
  cases hm with
  | idleSrc | discarded => exact ⟨rfl, .inl rfl⟩
  | headerIllegal => exact ⟨rfl, .inr rfl⟩
  | heldRan i s t ready hheld ran => exact ran_feedsNothing ran isClosed (held i hheld)
  | headerRan w rest i s t ready header words decoded ran =>
    exact (ran_feedsNothing ran isClosed (decode_port decoded) :)

/-- Settles O25: the turn's transition, from the state with the turn taken. -/
theorem closedSourceFeedsNothing : Obligations.ClosedSourceFeedsNothing := by
  intro s t ts isClosed ready held hturn hstep
  rw [step_eq, stepAt_of_turns hturn] at hstep
  exact (moved_src_feedsNothing (turn_moved hstep) isClosed held :)

end Sys2Proof.Machine

namespace Sys2Proof.Machine

variable {α : Type} {p : Params α} {s : State α}

/-! ## A batch with no complete frame (R146) -/

/-- Fewer samples than channels make no frame (R142). -/
theorem capDmx_mono_nil {raw : List Word} (few : raw.length < s.channels.toNat) : (capDmx p raw s).mono = [] := by
  rw [List.eq_nil_iff_length_eq_zero, capDmx_mono_length, Nat.div_eq_of_lt few]

/-- No frame has the level (0, 0). -/
theorem capDmx_level_zero {raw : List Word} (few : raw.length < s.channels.toNat) :
    (capDmx p raw s).level = ⟨p.data.zero, p.data.zero⟩ := by
  rw [capDmx_level, capDmx_mono_nil few]
  rcases levelOf_cases p [] with ⟨-, e⟩ | ⟨hne, -⟩
  · exact e
  · exact absurd List.length_nil hne

/-! ## The two publishes (R148, R149) -/

/-- The capture context's two turns in a batch are the level's publish, then the mono batch's (R128). -/
theorem stepCap_stepCap_of_pubLevel (phase : s.capPhase = .pubLevel) :
    stepCap p (stepCap p s) = capPubf p (capPubl p s) := by
  simp [stepCap, phase]

/-- Settles O20: there is no frame, and each of the two publishes finds room. -/
theorem emptyBatchStillPublishesZeroLevel : Obligations.EmptyBatchStillPublishesZeroLevel := by
  intro s n ready cfgOk cfgErr isOpen few words roomLq roomFq
  have short : (s.srcIn.take n).length < s.channels.toNat := by rwa [List.length_take, Nat.min_eq_left words]
  refine ⟨_, congrArg Host.Outcome.next (runBatch_ready ready cfgOk cfgErr isOpen words), capDmx_level_zero short,
    capDmx_mono_nil short, ?_⟩
  rw [stepCap_stepCap_of_pubLevel (capDmx_capPhase ..)]
  refine ⟨?_, ?_, capPubf_capPhase ..⟩
  · rw [capPubf_lq, capPubl_lq]
    exact (congrArg (fifoTryPush _ s.lq) (capDmx_level_zero short)).trans (fifoTryPush_room roomLq _)
  · rw [capPubf_fq, capPubl_fq, capPubl_mono]
    exact (congrArg (fifoTryPush _ s.fq) (capDmx_mono_nil short)).trans (fifoTryPush_room roomFq _)

/-- Settles O23: the turn is the publish of its phase, which asks only whether its own FIFO has room. -/
theorem capturePublishesNeverWait : Obligations.CapturePublishesNeverWait := by
  intro s ts turn
  rw [step_eq]
  exact ⟨fun phase => stepAt_publishes_level turn phase, fun phase => stepAt_publishes_frame turn phase⟩

end Sys2Proof.Machine

/-! The FIFOs as sequences of messages (R164, R168), and the turns of the two agents that change nothing (R165, R276, R309). -/

namespace Sys2Proof.Machine

variable {α : Type}

/-! ## Publishing without pops (R168) -/

/-- One more publish, to a FIFO that holds the first messages of a sequence. -/
theorem fifoTryPush_take (cap : Nat) (ms : List α) (m : α) : fifoTryPush cap (ms.take cap) m = (ms ++ [m]).take cap := by
  rcases Nat.lt_or_ge ms.length cap with room | full
  · rw [List.take_of_length_le room.le, fifoTryPush_room room, List.take_of_length_le (by simpa using room)]
  · rw [fifoTryPush_full (by rw [List.length_take, Nat.min_eq_left full]), List.take_append_of_le_length full]

/-- Settles O26, by induction on the publishes, the last one taken off. -/
theorem saturatedFifoKeepsTheFirst : Obligations.SaturatedFifoKeepsTheFirst := by
  intro α cap ms
  induction ms using List.reverseRecOn with
  | nil => rw [List.foldl_nil, List.take_nil]
  | append_singleton ms m ih => rw [List.foldl_append, ih, List.foldl_cons, List.foldl_nil, fifoTryPush_take]

/-! ## Draining by pops (R164) -/

/-- One pop of a drain: the message it answers replaces the last one kept. -/
def popKeepingLast (acc : Option α × List α) : Option α × List α :=
  match fifoTryPop acc.2 with
  | (some m, rest) => (some m, rest)
  | (none, rest) => (acc.1, rest)

@[simp] theorem popKeepingLast_nil (kept : Option α) : popKeepingLast (kept, []) = (kept, []) := rfl

@[simp] theorem popKeepingLast_cons (kept : Option α) (m : α) (q : List α) :
    popKeepingLast (kept, m :: q) = (some m, q) := rfl

/-- Enough pops leave the FIFO empty and keep its newest message, or what was kept before when there is none. -/
theorem popKeepingLast_iterate {q : List α} {k : Nat} (enough : q.length ≤ k) (kept : Option α) :
    popKeepingLast^[k] (kept, q) = (q.getLast?.or kept, []) := by
  induction q generalizing k kept with
  | nil => exact Function.iterate_fixed (popKeepingLast_nil kept) k
  | cons m q ih =>
    obtain ⟨k, rfl⟩ := Nat.exists_eq_add_of_le' (Nat.zero_lt_of_lt enough)
    rw [Function.iterate_succ_apply, popKeepingLast_cons, ih (Nat.le_of_succ_le_succ enough), List.getLast?_cons]
    cases q.getLast? <;> rfl

/-- Settles O27: the drain starts with nothing kept. -/
theorem takeLatestIsDrainingByPops : Obligations.TakeLatestIsDrainingByPops := by
  intro α q m k enough
  refine ⟨fifoTakeLatest_append q m, fifoTakeLatest_nil, ?_⟩
  have drained := popKeepingLast_iterate enough none
  rw [Option.or_none] at drained
  exact drained

/-! ## Turns that change nothing (R165, R276, R309) -/

/-- A publish always moves the capture context's phase on (R148, R149). -/
theorem stepCap_eq_self_iff (p : Params α) (s : State α) : stepCap p s = s ↔ s.capEnabled = false := by
  rcases stepCap_cases p s with ⟨phase, e⟩ | ⟨phase, e⟩ | ⟨phase, e⟩ <;> rw [e]
  · simp [State.capEnabled, phase]
  · have moves : capPubl p s ≠ s := fun h => by simpa [phase] using congrArg State.capPhase h
    simp [State.capEnabled, phase, moves]
  · have moves : capPubf p s ≠ s := fun h => by simpa [phase] using congrArg State.capPhase h
    simp [State.capEnabled, phase, moves]

/-- A transform mismatch aborts the analyzer (R185). -/
theorem raise_transformShapeMismatch_anaPhase (s : State α) : (raise .transformShapeMismatch s).anaPhase = .aborted := rfl

/-- Each step of the analyzer shows: a receive in `FQ`, an exit and an abort in the phase, a hop in the ring. -/
theorem stepAna_eq_self_iff {p : Params α} (hF : 0 < p.data.fftSize) (hH : 0 < p.data.hop) (s : State α) :
    stepAna p s = s ↔ s.anaEnabled = false := by
  rcases stepAna_cases p s with ⟨e, disabled⟩ | ⟨batch, rest, phase, queue, e⟩ | ⟨phase, queue, isClosed, e⟩
    | ⟨phase, full, e⟩ | ⟨phase, short, e⟩ <;> rw [e]
  · simp [disabled]
  · have moves : anaRecv p batch rest s ≠ s := fun h => by simpa [queue] using congrArg State.fq h
    simp [State.anaEnabled, phase, queue, moves]
  · have moves : anaExit s ≠ s := fun h => by simpa [phase] using congrArg State.anaPhase h
    simp [State.anaEnabled, phase, isClosed, moves]
  · have moves : anaPass p (ringPeek p.data.fftSize s.ring) s ≠ s := fun h => by
      have hlen := congrArg (fun t => t.ring.length) h
      simp only [anaPass_ring, ringDrop_length] at hlen
      omega
    simp [State.anaEnabled, phase, moves]
  · have moves : raise .transformShapeMismatch s ≠ s := fun h => by
      simpa [raise_transformShapeMismatch_anaPhase, phase] using congrArg State.anaPhase h
    simp [State.anaEnabled, phase, moves]

/-- Settles O56: under the default sizes, `F` and the hop are above 0. -/
theorem disabledAgentsDoNothing : Obligations.DisabledAgentsDoNothing := fun s =>
  ⟨stepCap_eq_self_iff Params.default s, stepAna_eq_self_iff (by decide) (by decide) s⟩

end Sys2Proof.Machine

/-! The analyzer's turns: receive, analysis step, exit and abort (R176, R181 to R190). -/

namespace Sys2Proof.Machine

variable {α : Type} {p : Params α} {s t : State α} {ts : List Move}

/-! ## What the analyzer's turn is (R176, R181, R185, R188) -/

/-- `ANA.RECV` is enabled by a batch (R176). -/
theorem stepAna_receives {batch : List α} {rest : List (List α)} (phase : s.anaPhase = .wait) (queue : s.fq = batch :: rest) :
    stepAna p s = anaRecv p batch rest s := by
  simp [stepAna, anaWait, phase, queue]

/-- `ANA.STEP` runs on a full window (R181). -/
theorem stepAna_passes (phase : s.anaPhase = .loop) (full : p.data.fftSize ≤ s.ring.length) :
    stepAna p s = anaPass p (ringPeek p.data.fftSize s.ring) s := by
  simp [stepAna, anaStep, phase, ringPeek_length_eq full]

/-- `ANA.EXIT` is enabled by a closed, drained input (R188). -/
theorem stepAna_exits (phase : s.anaPhase = .wait) (queue : s.fq = []) (isClosed : s.closed = true) :
    stepAna p s = anaExit s := by
  simp [stepAna, anaWait, phase, queue, isClosed]

/-- `ANA.ABORT` takes the place of the step on a short window (R185). -/
theorem stepAna_aborts (phase : s.anaPhase = .loop) (short : s.ring.length < p.data.fftSize) :
    stepAna p s = raise .transformShapeMismatch s := by
  have mismatch : (ringPeek p.data.fftSize s.ring).length ≠ p.data.fftSize := by rw [ringPeek_length]; omega
  simp [stepAna, anaStep, phase, mismatch]

/-- Settles O28: the turn is the receive. -/
theorem receiveAppendsOneBatch : Obligations.ReceiveAppendsOneBatch := by
  intro s ts batch rest turn phase queue
  rw [step_eq, stepAt_receives turn phase queue, anaRecv, loopTest, ringAppend, List.length_append]
  rfl

/-- Settles O35: the turn is the abort. -/
theorem shortWindowAbortsTheAnalyzer : Obligations.ShortWindowAbortsTheAnalyzer := by
  intro s ts turn phase short
  rw [step_of_ana turn]
  exact congrArg Host.Outcome.next (stepAna_aborts phase short)

/-- Settles O30: the turn is the step on the ring's first 1024 samples, and `SQ` takes the snapshot if it has room. -/
theorem analysisStepPublishesAndHops : Obligations.AnalysisStepPublishesAndHops := by
  intro s ts turn phase full
  refine ⟨_, rfl, ?_⟩
  rw [step_eq, stepAt_analyzes turn phase full, anaPass, loopTest, ringDrop_length]
  rfl

/-! ## The exit (R188) -/

/-- No command ends the analyzer. -/
theorem ran_not_exited {i : Instr} (ran : Ran p i s t) (running : s.anaPhase ≠ .exited) : t.anaPhase ≠ .exited := by
  cases ran with
  | held | refused | batch | closed | lvlPop | lvlLatest | spcPop | spcLatest | register | noRegister => exact running
  | cfgFailed channels enc rate rest s e ready words cfgOk cfgErr isOpen error =>
    obtain ⟨code, -, -, hraise⟩ := raise_cfgError error { s with srcIn := rest, srcRx := .header }
    rw [hraise]
    exact running
  | cfgDone => simp

/-- Of all transitions only the exit ends the analyzer. -/
theorem moved_exited {m : Move} (hm : Moved p m s t) (running : s.anaPhase ≠ .exited) (ended : t.anaPhase = .exited) :
    s.anaPhase = .wait ∧ s.fq = [] ∧ s.closed = true ∧ t = anaExit s := by
  cases hm with
  | exited s phase queue isClosed => exact ⟨phase, queue, isClosed, rfl⟩
  | idleSrc | discarded | headerIllegal | idleCon | conIllegal | idleCap | publ | pubf | idleAna => exact absurd ended running
  | heldRan i s t ready held ran => exact absurd ended (ran_not_exited ran running)
  | headerRan w rest i s t ready header words decoded ran => exact absurd ended (ran_not_exited ran running)
  | conRan w rest i s t words decoded ran => exact absurd ended (ran_not_exited ran running)
  | received => exact absurd ended (loopTest_ne _ _).2.1
  | passed => exact absurd ended (loopTest_ne _ _).2.1
  | aborted s => simp [raise_transformShapeMismatch_anaPhase] at ended
  | reset => cases ended

/-- Settles O29: the turn is the exit, and no other transition ends the analyzer. -/
theorem exitOnlyWhenClosedAndDrained : Obligations.ExitOnlyWhenClosedAndDrained := by
  refine ⟨fun s ts turn phase queue isClosed => ?_, fun s t hstep running ended => ?_⟩
  · rw [step_of_ana turn]
    exact congrArg Host.Outcome.next (stepAna_exits phase queue isClosed)
  · obtain ⟨ts, fr, hm⟩ := step_moved hstep
    obtain ⟨phase, queue, isClosed, rfl⟩ := moved_exited hm running ended
    exact ⟨phase, queue, isClosed, rfl, rfl, rfl⟩

/-! ## What an analysis step reads (R190) -/

/-- A turn of the analyzer on a full window is the analysis step (R181). -/
theorem moved_ana_pass (hm : Moved p .ana s t) (phase : s.anaPhase = .loop) (full : p.data.fftSize ≤ s.ring.length) :
    t = anaPass p (ringPeek p.data.fftSize s.ring) s := by
  cases hm with
  | idleAna s disabled => simp [State.anaEnabled, phase] at disabled
  | received batch rest s waiting | exited s waiting => rw [phase] at waiting; cases waiting
  | passed => rfl
  | aborted s looping short => omega

/-- What an analyzer's turn on a full window leaves in the filters and in `SQ` (R186, R223). -/
theorem step_ana_pass {s t : State} (hstep : step s = .next t) (mover : (takeTurn s).1 = .ana) (phase : s.anaPhase = .loop)
    (full : 1024 ≤ s.ring.length) : ∃ snap, snap = analysis Params.default s.bandmap (s.ring.take 1024) s.smDb s.smLin
      ∧ t.smDb = snap.bands ∧ t.smLin = snap.bandsLinear ∧ t.sq = fifoTryPush 8 s.sq snap := by
  obtain ⟨ts, fr, hm⟩ := step_moved hstep
  rw [mover] at hm
  rw [moved_ana_pass hm phase full]
  exact ⟨_, rfl, rfl, rfl, rfl⟩

/-- Settles O37: the snapshot is a function of the window, the filters and the band map. -/
theorem analysisDependsOnTheWindowOnly : Obligations.AnalysisDependsOnTheWindowOnly := by
  intro s₁ s₂ t₁ t₂ phase₁ phase₂ full₁ full₂ window db lin map mover₁ mover₂ step₁ step₂
  obtain ⟨snap₁, e₁, db₁, lin₁, sq₁⟩ := step_ana_pass step₁ mover₁ phase₁ full₁
  obtain ⟨snap₂, e₂, db₂, lin₂, sq₂⟩ := step_ana_pass step₂ mover₂ phase₂ full₂
  obtain rfl : snap₁ = snap₂ := by rw [e₁, e₂, window, db, lin, map]
  exact ⟨db₁.trans db₂.symm, lin₁.trans lin₂.symm, fun queue => by rw [sq₁, sq₂, queue]⟩

end Sys2Proof.Machine

/-! How many analysis steps a run of the analyzer makes (R189). -/

namespace Sys2Proof.Machine

variable {s t : State} {ts : List Move} {n total : Nat}

/-- The number of steps that `total` samples give (R189). -/
def emissions (total : Nat) : Nat := if total < 1024 then 0 else (total - 1024) / 512 + 1

theorem emissions_of_short (h : total < 1024) : emissions total = 0 := if_pos h

/-- A step on a full window leaves the steps that 512 samples fewer give (R186). -/
theorem emissions_hop (h : 1024 ≤ total) : emissions total = emissions (total - 512) + 1 := by
  unfold emissions
  split <;> split <;> omega

/-- All samples the analyzer holds or has still to receive. -/
def State.supply (s : State) : Nat := s.ring.length + (s.fq.map List.length).sum

/-- The turns the analyzer has still to take: a receive for each batch and the steps that all samples give. -/
def State.anaTurnsLeft (s : State) : Nat := s.fq.length + emissions s.supply

/-- The analyzer of `t` has gone through all that was there in `s`. -/
structure WorkedOff (s t : State) : Prop where
  phase : t.anaPhase = .wait
  queue : t.fq = []
  ring  : t.ring.length = s.supply - 512 * emissions s.supply
  sq    : t.sq.length = min 8 (s.sq.length + emissions s.supply)

/-- With nothing left to do the analyzer waits. -/
theorem WorkedOff.of_no_turnsLeft (tested : s.anaPhase = loopTest 1024 s.ring) (room : s.sq.length ≤ 8)
    (left : s.anaTurnsLeft = 0) : WorkedOff s s := by
  obtain ⟨hfq, hnone⟩ : s.fq.length = 0 ∧ emissions s.supply = 0 := by simpa [State.anaTurnsLeft] using left
  have queue : s.fq = [] := List.length_eq_zero_iff.mp hfq
  have supply : s.supply = s.ring.length := by simp [State.supply, queue]
  have short : s.ring.length < 1024 := by
    by_contra full
    rw [supply, emissions_hop (by omega)] at hnone
    omega
  exact ⟨tested.trans ((loopTest_eq_wait _ _).mpr short), queue, by omega, by omega⟩

/-- A FIFO within its capacity gains a message or stays full (R161). -/
theorem fifoTryPush_length_eq {α : Type} {cap : Nat} {q : List α} (h : q.length ≤ cap) (m : α) :
    (fifoTryPush cap q m).length = min cap (q.length + 1) := by
  rcases fifoTryPush_cases cap q m with ⟨room, e⟩ | ⟨full, e⟩ <;> rw [e]
  · rw [List.length_append, List.length_singleton]; omega
  · omega

/-- A batch received is one turn less, and the samples are the same (R176). -/
theorem anaRecv_worksOff {batch : List F32} {rest : List (List F32)} (queue : s.fq = batch :: rest) :
    (anaRecv Params.default batch rest s).anaTurnsLeft + 1 = s.anaTurnsLeft
      ∧ ∀ t, WorkedOff (anaRecv Params.default batch rest s) t → WorkedOff s t := by
  have supply : (anaRecv Params.default batch rest s).supply = s.supply := by
    simp [State.supply, queue]; omega
  refine ⟨?_, fun t ⟨phase, drained, ring, sq⟩ => ⟨phase, drained, supply ▸ ring, supply ▸ sq⟩⟩
  rw [State.anaTurnsLeft, State.anaTurnsLeft, supply, anaRecv_fq, queue, List.length_cons]
  omega

/-- A step on a full window is one turn and one emission less (R186, R187). -/
theorem anaPass_worksOff (full : 1024 ≤ s.ring.length) (room : s.sq.length ≤ 8) (x : List F32) :
    (anaPass Params.default x s).anaTurnsLeft + 1 = s.anaTurnsLeft
      ∧ ∀ t, WorkedOff (anaPass Params.default x s) t → WorkedOff s t := by
  have supply : (anaPass Params.default x s).supply = s.supply - 512 := by
    simp [State.supply]; omega
  have hop : emissions s.supply = emissions (s.supply - 512) + 1 := emissions_hop (by unfold State.supply; omega)
  refine ⟨?_, fun t ⟨phase, drained, ring, sq⟩ => ⟨phase, drained, ?_, ?_⟩⟩
  · rw [State.anaTurnsLeft, State.anaTurnsLeft, supply, anaPass_fq, hop]
    omega
  · rw [ring, supply, hop]
    omega
  · rw [sq, supply, hop, anaPass_sq, default_capSpec, fifoTryPush_length_eq room]
    omega

/-- A turn of an analyzer with turns left is one of them, a receive or a step, and ends with the loop test (R187). -/
theorem stepAna_worksOff (tested : s.anaPhase = loopTest 1024 s.ring) (room : s.sq.length ≤ 8) (left : s.anaTurnsLeft = n + 1) :
    (stepAna Params.default s).anaPhase = loopTest 1024 (stepAna Params.default s).ring
      ∧ (stepAna Params.default s).sq.length ≤ 8 ∧ (stepAna Params.default s).turns = s.turns
      ∧ (stepAna Params.default s).anaTurnsLeft = n
      ∧ ∀ t, WorkedOff (stepAna Params.default s) t → WorkedOff s t := by
  rcases Nat.lt_or_ge s.ring.length 1024 with short | full
  · have phase : s.anaPhase = .wait := tested.trans ((loopTest_eq_wait _ _).mpr short)
    cases queue : s.fq with
    | nil =>
      have none : s.anaTurnsLeft = 0 := by simp [State.anaTurnsLeft, State.supply, queue, emissions_of_short short]
      omega
    | cons batch rest =>
      rw [stepAna_receives phase queue]
      obtain ⟨less, back⟩ := anaRecv_worksOff queue
      exact ⟨rfl, room, rfl, Nat.succ.inj (less.trans left), back⟩
  · have phase : s.anaPhase = .loop := tested.trans ((loopTest_eq_loop _ _).mpr full)
    rw [stepAna_passes phase full]
    obtain ⟨less, back⟩ := anaPass_worksOff full room _
    exact ⟨rfl, fifoTryPush_length room _, rfl, Nat.succ.inj (less.trans left), back⟩

/-- A run whose first step gives a state goes on from it. -/
theorem run_succ_of_step {M : Host.Core} {s t : M.State} (h : M.step s = .next t) (n : Nat) : M.run (n + 1) s = M.run n t := by
  rw [Host.Core.run, h]

/-- As many turns of the analyzer alone as it has left work all off, by induction on the turns. -/
theorem run_worksOff (tested : s.anaPhase = loopTest 1024 s.ring) (room : s.sq.length ≤ 8) (left : s.anaTurnsLeft = n)
    (turns : s.turns = List.replicate n .ana ++ ts) : ∃ t : State, core.run n s = .next t ∧ WorkedOff s t ∧ t.turns = ts := by
  induction n generalizing s with
  | zero => exact ⟨s, rfl, .of_no_turnsLeft tested room left, turns⟩
  | succ n ih =>
    rw [run_succ_of_step (M := core) (step_of_ana turns)]
    obtain ⟨tested', room', turns', left', back⟩ :=
      stepAna_worksOff (s := { s with turns := List.replicate n .ana ++ ts }) tested room left
    obtain ⟨t, hrun, worked, rest⟩ := ih tested' room' left' turns'
    obtain ⟨phase, queue, ring, sq⟩ := back t worked
    exact ⟨t, hrun, ⟨phase, queue, ring, sq⟩, rest⟩

/-- Settles O36: the analyzer waits with less than a window, so it starts with its loop test done. -/
theorem emissionCountIsTheFormula : Obligations.EmissionCountIsTheFormula := by
  intro s ts total steps phase short htotal hsteps turns room
  have left : s.anaTurnsLeft = s.fq.length + steps := by rw [hsteps, htotal]; rfl
  obtain ⟨t, hrun, worked, rest⟩ := run_worksOff (phase.trans ((loopTest_eq_wait _ _).mpr short).symm) room left turns
  obtain ⟨phase', queue, ring, sq⟩ := worked
  have hemit : emissions s.supply = steps := by rw [hsteps, htotal]; rfl
  rw [hemit] at ring sq
  exact ⟨t, hrun, phase', queue, rest, htotal ▸ ring, sq⟩

end Sys2Proof.Machine

/-! What an analysis step computes for a band, written out in the default arithmetic (R182 to R184, R203 to R206, R221). -/

namespace Sys2Proof

open Machine

/-- A band's powers are those of the bins the map puts in it, in ascending order (R203). -/
theorem bandPowers_eq_filterMap {α : Type} (bandmap : List Nat) (power : List α) (b : Nat) : bandPowers bandmap power b
    = (List.range power.length).filterMap fun i => if bandmap[i]? = some b then power[i]? else none := by
  induction power generalizing bandmap with
  | nil => simp [bandPowers]
  | cons v power ih =>
    cases bandmap with
    | nil => simp [bandPowers]
    | cons c bandmap =>
      have rest := ih bandmap
      unfold bandPowers at rest ⊢
      rw [List.length_cons, List.range_succ_eq_map, List.filterMap_cons, List.filterMap_map, List.zip_cons_cons, List.filter_cons]
      by_cases mine : c = b
      · simp [mine, rest]
      · simp [mine, rest]

/-- The powers of a window's bins in the default arithmetic (R182 to R184). -/
theorem powers_eq (x : List F32) : dataF32.powers x = ((NumF32.dft (List.zipWith NumF32.mul x (NumF32.window 1024))).map
    fun sums => (NumF32.mul 0x3F800000#32 sums.1, NumF32.mul 0x3F800000#32 sums.2)).map
      fun bin => NumF32.add (NumF32.mul bin.1 bin.1) (NumF32.mul bin.2 bin.2) := by
  rw [DataPath.powers, windowed_eq]
  rfl

/-- The root of the mean power of some bins (R204). -/
theorem magnitude_eq (mine : List F32) : dataF32.magnitude mine = NumF32.sqrt (if mine.length = 0 then 0x00000000#32
    else NumF32.div (mine.foldl NumF32.add 0x00000000#32) (NumF32.ofNat mine.length)) := by
  rw [DataPath.magnitude, DataPath.meanPower, DataPath.sum, dataF32_zero]
  rfl

/-- The linear level (R205). -/
theorem linearLevel_eq (m : F32) : dataF32.linearLevel m
    = dataF32.clamp01 (NumF32.mul (NumF32.mul m 0x3E4CCCCD#32) 0x3F4CCCCD#32) := rfl

/-- The dB level (R206). -/
theorem dbLevel_eq (m : F32) : dataF32.dbLevel m = if NumF32.lt 0x00000000#32 m then
    dataF32.clamp01 (dbRatio (NumF32.log10 (NumF32.mul m 0x3E4CCCCD#32))) else 0x00000000#32 := by
  rw [DataPath.dbLevel, dbOfAmplitude_eq, dataF32_zero]
  rfl

/-- Settles O31, formula by formula. -/
theorem analysisComputesEachBand : Obligations.AnalysisComputesEachBand := by
  intro bandmap x smDb smLin b hb bins power mine mean m clamp newLin newDb
  have hpower : dataF32.powers x = power := powers_eq x
  have hm : dataF32.bandMagnitude bandmap (dataF32.powers x) b = m := by
    rw [hpower, DataPath.bandMagnitude, bandPowers_eq_filterMap]
    exact magnitude_eq mine
  have hlin : dataF32.newLin bandmap x (dataF32.powers x) b = newLin := by
    rw [DataPath.newLin, hm, linearLevel_eq, clamp01_eq]
    rfl
  have hdb : dataF32.newDb bandmap x (dataF32.powers x) b = newDb := by
    rw [DataPath.newDb, hm, dbLevel_eq, clamp01_eq]
    rfl
  rw [dataF32_beta, ← smooth_eq, ← smooth_eq, ← hlin, ← hdb, ← dataF32_zero]
  exact ⟨smoothAll_getElem? dataF32 _ smDb hb, smoothAll_getElem? dataF32 _ smLin hb⟩

end Sys2Proof

/-! The window against the Hann formula over the real numbers (R180). -/

namespace Sys2Proof.NumF32

/-! ## The table -/

theorem window_getElem? {f n : Nat} (h : n < f) : (window f)[n]? = some (hann f n) := by simp [window, h]

/-- `1 − cos` of a fraction of a turn in fixed point, kept in [0, 2], as the window takes it. -/
def oneSubCos (p q : Nat) : Nat := Nat.min ((fix : Int) - cosTurn p q).toNat (2 * fix)

theorem hann_eq (f n : Nat) : hann f n
    = pack false (roundMag (oneSubCos (Nat.min n (f - 1 - n)) (f - 1) * one) (2 * fix)) := rfl

/-- A coefficient and the one as far from the other end are the same. -/
theorem hann_symm {f n : Nat} (h : n < f) : hann f (f - 1 - n) = hann f n := by
  have angle : Nat.min (f - 1 - n) (f - 1 - (f - 1 - n)) = Nat.min n (f - 1 - n) := by
    rw [Nat.sub_sub_self (by omega)]; exact Nat.min_comm _ _
  rw [hann_eq, hann_eq, angle]

/-! ## The coefficients against the formula -/

/-- The Hann formula of R180. -/
noncomputable def hannReal (last n : Nat) : ℝ := 1 / 2 * (1 - Real.cos (2 * Real.pi * n / last))

theorem hannReal_nonneg (last n : Nat) : 0 ≤ hannReal last n := by
  have := Real.cos_le_one (2 * Real.pi * n / last)
  unfold hannReal; linarith

theorem hannReal_le_one (last n : Nat) : hannReal last n ≤ 1 := by
  have := Real.neg_one_le_cos (2 * Real.pi * n / last)
  unfold hannReal; linarith

/-- The formula is symmetric: the two angles sum to a full turn. -/
theorem hannReal_symm {last n : Nat} (hlast : 0 < last) (h : n ≤ last) : hannReal last (last - n) = hannReal last n := by
  have hl : (last : ℝ) ≠ 0 := by positivity
  have angle : 2 * Real.pi * ((last - n : Nat) : ℝ) / last = 2 * Real.pi - 2 * Real.pi * n / last := by
    rw [Nat.cast_sub h]; field_simp
  rw [hannReal, angle, Real.cos_two_pi_sub, ← hannReal]

/-- The formula at the smaller of the two angles. -/
theorem hannReal_min {last n : Nat} (hlast : 0 < last) (h : n ≤ last) :
    hannReal last (Nat.min n (last - n)) = hannReal last n := by
  rcases Nat.le_total n (last - n) with hle | hle
  · exact congrArg _ (Nat.min_eq_left hle)
  · exact (congrArg _ (Nat.min_eq_right hle)).trans (hannReal_symm hlast h)

/-- Half of `oneSubCos` is that of `1 − cos` of the fixed point, kept in [0, 1]. -/
theorem oneSubCos_half (p q : Nat) : (oneSubCos p q : ℝ) / (2 * fix : Nat)
    = Min.min (Max.max (1 / 2 * (1 - (cosTurn p q : ℝ) / fix)) 0) 1 := by
  have hfix : (0 : ℝ) < (fix : Nat) := by positivity
  have kept : ((oneSubCos p q : Int) : ℝ) = (Min.min (Max.max ((fix : Nat) - cosTurn p q) 0) (2 * (fix : Nat)) : Int) := by
    have : oneSubCos p q = Min.min ((fix : Int) - cosTurn p q).toNat (2 * fix) := rfl
    generalize fix = F at this ⊢
    exact congrArg _ (by omega)
  generalize fix = F at *
  rw [Int.cast_natCast] at kept
  push_cast at kept ⊢
  rw [kept, ← min_div_div_right (by positivity), ← max_div_div_right (by positivity), zero_div, div_self (by positivity)]
  congr 2
  field_simp

/-- In fixed point half of `1 − cos` is the formula's value to within 2^−60: the formula lies in [0, 1], so keeping the number
there moves it no farther away. -/
theorem oneSubCos_close (p : Nat) {q : Nat} (hq : 0 < q) :
    |(oneSubCos p q : ℝ) / (2 * fix : Nat) - hannReal q p| ≤ 1 / 2 ^ 60 := by
  have unit : hannReal q p = Min.min (Max.max (hannReal q p) 0) 1 := by
    rw [max_eq_left (hannReal_nonneg q p), min_eq_left (hannReal_le_one q p)]
  have clamp (a b : ℝ) : |Min.min (Max.max a 0) 1 - Min.min (Max.max b 0) 1| ≤ |a - b| :=
    (abs_min_sub_min_le_max _ _ _ _).trans (max_le (abs_max_sub_max_le_abs _ _ _) (by simp))
  rw [oneSubCos_half, unit]
  refine (clamp _ _).trans ?_
  rw [hannReal, ← mul_sub, abs_mul, sub_sub_sub_cancel_left, abs_sub_comm, abs_of_pos (by positivity)]
  linarith [cosTurn_close p q hq]

/-- A ratio of at most 1, rounded to binary32, errs by at most 2^−24 of it, and half a quantum. -/
theorem pack_roundMag_close {num den : Nat} (hd : 0 < den) (h : num ≤ den) :
    |(toInt (pack false (roundMag (num * one) den)) : ℝ) / 2 ^ 149 - (num : ℝ) / den| ≤ (num : ℝ) / den / 2 ^ 24 + 1 / 2 ^ 150 := by
  have rounded : Rounds (num * one : Nat) den (pack false (roundMag (num * one) den)) :=
    ⟨false, ⟨fun h => absurd h (by omega), fun _ => rfl⟩, by rw [Int.natAbs_natCast]⟩
  have unit := inUnit_pack_roundMag (num := num * one) hd (by rw [mul_comm]; exact Nat.mul_le_mul_left _ h)
  have err := rounded.error hd ((inUnit_iff _).mp unit).1
  generalize toInt (pack false (roundMag (num * one) den)) = v at err ⊢
  rw [Int.natAbs_natCast] at err
  have errReal : |(v : ℝ) * den - (num : ℝ) * 2 ^ 149| * 2 ^ 24 ≤ (num : ℝ) * 2 ^ 149 + 2 ^ 23 * den := by
    have : (((v * den - (num * one : Nat)).natAbs * 2 ^ 24 : Nat) : ℝ) ≤ ((num * one + 2 ^ 23 * den : Nat) : ℝ) := by
      exact_mod_cast err
    rw [Nat.cast_mul, Nat.cast_natAbs] at this
    push_cast at this
    norm_num at this ⊢
    exact this
  have hdr : (0 : ℝ) < den := by positivity
  calc |(v : ℝ) / 2 ^ 149 - (num : ℝ) / den| = |(v : ℝ) * den - (num : ℝ) * 2 ^ 149| * 2 ^ 24 / (2 ^ 149 * (den : ℝ) * 2 ^ 24) := by
        rw [div_sub_div _ _ (by positivity) hdr.ne', abs_div, abs_of_pos (a := 2 ^ 149 * (den : ℝ)) (by positivity),
          mul_comm (2 ^ 149) (num : ℝ), mul_div_mul_right _ _ (by positivity)]
    _ ≤ ((num : ℝ) * 2 ^ 149 + 2 ^ 23 * den) / (2 ^ 149 * (den : ℝ) * 2 ^ 24) := by gcongr
    _ = (num : ℝ) / den / 2 ^ 24 + 1 / 2 ^ 150 := by field_simp

/-- A coefficient is the formula's value to within its own rounding and the error of the fixed-point cosine. -/
theorem hann_close {f n : Nat} (hf : 1 < f) (h : n < f) :
    |(toInt (hann f n) : ℝ) / 2 ^ 149 - hannReal (f - 1) n| ≤ hannReal (f - 1) n / 2 ^ 24 + 1 / 2 ^ 48 := by
  have taken := oneSubCos_close (Nat.min n (f - 1 - n)) (q := f - 1) (by omega)
  rw [hannReal_min (by omega) (by omega)] at taken
  have rounded := pack_roundMag_close (num := oneSubCos (Nat.min n (f - 1 - n)) (f - 1)) (den := 2 * fix) (by decide)
    (Nat.min_le_right _ _)
  rw [← hann_eq] at rounded
  generalize (oneSubCos (Nat.min n (f - 1 - n)) (f - 1) : ℝ) / (2 * fix : Nat) = c at taken rounded
  have small : c / 2 ^ 24 ≤ (hannReal (f - 1) n + 1 / 2 ^ 60) / 2 ^ 24 := by
    gcongr
    linarith [(abs_le.mp taken).2]
  have budget : (1 : ℝ) / 2 ^ 60 / 2 ^ 24 + 1 / 2 ^ 150 + 1 / 2 ^ 60 ≤ 1 / 2 ^ 48 := by norm_num
  rw [add_div] at small
  linarith [abs_sub_le ((toInt (hann f n) : ℝ) / 2 ^ 149) c (hannReal (f - 1) n)]

/-- Settles O34: the ends are computed, and every coefficient is the formula in fixed point, rounded once. -/
theorem windowIsASymmetricTaper : Obligations.WindowIsASymmetricTaper := by
  have first : hann 1024 0 = 0 := by decide +kernel
  refine ⟨by simp [window], ?_, ?_, fun n hn => ?_, fun w => inUnit_of_mem_window, fun n hn w hw => ?_⟩
  · rw [window_getElem? (by decide), first]
  · rw [window_getElem? (by decide), ← hann_symm (by decide)]
    exact congrArg some first
  · rw [window_getElem? hn, window_getElem? (by omega), ← hann_symm hn]
  · rw [window_getElem? hn] at hw
    cases hw
    exact_mod_cast hann_close (f := 1024) (by decide) hn

end Sys2Proof.NumF32

/-! The band map against its formula over the real numbers, and its tables at 48000 Hz and at 44100 Hz (R200, R202, R209). -/

namespace Sys2Proof

open NumF32 Machine

/-! ## The formula (R200, R201) -/

/-- The data path's formula over the real numbers, whose rounding is a floor (R200, R209). -/
theorem bandOfFreq_real_floor (fHi f0 : ℝ) : dataReal.bandOfFreq fHi f0
    = Min.min ⌊dataReal.clamp01 (Real.log (Max.max f0 20 / 20) / Real.log (fHi / 20)) * 95 + 1 / 2⌋₊ 95 := by
  have position : dataReal.bandOfFreq fHi f0 = bandEntry 96 (NumReal.round .away
      (dataReal.clamp01 (Real.log (Max.max f0 20 / 20) / Real.log (fHi / 20)) * 95)) := rfl
  rw [position, round_away (mul_nonneg (clamp01_real_unit _).1 (by norm_num)), bandEntry, Int.floor_toNat]

/-- Settles O15: the integer map is the data path's over the real numbers, and that is the formula. -/
theorem bandOfBinIsTheLogarithmicFormula : Obligations.BandOfBinIsTheLogarithmicFormula := by
  intro rate i hrate hi f fHi t
  have ceiling : dataReal.fHi rate = fHi := by simp [DataPath.fHi, fHi]
  rw [← (referenceBandMapIsTheExactOne rate hrate).1 i hi, DataPath.bandOfBin, bandOfFreq_real_floor, ceiling, clamp01_real]
  simp [t, f]

/-! ## Two monotone maps with the same count of bins in every band are the same -/

/-- Whether the counts `ns` of the bands from `k` on, the first of whose bins is `i`, are those of a map: `reached k i` says that
the map puts bin `i` in band `k` or above, and each band's first and last bin are looked at. -/
def fitsCounts (reached : Nat → Nat → Bool) : Nat → Nat → List Nat → Bool
  | _, _, [] => true
  | i, k, n :: ns =>
    (n == 0 || reached k i && !reached (k + 1) (i + n - 1)) && fitsCounts reached (i + n) (k + 1) ns

section

variable {f g : Nat → Nat} {reached reached' : Nat → Nat → Bool} {last : Nat}

/-- A monotone map has every bin from the first to the last of a band in that band. -/
theorem eq_of_fitsCounts_cons (mono : ∀ a b, a ≤ b → b ≤ last → f a ≤ f b) (hf : ∀ k i, reached k i = true ↔ k ≤ f i)
    {i k n : Nat} {ns : List Nat} (fits : fitsCounts reached i k (n :: ns) = true) {j : Nat} (hij : i ≤ j) (hj : j < i + n)
    (hlast : i + n ≤ last + 1) : f j = k := by
  rw [fitsCounts, Bool.and_eq_true, Bool.or_eq_true, beq_iff_eq, Bool.and_eq_true, Bool.not_eq_true', ← Bool.not_eq_true,
    hf, hf] at fits
  obtain ⟨h | ⟨hfirst, hend⟩, -⟩ := fits
  · omega
  · have := mono i j hij (by omega)
    have := mono j (i + n - 1) (by omega) (by omega)
    omega

/-- Two monotone maps that the same counts fit agree on the bins counted. -/
theorem eq_of_fitsCounts (monof : ∀ a b, a ≤ b → b ≤ last → f a ≤ f b) (monog : ∀ a b, a ≤ b → b ≤ last → g a ≤ g b)
    (hf : ∀ k i, reached k i = true ↔ k ≤ f i) (hg : ∀ k i, reached' k i = true ↔ k ≤ g i) (ns : List Nat) :
    ∀ {i k : Nat}, fitsCounts reached i k ns = true → fitsCounts reached' i k ns = true → i + ns.sum ≤ last + 1 →
      ∀ j, i ≤ j → j < i + ns.sum → f j = g j := by
  induction ns with
  | nil => intro i k _ _ _ j hij hj; rw [List.sum_nil] at hj; omega
  | cons n ns ih =>
    intro i k fitsf fitsg hsum j hij hj
    rw [List.sum_cons] at hsum hj
    rcases Nat.lt_or_ge j (i + n) with hin | hout
    · rw [eq_of_fitsCounts_cons monof hf fitsf hij hin (by omega), eq_of_fitsCounts_cons monog hg fitsg hij hin (by omega)]
    · rw [fitsCounts, Bool.and_eq_true] at fitsf fitsg
      exact ih fitsf.2 fitsg.2 (by omega) j hout (by omega)

end

/-! ## What each of the two maps puts in a band or above -/

/-- A band is reached when its own comparison of powers holds: those of the bands below it then hold too. -/
theorem succ_le_bandOfRatio {a d c e k : Nat} (hd : 0 < d) (ha : d ≤ a) (he : 0 < e) (hc : e < c) :
    k + 1 ≤ bandOfRatio a d c e ↔ k < 95 ∧ reaches a d c e (k + 1) = true := by
  have hlow : 0 ≤ Real.log ((a : ℝ) / d) := Real.log_nonneg ((one_le_div (by exact_mod_cast hd)).mpr (by exact_mod_cast ha))
  have hscale : 0 < Real.log ((c : ℝ) / e) :=
    Real.log_pos ((one_lt_div (by exact_mod_cast he)).mpr (by exact_mod_cast hc))
  have hreach : ∀ j, reaches a d c e (j + 1)
      = decide (j < ⌊Real.log ((a : ℝ) / d) / Real.log ((c : ℝ) / e) * 95 + 1 / 2⌋₊) := fun j => by
    rw [Bool.eq_iff_iff, reaches_iff hd (by omega) he hc (by omega), decide_eq_true_eq, Nat.lt_iff_add_one_le,
      Nat.le_floor_iff (by positivity)]
  simp only [bandOfRatio, hreach, length_filter_lt, decide_eq_true_eq]
  exact lt_min_iff (α := Nat)

/-- Whether the exact map puts bin `i` in band `k` or above, by one comparison of powers. -/
def exactReached (rate : Nat) : Nat → Nat → Bool
  | 0, _ => true
  | k + 1, i => decide (k < 95) &&
    reaches (Nat.max (i * rate) (Config.fftSize * Config.fLoHz)) (Config.fftSize * Config.fLoHz) (twiceFHi rate)
      (2 * Config.fLoHz) (k + 1)

theorem exactReached_iff {rate : Nat} (least : 41 ≤ rate) (k i : Nat) :
    exactReached rate k i = true ↔ k ≤ NumF32.bandOfBin rate i := by
  cases k with
  | zero => simp [exactReached]
  | succ k =>
    rw [exactReached, Bool.and_eq_true, decide_eq_true_eq]
    exact (succ_le_bandOfRatio (by decide) (le_max_right _ _) (by decide) (twiceFHi_gt least)).symm

/-- Whether the default arithmetic puts bin `i` in band `k` or above, `scale` being `ln(F_HI/F_LO)`. -/
def machineReached (scale : F32) (rate k i : Nat) : Bool :=
  decide (k ≤ bandAt (dataF32.clamp01 (NumF32.div (lnOverFloor (NumF32.max (binCenter rate i) 0x41A00000#32)) scale)))

theorem machineReached_iff {scale : F32} {rate : Nat} (hscale : lnOverFloor (dataF32.fHi rate) = scale) (k i : Nat) :
    machineReached scale rate k i = true ↔ k ≤ dataF32.bandOfBin rate i := by
  rw [machineReached, decide_eq_true_eq, bandOfBin_eq, bandOfFreq_eq, scalePosition, hscale]

/-- The table `CFG` writes is the exact one if some counts of the bins of each band fit both maps. -/
theorem bandmapFor_eq_exact {rate : Nat} {scale : F32} (least : 41 ≤ rate) (hrate : rate < 2 ^ 32)
    (hscale : lnOverFloor (dataF32.fHi rate) = scale) {counts : List Nat} (hsum : counts.sum = 513)
    (fitsMachine : fitsCounts (machineReached scale rate) 0 0 counts = true)
    (fitsExact : fitsCounts (exactReached rate) 0 0 counts = true) :
    bandmapFor Params.default rate = (List.range 513).map (NumF32.bandOfBin rate) := by
  rw [bandmapFor_default]
  refine List.map_congr_left fun i hi => ?_
  have hi := List.mem_range.mp hi
  exact eq_of_fitsCounts (last := 512) (fun _ _ => bandOfBin_mono hrate least) (fun _ _ h _ => exact_bandOfBin_mono least h)
    (machineReached_iff hscale) (exactReached_iff least) counts fitsMachine fitsExact (by omega) i (by omega) (by omega)

/-! ## The tables (R202, R209) -/

/-- How many bins each band has at 48000 Hz. -/
def counts48000 : List Nat :=
  [1, 0, 0, 0, 0, 0, 0, 0, 0, 0, 0, 0, 1, 0, 0, 0, 0, 0, 0, 0, 0, 1, 0, 0, 0, 0, 0, 1, 0, 0, 0, 1, 0, 0, 1, 0, 1, 0, 1,
   0, 1, 0, 1, 1, 0, 1, 1, 1, 1, 1, 1, 2, 1, 1, 2, 2, 1, 2, 3, 2, 2, 3, 3, 3, 3, 3, 4, 4, 5, 4, 5, 6, 6, 6, 7, 7, 8, 8,
   9, 10, 10, 11, 12, 13, 14, 15, 16, 18, 18, 21, 21, 23, 25, 27, 29, 101]

/-- How many bins each band has at 44100 Hz. -/
def counts44100 : List Nat :=
  [1, 0, 0, 0, 0, 0, 0, 0, 0, 0, 0, 1, 0, 0, 0, 0, 0, 0, 0, 0, 1, 0, 0, 0, 0, 0, 1, 0, 0, 0, 1, 0, 0, 1, 0, 1, 0, 1, 0,
   1, 0, 1, 1, 0, 1, 1, 1, 1, 1, 1, 2, 1, 2, 1, 2, 2, 2, 2, 2, 3, 2, 3, 3, 4, 3, 4, 4, 4, 5, 5, 6, 6, 6, 7, 7, 8, 8, 10,
   9, 11, 11, 13, 13, 14, 15, 16, 18, 19, 20, 22, 23, 26, 27, 29, 31, 65]

/-- `ln(20000/20)`: the ceiling is 20000 Hz at both rates (R125). -/
theorem lnOverFloor_fHi : lnOverFloor (dataF32.fHi 48000) = 0x40DD0C55#32 ∧ lnOverFloor (dataF32.fHi 44100) = 0x40DD0C55#32 := by
  decide +kernel

theorem bandmapFor_48000 : bandmapFor Params.default 48000 = (List.range 513).map (NumF32.bandOfBin 48000) :=
  bandmapFor_eq_exact (counts := counts48000) (by decide) (by decide) lnOverFloor_fHi.1 (by decide) (by decide +kernel)
    (by decide +kernel)

theorem bandmapFor_44100 : bandmapFor Params.default 44100 = (List.range 513).map (NumF32.bandOfBin 44100) :=
  bandmapFor_eq_exact (counts := counts44100) (by decide) (by decide) lnOverFloor_fHi.2 (by decide) (by decide +kernel)
    (by decide +kernel)

/-- Settles O18: the entries are computed; no bin is in band 1, since bin 0 is in band 0, bin 1 in band 12, and the map is
monotone. -/
theorem bandsAt48000AreTheTables : Obligations.BandsAt48000AreTheTables := by
  have first : NumF32.bandOfBin 48000 0 = 0 := exact_bandOfBin_low (by decide) (by decide)
  have second : 12 ≤ NumF32.bandOfBin 48000 1 := (exactReached_iff (by decide) 12 1).mp (by decide +kernel)
  refine ⟨by decide +kernel, by decide +kernel, fun i => ?_, bandmapFor_48000, bandmapFor_44100⟩
  rcases Nat.eq_zero_or_pos i with rfl | hi
  · omega
  · have := exact_bandOfBin_mono (rate := 48000) (i := 1) (by decide) hi
    omega

end Sys2Proof

/-! Accumulation by band: every bin is in one band (R203). -/

namespace Sys2Proof

open Machine

/-- The bins that the map puts in a band, in ascending order. -/
theorem bandPowers_range (bandmap : List Nat) (n b : Nat) :
    bandPowers bandmap (List.range n) b = (List.range n).filter fun i => bandmap[i]? = some b := by
  rw [bandPowers_eq_filterMap, List.length_range, ← List.filterMap_eq_filter]
  refine List.filterMap_congr fun i hi => ?_
  rw [List.getElem?_range (List.mem_range.mp hi)]
  simp [Option.guard]

/-- How many bins a band has is how often the map names it. -/
theorem length_bandPowers {α : Type} {bandmap : List Nat} {power : List α} (h : bandmap.length ≤ power.length) (b : Nat) :
    (bandPowers bandmap power b).length = bandmap.count b := by
  rw [bandPowers, List.length_map, ← List.countP_eq_length_filter]
  conv_rhs => rw [← List.map_fst_zip h, List.count, List.countP_map]
  rfl

/-- How often the numbers below `n` occur in a list that has no other entries sums to its length. -/
theorem sum_count_range {l : List Nat} {n : Nat} (h : ∀ b ∈ l, b < n) : ((List.range n).map l.count).sum = l.length := by
  rw [← List.sum_toFinset _ List.nodup_range, List.toFinset_range]
  simpa using Multiset.sum_count_eq_card (m := l) fun b hb => Finset.mem_range.mpr (h b hb)

/-- Settles O32: a band's bins are a filter of the bins, and how often the bands occur in the map sums to its length. -/
theorem everyBinIsInOneBand : Obligations.EveryBinIsInOneBand := by
  intro bandmap power hmap hband hpower
  have mem_iff : ∀ i, i < 513 → ∀ b, i ∈ bandPowers bandmap (List.range 513) b ↔ bandmap[i]? = some b := fun i hi b => by
    simp [bandPowers_range, hi]
  refine ⟨fun b => ?_, mem_iff, fun i hi => ?_, ?_⟩
  · rw [bandPowers_eq_filterMap, hpower]
  · have hib : i < bandmap.length := hmap ▸ hi
    refine ⟨bandmap[i], Nat.lt_succ_of_le (hband _ (List.getElem_mem hib)), List.count_eq_one_of_mem ?_ ?_⟩
    · rw [bandPowers_range]
      exact List.nodup_range.filter _
    · exact (mem_iff i hi _).mpr (List.getElem?_eq_getElem hib)
  · simp only [length_bandPowers (hmap.trans hpower.symm).le]
    exact (sum_count_range fun b hb => Nat.lt_succ_of_le (hband b hb)).trans hmap

end Sys2Proof

/-! The register table under the default parameters (R33, R240), and the frame of the consumer's commands (R235). -/

namespace Sys2Proof.Machine

variable {α : Type} {p : Params α} {s t : State α}

/-! ## `RDREG` (R240) -/

/-- The table of R33 at the defaults: the constants of the interface and the images of the default parameters. -/
theorem registerTable_default (s : State) : registerTable Params.default s =
    [s.status, s.sampleRate, s.channels.zeroExtend 32, s.encoding.zeroExtend 32, 0x00000400#32, 0x00000200#32,
      0x00000060#32, 0x41A00000#32, s.fHi, 0x3F19999A#32, 0x3E4CCCCD#32, 0x3F4CCCCD#32, 0x42700000#32,
      0x00000020#32, 0x00000010#32, 0x00000008#32, 0x469C4000#32] := rfl

/-- Settles O52: a register of the table answers its word, and past the table the command is refused. -/
theorem readRegisterAnswersTheTable : Obligations.ReadRegisterAnswersTheTable := by
  refine fun s r => ⟨fun w h => ?_, fun reserved => ?_⟩
  · rw [← registerTable_default] at h
    exact congrArg Host.Outcome.next (runRdreg_of_table h)
  · exact congrArg Host.Outcome.next (runRdreg_reserved reserved)

/-! ## What a consumer command leaves alone (R235) -/

theorem fifoTryPop_snd {β : Type} (q : List β) : (fifoTryPop q).2 = q.drop 1 := by
  cases q <;> rfl

/-- What a consumer command `i` does to the state: it drops the oldest messages of the FIFO it reads, appends to the response, and
raises `IllegalCommand` for a reserved register alone. -/
structure ConsumerFrame (i : Instr) (s t : State α) : Prop where
  frame    : t = { s with lq := t.lq, sq := t.sq, conOut := t.conOut, status := t.status }
  dropsLq  : ∃ k, t.lq = s.lq.drop k
  dropsSq  : ∃ k, t.sq = s.sq.drop k
  responds : ∃ ws, t.conOut = s.conOut ++ ws
  readsLq  : t.lq ≠ s.lq → i = .lvlPop ∨ i = .lvlLatest
  readsSq  : t.sq ≠ s.sq → i = .spcPop ∨ i = .spcLatest
  illegal  : t.status ≠ s.status → t.status = s.status ||| illMask ∧ ∃ r, i = .rdreg r ∧ 16 < r

theorem respond_consumerFrame (i : Instr) (ws : List Word) (s : State α) : ConsumerFrame i s (respond ws s) where
  frame := rfl
  dropsLq := ⟨0, rfl⟩
  dropsSq := ⟨0, rfl⟩
  responds := ⟨ws, rfl⟩
  readsLq h := absurd rfl h
  readsSq h := absurd rfl h
  illegal h := absurd rfl h

theorem raise_illegal_consumerFrame {r : Nat} (reserved : 16 < r) (s : State α) :
    ConsumerFrame (.rdreg r) s (raise .illegalCommand s) :=
  { respond_consumerFrame _ [] s with
    frame := rfl
    responds := ⟨[], (List.append_nil _).symm⟩
    illegal := fun _ => ⟨rfl, r, rfl, reserved⟩ }

theorem answerLevel_consumerFrame {i : Instr} (hi : i = .lvlPop ∨ i = .lvlLatest) {got : Option (Level α) × List (Level α)}
    {k : Nat} (left : got.2 = s.lq.drop k) : ConsumerFrame i s (answerLevel p got s) :=
  { respond_consumerFrame i (levelResponse (portWords p s) got.1) s with
    frame := rfl
    dropsLq := ⟨k, left⟩
    readsLq := fun _ => hi }

theorem answerSpectrum_consumerFrame {i : Instr} (hi : i = .spcPop ∨ i = .spcLatest)
    {got : Option (Snapshot α) × List (Snapshot α)} {k : Nat} (left : got.2 = s.sq.drop k) :
    ConsumerFrame i s (answerSpectrum p got s) :=
  { respond_consumerFrame i (spectrumResponse (portWords p s) got.1) s with
    frame := rfl
    dropsSq := ⟨k, left⟩
    readsSq := fun _ => hi }

/-- Running a command of port CON changes only what R235 allows. -/
theorem ran_con_frame {i : Instr} (ran : Ran p i s t) (hport : i.port = .con) : ConsumerFrame i s t := by
  cases ran with
  | held i s src | refused i s src => rw [src] at hport; cases hport
  | cfgFailed | cfgDone | batch | closed => cases hport
  | lvlPop => exact answerLevel_consumerFrame (.inl rfl) (fifoTryPop_snd _)
  | lvlLatest => exact answerLevel_consumerFrame (.inr rfl) List.drop_length.symm
  | spcPop => exact answerSpectrum_consumerFrame (.inl rfl) (fifoTryPop_snd _)
  | spcLatest => exact answerSpectrum_consumerFrame (.inr rfl) List.drop_length.symm
  | register => exact respond_consumerFrame _ _ _
  | noRegister r s reserved => exact raise_illegal_consumerFrame reserved s

/-- Settles O53: every command answers a next state, and on port CON only the consumer's part of it changes. -/
theorem consumerCommandsTouchOnlyTheirFifo : Obligations.ConsumerCommandsTouchOnlyTheirFifo := by
  intro s i hport
  obtain ⟨t, hexec, ran⟩ := exec_ran i s
  have con := ran_con_frame ran hport
  exact ⟨t, hexec, con.frame, con.dropsLq, con.dropsSq, con.responds, con.readsLq, con.readsSq, con.illegal⟩

end Sys2Proof.Machine

/-! The block does not stop: every step answers a next state (R262). -/

namespace Sys2Proof.Machine

variable {α : Type} {run : Runner α}

/-- A source's turn answers a next state when every command does: it runs at most one command. -/
theorem stepSrc_answers (answers : ∀ i s, ∃ t, run i s = .next t) (s : State α) : ∃ t, stepSrc run s = .next t := by
  by_cases ready : s.capPhase = .ready
  · cases receive : s.srcRx with
    | held i => rw [stepSrc_held run ready receive]; exact answers i s
    | discard n => exact ⟨discardPayload n s, by simp [stepSrc, ready, receive]⟩
    | header =>
      cases words : s.srcIn with
      | nil => exact ⟨s, by simp [stepSrc, ready, receive, words]⟩
      | cons w rest =>
        cases decoded : decode .src w with
        | ok i => rw [stepSrc_header run ready receive words decoded]; exact answers i _
        | error e => exact ⟨_, stepSrc_illegal run ready receive words decoded⟩
  · exact ⟨s, stepSrc_busy run ready⟩

/-- A consumer's turn answers a next state when every command does. -/
theorem stepCon_answers (answers : ∀ i s, ∃ t, run i s = .next t) (s : State α) : ∃ t, stepCon run s = .next t := by
  cases words : s.conIn with
  | nil => exact ⟨s, by simp [stepCon, words]⟩
  | cons w rest =>
    cases decoded : decode .con w with
    | ok i => rw [stepCon_header run words decoded]; exact answers i _
    | error e => exact ⟨_, stepCon_illegal run words decoded⟩

/-- Every mover's turn answers a next state when every command does. -/
theorem turn_answers (p : Params α) (answers : ∀ i s, ∃ t, run i s = .next t) (m : Move) (s : State α) :
    ∃ t, turn p run m s = .next t := by
  cases m with
  | src => exact stepSrc_answers answers s
  | con => exact stepCon_answers answers s
  | cap => exact ⟨stepCap p s, rfl⟩
  | ana => exact ⟨stepAna p s, rfl⟩
  | reset => exact ⟨resetBlock p s, rfl⟩

/-- Settles O6: a step is a turn, and every command answers a next state (`exec_ran`). -/
theorem everyStepAnswersANextState : Obligations.EveryStepAnswersANextState := fun s =>
  turn_answers Params.default (fun i s => (exec_ran i s).imp fun _ ran => ran.1)
    (takeTurn s).1 (takeTurn s).2

end Sys2Proof.Machine

/-! The reset event restores the block and drops the payload of a partly received command (R290). -/

namespace Sys2Proof.Machine

variable {α : Type}

@[simp] theorem partialPayload_header : partialPayload .header = 0 := rfl
@[simp] theorem partialPayload_held (i : Instr) : partialPayload (.held i) = i.payloadWords := rfl
@[simp] theorem partialPayload_discard (n : Nat) : partialPayload (.discard n) = n := rfl

/-- The reset event leaves nothing of what the block held: the rest is the two parties', the schedule and the free values. -/
@[simp] theorem resetBlock_block (p : Params α) (s : State α) : (resetBlock p s).block = (State.resetAt p).block := rfl

/-- A scheduled reset resets the block and takes its turn from the schedule. -/
theorem step_of_reset {s : State} {rest : List Move} (h : s.turns = .reset :: rest) :
    step s = .next (resetBlock Params.default { s with turns := rest }) := step_of_turns h

/-- Settles O8: the step is `resetBlock`, and what leaves port SRC is `partialPayload` of the receive state, by its cases. -/
theorem resetEventRestoresTheBlock : Obligations.ResetEventRestoresTheBlock := by
  intro s ts scheduled
  refine ⟨_, step_of_reset scheduled, by rw [resetBlock_block, State.resetAt_default], rfl, rfl, rfl, rfl, ?_, ?_, ?_⟩
  · intro header
    rw [resetBlock_srcIn, header, partialPayload_header, List.drop_zero]
  · intro i held
    rw [resetBlock_srcIn, held, partialPayload_held]
  · intro n discard
    rw [resetBlock_srcIn, discard, partialPayload_discard]

end Sys2Proof.Machine
